-- ==== Sys2Proof/Word.lean ====
section
/-! DEFINITION. The word types of the block (spec 00_scope.md R8, R9) and the two sample widths (R6).
All values are unsigned; a value written into a register of width N is reduced mod 2^N, which is what BitVec N does. -/

namespace Sys2Proof

/-- One byte of the coded stream. -/
abbrev Byte := BitVec 8

/-- Range-coder registers, model table entries, front geometry, command words (R8). -/
abbrev W32 := BitVec 32

/-- Operands, results and CSRs as commands see them (R8). -/
abbrev W64 := BitVec 64

/-- The sample width `W` (R6: "32 or 64"): what `CFG_W` and `FRONT_W` can hold. -/
inductive Width where
  | w32
  | w64
deriving DecidableEq, Repr

/-- The number `W` itself. -/
def Width.bits : Width → Nat
  | .w32 => 32
  | .w64 => 64

end Sys2Proof
end

