-- ==== Sys2Proof/Syntax.lean ====
section
/-! DEFINITION. The commands of the block: one constructor per row of the opcode map (spec 30_encoding.md R304).
Immediates are the fields of R301: `b` the bit of format B, `n` the width of format R, `x y z` the offsets of
format X, `c` the CSR index of format C. -/

namespace Sys2Proof

/-- A command, less its operands: those are in the registers DIN0 and DIN1 (R300). -/
inductive Instr where
  | nop
  | reset
  | csrRead (c : Nat)
  | csrWrite (c : Nat)
  | rcEncInit
  | rcEncBit (b : Bool)
  | rcEncRaw (n : Nat)
  | rcEncSym
  | rcFinish
  | rcDecInit
  | rcDecBit
  | rcDecRaw (n : Nat)
  | rcDecSym
  | qsmInit
  | qsmReset
  | qsmEnc
  | qsmDec
  | mapFwd
  | mapInv
  | frontInit
  | frontAt (x y z : Bool)
  | frontPush
  | frontAdvance (x y z : Bool)
  | predict
  | resEnc
  | resDec
  | stepEnc
  | stepDec
deriving DecidableEq, Repr

end Sys2Proof
end

