-- ==== Sys2Proof/WellFormed.lean ====
section
/-! DEFINITION. Which commands have an encoding: every immediate fits its field (spec 30_encoding.md R301, R302).
A width `n` of 65 to 127 is encodable and faults when it runs (R302), so it is well formed. -/

namespace Sys2Proof

/-- The immediate fits the field its format gives it: 8 bits for a CSR index, 7 bits for a raw width. -/
def Instr.wellFormed : Instr → Bool
  | .csrRead c => decide (c < 256)
  | .csrWrite c => decide (c < 256)
  | .rcEncRaw n => decide (n < 128)
  | .rcDecRaw n => decide (n < 128)
  | .nop => true
  | .reset => true
  | .rcEncInit => true
  | .rcEncBit _ => true
  | .rcEncSym => true
  | .rcFinish => true
  | .rcDecInit => true
  | .rcDecBit => true
  | .rcDecSym => true
  | .qsmInit => true
  | .qsmReset => true
  | .qsmEnc => true
  | .qsmDec => true
  | .mapFwd => true
  | .mapInv => true
  | .frontInit => true
  | .frontAt _ _ _ => true
  | .frontPush => true
  | .frontAdvance _ _ _ => true
  | .predict => true
  | .resEnc => true
  | .resDec => true
  | .stepEnc => true
  | .stepDec => true

end Sys2Proof
end

