-- ==== Sys2Proof/Decode.lean ====
section
/-! DEFINITION. The command decoder and encoder (spec 30_encoding.md R300 to R309): one 32-bit word, the opcode in
bits [31:24], bits [23:0] by format. The decoder is total (R308) and reads the word only (R309). -/

namespace Sys2Proof

/-- What a command word is (R308): a command, or one of the two encoding faults of R307. -/
inductive Decoded where
  | instr (i : Instr)
  | illegalOpcode
  | reservedField
deriving DecidableEq, Repr

/-- The field `w[hi:lo]` as an unsigned number (00_scope.md R8). -/
def bitField (w : W32) (hi lo : Nat) : Nat := w.toNat / 2 ^ lo % 2 ^ (hi + 1 - lo)

/-- Format N (R301): bits [23:0] must be 0. -/
def decodeN (i : Instr) (imm : Nat) : Decoded := if imm = 0 then .instr i else .reservedField

/-- Format B (R301): `B = CMD[0]`, bits [23:1] must be 0. -/
def decodeB (k : Bool → Instr) (imm : Nat) : Decoded :=
  if imm < 2 then .instr (k (imm.testBit 0)) else .reservedField

/-- Format R (R301): `N = CMD[6:0]`, bits [23:7] must be 0. -/
def decodeR (k : Nat → Instr) (imm : Nat) : Decoded := if imm < 128 then .instr (k imm) else .reservedField

/-- Format X (R301): `X = CMD[2]`, `Y = CMD[1]`, `Z = CMD[0]`, bits [23:3] must be 0. -/
def decodeX (k : Bool → Bool → Bool → Instr) (imm : Nat) : Decoded :=
  if imm < 8 then .instr (k (imm.testBit 2) (imm.testBit 1) (imm.testBit 0)) else .reservedField

/-- Format C (R301): `CSR = CMD[7:0]`, bits [23:8] must be 0. -/
def decodeC (k : Nat → Instr) (imm : Nat) : Decoded := if imm < 256 then .instr (k imm) else .reservedField

/-- The command decoder: R304's opcode map. An opcode outside it, the reserved 0x15 and 0x1C among them, is
illegal (R306, R307); a listed opcode with a "must be 0" bit set is a reserved-field word (R301, R307). -/
def decode (w : W32) : Decoded :=
  let imm := bitField w 23 0
  match bitField w 31 24 with
  | 0x00 => decodeN .nop imm
  | 0x01 => decodeN .reset imm
  | 0x02 => decodeC .csrRead imm
  | 0x03 => decodeC .csrWrite imm
  | 0x10 => decodeN .rcEncInit imm
  | 0x11 => decodeB .rcEncBit imm
  | 0x12 => decodeR .rcEncRaw imm
  | 0x13 => decodeN .rcEncSym imm
  | 0x14 => decodeN .rcFinish imm
  | 0x18 => decodeN .rcDecInit imm
  | 0x19 => decodeN .rcDecBit imm
  | 0x1A => decodeR .rcDecRaw imm
  | 0x1B => decodeN .rcDecSym imm
  | 0x20 => decodeN .qsmInit imm
  | 0x21 => decodeN .qsmReset imm
  | 0x22 => decodeN .qsmEnc imm
  | 0x23 => decodeN .qsmDec imm
  | 0x30 => decodeN .mapFwd imm
  | 0x31 => decodeN .mapInv imm
  | 0x40 => decodeN .frontInit imm
  | 0x41 => decodeX .frontAt imm
  | 0x42 => decodeN .frontPush imm
  | 0x43 => decodeX .frontAdvance imm
  | 0x44 => decodeN .predict imm
  | 0x50 => decodeN .resEnc imm
  | 0x51 => decodeN .resDec imm
  | 0x60 => decodeN .stepEnc imm
  | 0x61 => decodeN .stepDec imm
  | _ => .illegalOpcode

/-- What the decoder reads from a table row's bits: bit 0 of `w` is bit 0 of the command word, bits from `nbits`
up are 0. A command is one word, so there is no byte order to choose (20_memory.md R200, R207). -/
def decodeTableWord (nbits w : Nat) : Option Instr :=
  match decode (BitVec.ofNat 32 (w % 2 ^ nbits)) with
  | .instr i => some i
  | .illegalOpcode => none
  | .reservedField => none

/-- A command word from its opcode and its immediate bits [23:0]. -/
def commandWord (opc imm : Nat) : W32 := BitVec.ofNat 32 (opc * 2 ^ 24 + imm)

/-- The three bits of format X (R301). -/
def offsetBits (x y z : Bool) : Nat := 4 * x.toNat + 2 * y.toNat + z.toNat

/-- The command word of a well-formed command (R301, R304). -/
def encode : Instr → W32
  | .nop => commandWord 0x00 0
  | .reset => commandWord 0x01 0
  | .csrRead c => commandWord 0x02 c
  | .csrWrite c => commandWord 0x03 c
  | .rcEncInit => commandWord 0x10 0
  | .rcEncBit b => commandWord 0x11 b.toNat
  | .rcEncRaw n => commandWord 0x12 n
  | .rcEncSym => commandWord 0x13 0
  | .rcFinish => commandWord 0x14 0
  | .rcDecInit => commandWord 0x18 0
  | .rcDecBit => commandWord 0x19 0
  | .rcDecRaw n => commandWord 0x1A n
  | .rcDecSym => commandWord 0x1B 0
  | .qsmInit => commandWord 0x20 0
  | .qsmReset => commandWord 0x21 0
  | .qsmEnc => commandWord 0x22 0
  | .qsmDec => commandWord 0x23 0
  | .mapFwd => commandWord 0x30 0
  | .mapInv => commandWord 0x31 0
  | .frontInit => commandWord 0x40 0
  | .frontAt x y z => commandWord 0x41 (offsetBits x y z)
  | .frontPush => commandWord 0x42 0
  | .frontAdvance x y z => commandWord 0x43 (offsetBits x y z)
  | .predict => commandWord 0x44 0
  | .resEnc => commandWord 0x50 0
  | .resDec => commandWord 0x51 0
  | .stepEnc => commandWord 0x60 0
  | .stepDec => commandWord 0x61 0

/-- The row of R304's table a command belongs to: its "match" and "mask" columns, written as the table prints them. -/
def tableRow : Instr → W32 × W32
  | .nop => (0x00000000, 0xFFFFFFFF)
  | .reset => (0x01000000, 0xFFFFFFFF)
  | .csrRead _ => (0x02000000, 0xFFFFFF00)
  | .csrWrite _ => (0x03000000, 0xFFFFFF00)
  | .rcEncInit => (0x10000000, 0xFFFFFFFF)
  | .rcEncBit _ => (0x11000000, 0xFFFFFFFE)
  | .rcEncRaw _ => (0x12000000, 0xFFFFFF80)
  | .rcEncSym => (0x13000000, 0xFFFFFFFF)
  | .rcFinish => (0x14000000, 0xFFFFFFFF)
  | .rcDecInit => (0x18000000, 0xFFFFFFFF)
  | .rcDecBit => (0x19000000, 0xFFFFFFFF)
  | .rcDecRaw _ => (0x1A000000, 0xFFFFFF80)
  | .rcDecSym => (0x1B000000, 0xFFFFFFFF)
  | .qsmInit => (0x20000000, 0xFFFFFFFF)
  | .qsmReset => (0x21000000, 0xFFFFFFFF)
  | .qsmEnc => (0x22000000, 0xFFFFFFFF)
  | .qsmDec => (0x23000000, 0xFFFFFFFF)
  | .mapFwd => (0x30000000, 0xFFFFFFFF)
  | .mapInv => (0x31000000, 0xFFFFFFFF)
  | .frontInit => (0x40000000, 0xFFFFFFFF)
  | .frontAt _ _ _ => (0x41000000, 0xFFFFFFF8)
  | .frontPush => (0x42000000, 0xFFFFFFFF)
  | .frontAdvance _ _ _ => (0x43000000, 0xFFFFFFF8)
  | .predict => (0x44000000, 0xFFFFFFFF)
  | .resEnc => (0x50000000, 0xFFFFFFFF)
  | .resDec => (0x51000000, 0xFFFFFFFF)
  | .stepEnc => (0x60000000, 0xFFFFFFFF)
  | .stepDec => (0x61000000, 0xFFFFFFFF)

end Sys2Proof
end

