-- ==== Sys2Proof/Config.lean ====
section
/-! DEFINITION. What an implementation of the block fixes (spec 00_scope.md R6, the OPEN parameters) and the free
values: constants without a body, for results the spec states no value of. -/

namespace Sys2Proof

/-- The OPEN parameters of R6, "a named parameter the model takes as an argument". They stand in the state, where
no step writes them, so a statement about every state covers every value of them (log 7). -/
structure Params where
  /-- log2 of `FRONT_MAX_SLOTS`, less 3: every power of two from 8 to 2^32 (92_eei_decisions.md D15). -/
  frontMaxLog : Fin 30
  /-- `EMIT_ZERO_WIDTH_RAW` (92_eei_decisions.md D16). -/
  emitZeroWidthRaw : Bool
deriving DecidableEq, Repr

/-- `FRONT_MAX_SLOTS`: "a power of two with 8 ≤ FRONT_MAX_SLOTS ≤ 2^32" (D15). -/
def Params.frontMaxSlots (p : Params) : Nat := 2 ^ (3 + p.frontMaxLog.val)

/-- The parameters of the state after reset: `EMIT_ZERO_WIDTH_RAW` at its default `true` (D16), `FRONT_MAX_SLOTS` at
its largest legal value (DESIGN CHOICE, unsafe, log 7: the spec gives no default). -/
def Config.defaults : Params := { frontMaxLog := 29, emitZeroWidthRaw := true }

/-- The three tables of the probability model (10_state.md R113 to R115). -/
inductive ModelTable where
  | symf
  | cumf
  | search
deriving DecidableEq, Repr

/-- Free value: a 32-bit quotient whose divisor is 0. No run divides by 0 (41_range_coder.md R531); safe (log 8). -/
opaque Config.quotientByZero : W32 → W32

/-- Free value: a 32-bit remainder whose divisor is 0 (log 8). -/
opaque Config.remainderByZero : W32 → W32

/-- Free value: a model table read outside the entries the table has. No run reads one (42_qsmodel.md R611, R615);
safe (log 9). -/
opaque Config.absentEntry : ModelTable → Nat → W32

end Sys2Proof
end

