-- ==== Sys2Proof/Machine/State.lean ====
section
/-! DEFINITION. The machine's state as plain data (spec 10_state.md), the ways a step can stop, and the state after
reset (70_reset_and_hazards.md R1200). -/

namespace Sys2Proof.Machine

/-- `RC_MODE` (10_state.md R104). -/
inductive RcMode where
  | idle
  | enc
  | dec
  | done
deriving DecidableEq, Repr

/-- The range coder (10_state.md R104 to R110) and the two byte streams it moves (20_memory.md R201, R202). -/
structure Coder where
  mode : RcMode
  /-- `LOW` (R105) -/
  low : W32
  /-- `RANGE` (R106) -/
  range : W32
  /-- `CODE` (R107) -/
  code : W32
  /-- `EOF_ERR` (R108) -/
  eofErr : Bool
  /-- `CORRUPT` (R109) -/
  corrupt : Bool
  /-- `RC_BYTES_OUT` (R110) -/
  bytesOut : W64
  /-- `RC_BYTES_IN` (R110) -/
  bytesIn : W64
  /-- `INSTREAM`, its head first (R202) -/
  instream : List Byte
  /-- the end-of-input mark stands behind the bytes of `INSTREAM` (R202) -/
  inMark : Bool
  /-- `OUTSTREAM`: every byte appended since the last RESET, oldest first (R201) -/
  outstream : List Byte
deriving DecidableEq, Repr

/-- The probability model (10_state.md R111 to R116). -/
structure Model where
  /-- `QSM_VALID` -/
  valid : Bool
  /-- `QSM_S` -/
  s : W32
  /-- `QSM_BITS` -/
  bits : BitVec 5
  /-- `QSM_PERIOD` -/
  period : W32
  /-- `QSM_SYMF[0..S-1]` -/
  symf : List W32
  /-- `QSM_CUMF[0..S]` -/
  cumf : List W32
  /-- `QSM_SEARCH[0..128]` -/
  search : List W32
  /-- `QSM_RESCALE` -/
  rescale : W32
  /-- `QSM_INCR` -/
  incr : W32
  /-- `QSM_LEFT` -/
  left : W32
  /-- `QSM_MORE` -/
  more : W32
deriving DecidableEq, Repr

/-- The slots of `FRONT_BUF` that differ from `FRONT_ZERO`, slot number and value, slot numbers rising; an unlisted
slot reads as `FRONT_ZERO`, which is what FRONT_INIT fills every slot with (44_front.md R800). -/
abbrev Ring := List (Nat × W64)

/-- The front (10_state.md R117 to R120). Slot values are `FRONT_W` bits wide, held zero-extended to 64. -/
structure Front where
  /-- `FRONT_VALID` -/
  valid : Bool
  /-- `FRONT_W` -/
  w : Width
  /-- `FRONT_DX` -/
  dx : W32
  /-- `FRONT_DY` -/
  dy : W32
  /-- `FRONT_DZ` -/
  dz : W32
  /-- `FRONT_MASK` -/
  mask : W32
  /-- `FRONT_ZERO` -/
  zero : W64
  /-- `FRONT_IDX` -/
  idx : W32
  /-- `FRONT_BUF` -/
  ring : Ring
deriving DecidableEq, Repr

/-- The CSRs a command can write (10_state.md R122, the RW rows). -/
structure Csrs where
  /-- `CFG_W` -/
  w : Width
  /-- `CFG_NX` -/
  nx : W64
  /-- `CFG_NY` -/
  ny : W64
  /-- `CFG_QSM_S` -/
  qsmS : W64
  /-- `CFG_QSM_BITS` -/
  qsmBits : W64
  /-- `CFG_QSM_PERIOD` -/
  qsmPeriod : W64
  /-- `FRONT_SEL` -/
  frontSel : W32
  /-- `QSM_SEL` -/
  qsmSel : W32
deriving DecidableEq, Repr

/-- The fault registers (10_state.md R124). -/
structure FaultRegs where
  /-- `FAULT` -/
  flag : Bool
  /-- `FAULT_CAUSE` -/
  cause : BitVec 8
  /-- `FAULT_CMD` -/
  cmd : W32
deriving DecidableEq, Repr

/-- The fault causes of 60_exceptions.md R1102. A command that meets one ends in a NEXT state with the fault
registers written (R1101). -/
inductive Cause where
  | illegalOpcode
  | reservedField
  | csrAccess
  | csrValue
  | modeError
  | notConfigured
  | configMismatch
  | operandRange
  | capacity
deriving DecidableEq, Repr

/-- One action of the host on the block (10_state.md R100; log 1). -/
inductive HostEvent where
  /-- write DIN0 and DIN1 and issue a command word (30_encoding.md R300) -/
  | issue (cmd : W32) (din0 din1 : W64)
  /-- put one byte at the end of `INSTREAM` (20_memory.md R202) -/
  | supply (b : Byte)
  /-- put the end-of-input mark behind `INSTREAM` (20_memory.md R202) -/
  | endMark
  /-- assert the reset input (70_reset_and_hazards.md R1201) -/
  | resetInput
deriving DecidableEq, Repr

/-- The machine's state: 10_state.md, 20_memory.md R201 to R203, and the model's own fields `host` and `params`. -/
structure State where
  /-- the OPEN parameters (00_scope.md R6); no step writes them (log 7) -/
  params : Params
  /-- what the host will still do, in order (log 1) -/
  host : List HostEvent
  /-- the command issued and not yet completed (20_memory.md R210) -/
  port : Option W32
  /-- the command in `port` waits in `GetByte` (20_memory.md R203) -/
  holding : Bool
  /-- `DIN0` (10_state.md R102) -/
  din0 : W64
  /-- `DIN1` (10_state.md R102) -/
  din1 : W64
  /-- `DOUT0` (10_state.md R102) -/
  dout0 : W64
  /-- `DOUT1` (10_state.md R102) -/
  dout1 : W64
  coder : Coder
  model : Model
  front : Front
  cfg : Csrs
  faults : FaultRegs
deriving DecidableEq, Repr

/-- Why the model stops. Only a host that breaks its own obligation (20_memory.md R202) stops it; no instruction
does. Both are safe: the spec gives such a host no effect. -/
inductive Fault where
  /-- raised by the host step that supplies a byte behind the end mark (R202: "After the mark the host supplies no
  more bytes until RESET"); safe (log 12) -/
  | byteAfterEndMark
  /-- raised by the host step that gives a second end mark (R202: "at most once"); safe (log 12) -/
  | secondEndMark
deriving DecidableEq, Repr

/-- Why an instruction has no meaning in the model. -/
inductive Refusal where
  /-- raised by an arm of `exec` whose instruction is not modelled; safe. No arm raises it. -/
  | notModelled (mnemonic : String)
deriving DecidableEq, Repr

/-- The coder after reset (R1200). -/
def Coder.reset : Coder :=
  { mode := .idle, low := 0, range := 0xFFFFFFFF, code := 0, eofErr := false, corrupt := false,
    bytesOut := 0, bytesIn := 0, instream := [], inMark := false, outstream := [] }

/-- The model after reset: `QSM_VALID` is 0 (R1200); the other values are DESIGN CHOICES, unsafe, never readable by a
command before QSM_INIT writes them (log 5). -/
def Model.reset : Model :=
  { valid := false, s := 0, bits := 0, period := 0, symf := [], cumf := [], search := List.replicate 129 0,
    rescale := 0, incr := 0, left := 0, more := 0 }

/-- The front after reset: `FRONT_VALID` is 0 (R1200); the other values are DESIGN CHOICES, unsafe, never readable by
a command before FRONT_INIT writes them (log 6). -/
def Front.reset : Front :=
  { valid := false, w := .w32, dx := 0, dy := 0, dz := 0, mask := 0, zero := 0, idx := 0, ring := [] }

/-- The configuration after reset (R1200). -/
def Csrs.reset : Csrs :=
  { w := .w32, nx := 1, ny := 1, qsmS := 65, qsmBits := 16, qsmPeriod := 1024, frontSel := 0, qsmSel := 0 }

/-- The fault registers after reset (R1200). -/
def FaultRegs.reset : FaultRegs := { flag := false, cause := 0, cmd := 0 }

/-- The block right after power-up or reset (R1200, R1201), with a host that does nothing: no command is issued until
a host or `withFetchWord` issues one (log 11). `din0`, `din1`, `dout0`, `dout1` are DESIGN CHOICES, unsafe (logs 3, 4). -/
def State.reset : State :=
  { params := Config.defaults, host := [], port := none, holding := false, din0 := 0, din1 := 0, dout0 := 0, dout1 := 0,
    coder := Coder.reset, model := Model.reset, front := Front.reset, cfg := Csrs.reset, faults := FaultRegs.reset }

end Sys2Proof.Machine
end

