-- ==== Sys2Proof/Machine/Operands.lean ====
section
/-! DEFINITION. Operand forms and the arithmetic helpers the commands share (spec 00_scope.md R8 to R11,
20_memory.md R207, 30_encoding.md R303). -/

namespace Sys2Proof.Machine

/-- `zext_64` (00_scope.md R9). -/
def zext {n : Nat} (x : BitVec n) : W64 := x.setWidth 64

/-- Bits `[W-1:0]` of a 64-bit operand (20_memory.md R207). -/
def lowBits (w : Width) (x : W64) : BitVec w.bits := x.setWidth w.bits

/-- A 64-bit value reduced mod 2^W and zero-extended (20_memory.md R207). -/
def truncW (w : Width) (x : W64) : W64 := zext (lowBits w x)

/-- A W-bit operand has bits `[63:W]` zero (20_memory.md R207). -/
def fitsWidth (w : Width) (x : W64) : Bool := decide (x.toNat < 2 ^ w.bits)

/-- A raw value `v < 2^N` (41_range_coder.md R514). -/
def fitsRaw (n : Nat) (v : W64) : Bool := decide (v.toNat < 2 ^ n)

/-- `{r, l}`: `r` in bits [63:32], `l` in bits [31:0] (30_encoding.md R303). -/
def pack (r l : W32) : W64 := (zext r <<< 32) ||| zext l

/-- Unsigned floor division (00_scope.md R9); the divisor is never 0 in a run (41_range_coder.md R531). -/
def quot (a b : W32) : W32 := if b = 0 then Config.quotientByZero a else a / b

/-- Unsigned remainder (00_scope.md R9). -/
def rem (a b : W32) : W32 := if b = 0 then Config.remainderByZero a else a % b

/-- `bsr(d)`, the index of the highest set bit of `d ≥ 1` (00_scope.md R10). -/
def bsr (d : W64) : Nat := Nat.log2 d.toNat

/-- `⌈log2 n⌉`: the smallest `k` with `n ≤ 2^k` (44_front.md R800). -/
def ceilLog2 (n : Nat) : Nat := if n ≤ 1 then 0 else Nat.log2 (n - 1) + 1

/-- `RESCALE_INIT(S) = (S >> 4) | 2` (00_scope.md R6). -/
def rescaleInit (s : Nat) : Nat := (s >>> 4) ||| 2

/-- The offset `DX·x + DY·y + DZ·z` of a neighbour (44_front.md R801), as a number. -/
def neighbourOffset (f : Front) (x y z : Bool) : Nat :=
  f.dx.toNat * x.toNat + f.dy.toNat * y.toNat + f.dz.toNat * z.toNat

/-- The number of symbols a model of the residual coder has at width `W`: `2·W + 1` (43_residual.md R700). -/
def residualAlphabet (w : Width) : Nat := 2 * w.bits + 1

end Sys2Proof.Machine
end

