-- ==== Sys2Proof/Machine/Flags.lean ====
section
/-! DEFINITION. The flags: their view in STATUS (spec 10_state.md R121, R126), the fault codes (60_exceptions.md
R1102) and the order in which a command's checks decide which fault it reports (R1103). -/

namespace Sys2Proof.Machine

/-- The 2-bit code of `RC_MODE` (10_state.md R104). -/
def modeCode : RcMode → W64
  | .idle => 0
  | .enc => 1
  | .dec => 2
  | .done => 3

/-- A flag as bit `k` of a 64-bit word. -/
def flagBit (b : Bool) (k : Nat) : W64 := if b then 1#64 <<< k else 0

/-- `STATUS` (10_state.md R126). -/
def statusWord (s : State) : W64 :=
  modeCode s.coder.mode ||| flagBit s.coder.eofErr 2 ||| flagBit s.coder.corrupt 3 ||| flagBit s.faults.flag 4
    ||| flagBit s.model.valid 5 ||| flagBit s.front.valid 6

/-- The code recorded in `FAULT_CAUSE` (60_exceptions.md R1102). -/
def causeCode : Cause → BitVec 8
  | .illegalOpcode => 1
  | .reservedField => 2
  | .csrAccess => 3
  | .csrValue => 4
  | .modeError => 5
  | .notConfigured => 6
  | .configMismatch => 7
  | .operandRange => 8
  | .capacity => 9

/-- One check of a command: the condition under which it faults, and the cause. -/
abbrev Check := Bool × Cause

/-- The first check that applies is the fault reported (60_exceptions.md R1103). -/
def firstFault : List Check → Option Cause
  | [] => none
  | (bad, cause) :: rest => if bad then some cause else firstFault rest

/-- `ModeError` unless `RC_MODE` is the mode the command needs (41_range_coder.md R500). -/
def needMode (m : RcMode) (s : State) : Check := (decide (s.coder.mode ≠ m), .modeError)

/-- `NotConfigured` while `QSM_VALID = 0` (42_qsmodel.md R600). -/
def needModel (s : State) : Check := (!s.model.valid, .notConfigured)

/-- `NotConfigured` while `FRONT_VALID = 0` (44_front.md, its opening). -/
def needFront (s : State) : Check := (!s.front.valid, .notConfigured)

/-- `ConfigMismatch` unless `QSM_S = 2·CFG_W + 1` (43_residual.md R700). -/
def needAlphabet (s : State) : Check := (decide (s.model.s.toNat ≠ residualAlphabet s.cfg.w), .configMismatch)

/-- `ConfigMismatch` unless `FRONT_W = CFG_W` (45_pipeline.md R900). -/
def needFrontWidth (s : State) : Check := (decide (s.front.w ≠ s.cfg.w), .configMismatch)

/-- `OperandRange` unless the condition on the operands holds. -/
def needOperand (ok : Bool) : Check := (!ok, .operandRange)

end Sys2Proof.Machine
end

