-- ==== Sys2Proof/Machine/Ops.lean ====
section
/-! DEFINITION. The named operations over the state: taking a fault, running a command under its checks, the byte
streams, the model tables, the front ring, reset, and the host's actions. -/

namespace Sys2Proof.Machine

/-! ### Faults (spec 60_exceptions.md) -/

/-- The fault action (R1101): the first fault since reset writes the three fault registers, a later one writes
nothing. Nothing else changes, and control goes nowhere (R1100, R1108). -/
def raiseFault (word : W32) (cause : Cause) (s : State) : State :=
  if s.faults.flag then s else { s with faults := { flag := true, cause := causeCode cause, cmd := word } }

/-- A word that is no command (46_control.md R1004): its fault, or nothing while the block is halted (R1103 item 1). -/
def rejectWord (word : W32) (cause : Cause) (s : State) : State := raiseFault word cause s

/-- How a command's effect ends: in its next state, or held in `GetByte` (20_memory.md R203). A held command has
changed nothing yet: it is tried again from its start when the host has acted (log 2). -/
def settleEffect (s : State) : Option State → State
  | some t => t
  | none => { s with holding := true }

/-- A command that does not run while the block is halted (R1104): ignored if `FAULT = 1`; else the first check that
applies faults (R1103); else the effect. The word recorded is the command's own (log 14). -/
def command (i : Instr) (s : State) (checks : List Check) (effect : State → Option State) :
    Host.Outcome State Fault Refusal :=
  if s.faults.flag then .next s
  else
    match firstFault checks with
    | some cause => .next (raiseFault (encode i) cause s)
    | none => .next (settleEffect s (effect s))

/-! ### The byte streams (spec 20_memory.md) -/

/-- `PutByte(b)` (R201): never fails, never holds. -/
def putByte (b : Byte) (c : Coder) : Coder :=
  { c with outstream := c.outstream ++ [b], bytesOut := c.bytesOut + 1 }

/-- `GetByte()` (R203): the head of `INSTREAM`; at the end mark 0x00 with `EOF_ERR` set; `none` is the hold. -/
def getByte (c : Coder) : Option (Byte × Coder) :=
  match c.instream with
  | b :: rest => some (b, { c with instream := rest, bytesIn := c.bytesIn + 1 })
  | [] => if c.inMark then some (0, { c with eofErr := true }) else none

/-! ### The model tables (spec 10_state.md R113 to R115) -/

/-- Entry `i` of a model table; outside the table a free value (log 9). -/
def tableAt (t : ModelTable) (xs : List W32) (i : Nat) : W32 :=
  match xs[i]? with
  | some v => v
  | none => Config.absentEntry t i

/-- The table with entry `i` written. -/
def tableSet (xs : List W32) (i : Nat) (v : W32) : List W32 := xs.set i v

/-- The table with entries `lo..hi` written to `v`; `j` is the number of the list's first entry. -/
def tableFill (lo hi : Nat) (v : W32) : Nat → List W32 → List W32
  | _, [] => []
  | j, x :: xs => (if lo ≤ j ∧ j ≤ hi then v else x) :: tableFill lo hi v (j + 1) xs

/-! ### The front ring (spec 10_state.md R120) -/

/-- Slot `k` of the ring: its listed value, else `zero`. -/
def Ring.read (zero : W64) (k : Nat) : Ring → W64
  | [] => zero
  | (a, x) :: rest => if a = k then x else Ring.read zero k rest

/-- The ring with slot `k` holding `v`, in canonical form: sorted, no entry equal to `zero`. -/
def Ring.write (zero : W64) (k : Nat) (v : W64) : Ring → Ring
  | [] => if v = zero then [] else [(k, v)]
  | (a, x) :: rest =>
    if k < a then (if v = zero then (a, x) :: rest else (k, v) :: (a, x) :: rest)
    else if a = k then (if v = zero then rest else (k, v) :: rest)
    else (a, x) :: Ring.write zero k v rest

/-- The canonical form: slot numbers strictly rising, every one above `floor` when given, no entry equal to `zero`. -/
def Ring.wfAbove (zero : W64) : Option Nat → Ring → Bool
  | _, [] => true
  | floor, (a, x) :: rest =>
    (match floor with
      | none => true
      | some b => decide (b < a)) && decide (x ≠ zero) && Ring.wfAbove zero (some a) rest

/-- The ring is in its canonical form. -/
def Ring.wf (zero : W64) (r : Ring) : Bool := Ring.wfAbove zero none r

/-- Every value of the ring satisfies `p`, and every slot number is at most `m`. -/
def Ring.within (m : Nat) (p : W64 → Bool) (r : Ring) : Bool := r.all fun e => decide (e.1 ≤ m) && p e.2

/-! ### Reset (spec 70_reset_and_hazards.md) -/

/-- `Reset()` (R1200): every piece of the block's state at its reset value. DIN0 and DIN1 are no state of the block
and keep what the host wrote (R1200, 10_state.md R102); the parameters and the host's plans are no state of the block
either (10_state.md R101); the port is settled by the caller. -/
def resetBlock (s : State) : State :=
  { State.reset with params := s.params, host := s.host, port := s.port, din0 := s.din0, din1 := s.din1 }

/-! ### The host (spec 10_state.md R100, 20_memory.md R202, R203) -/

/-- The end of a command's step: a command that holds stays in the port, any other leaves it free for the next
(20_memory.md R210). -/
def settlePort (s : State) : State := if s.holding then s else { s with port := none }

/-- The command to run: the one in the port, unless it waits in `GetByte` for the host (R203). -/
def fetch (s : State) : Option W32 := if s.holding then none else s.port

/-- One action of the host. A byte or the end mark lifts a hold: the command is retried (R203). The reset input
abandons the command in the port (70_reset_and_hazards.md R1201). A command is issued only when the previous one has
completed (20_memory.md R210); until then the host waits. With nothing left to do the host does nothing and the block
keeps its state (60_exceptions.md R1114). -/
def hostStep (s : State) : Host.Outcome State Fault Refusal :=
  match s.host with
  | [] => .next s
  | .supply b :: rest =>
    if s.coder.inMark then .fault .byteAfterEndMark
    else .next { s with host := rest, holding := false, coder := { s.coder with instream := s.coder.instream ++ [b] } }
  | .endMark :: rest =>
    if s.coder.inMark then .fault .secondEndMark
    else .next { s with host := rest, holding := false, coder := { s.coder with inMark := true } }
  | .resetInput :: rest => .next { resetBlock s with host := rest, port := none }
  | .issue cmd a b :: rest =>
    match s.port with
    | some _ => .next s
    | none => .next { s with host := rest, port := some cmd, holding := false, din0 := a, din1 := b }

end Sys2Proof.Machine
end

