-- ==== Sys2Proof/Machine/BitMap.lean ====
section
/-! DEFINITION. C1 BitMap (spec 40_bitmap.md): the order-preserving map between IEEE 754 bit patterns and unsigned
integers, and MAP_FWD, MAP_INV. -/

namespace Sys2Proof.Machine

/-- The mask of R401 and R402: `2^(W-1)-1` if the top bit of `r` is 1, else 0. -/
def signMask {w : Nat} (r : BitVec w) : BitVec w := (-(r >>> (w - 1))) >>> 1

/-- `Map_Forward_W` (R401). -/
def mapForward {w : Nat} (f : BitVec w) : BitVec w := ~~~f ^^^ signMask (~~~f)

/-- `Map_Inverse_W` (R402). -/
def mapInverse {w : Nat} (u : BitVec w) : BitVec w := ~~~(u ^^^ signMask u)

/-- `zext_64(Map_Forward_W(x[W-1:0]))`. -/
def mapForwardW (w : Width) (x : W64) : W64 := zext (mapForward (lowBits w x))

/-- `zext_64(Map_Inverse_W(x[W-1:0]))`. -/
def mapInverseW (w : Width) (x : W64) : W64 := zext (mapInverse (lowBits w x))

/-- MAP_FWD (R403). -/
def execMapFwd (s : State) : Host.Outcome State Fault Refusal :=
  command .mapFwd s [needOperand (fitsWidth s.cfg.w s.din0)]
    fun s => some { s with dout0 := mapForwardW s.cfg.w s.din0 }

/-- MAP_INV (R404). -/
def execMapInv (s : State) : Host.Outcome State Fault Refusal :=
  command .mapInv s [needOperand (fitsWidth s.cfg.w s.din0)]
    fun s => some { s with dout0 := mapInverseW s.cfg.w s.din0 }

end Sys2Proof.Machine
end

