-- ==== Sys2Proof/Machine/Front.lean ====
section
/-! DEFINITION. C5 Front and the Lorenzo predictor (spec 44_front.md): FRONT_INIT, FRONT_AT, FRONT_PUSH,
FRONT_ADVANCE, PREDICT. -/

namespace Sys2Proof.Machine

/-- The geometry of a front for extents `nx`, `ny` (R800): `dy`, `dz`, `n = 1 + dy + dz` and the ring's size. -/
def strideY (nx : Nat) : Nat := nx + 1

/-- `dz = (nx + 1) * (ny + 1)` (R800). -/
def strideZ (nx ny : Nat) : Nat := (nx + 1) * (ny + 1)

/-- The smallest power of two at or above `1 + dy + dz` (R800). -/
def ringSize (nx ny : Nat) : Nat := 2 ^ ceilLog2 (1 + strideY nx + strideZ nx ny)

/-- The front FRONT_INIT builds (R800): every slot holds the zero mapping. -/
def freshFront (k : Csrs) : Front :=
  let nx := k.nx.toNat
  let ny := k.ny.toNat
  { valid := true, w := k.w, dx := 1, dy := BitVec.ofNat 32 (strideY nx), dz := BitVec.ofNat 32 (strideZ nx ny),
    mask := BitVec.ofNat 32 (ringSize nx ny - 1), zero := mapForwardW k.w 0, idx := 0, ring := [] }

/-- `slot(x, y, z)` for an offset (R801). -/
def frontSlot (f : Front) (off : Nat) : Nat := ((f.idx - BitVec.ofNat 32 off) &&& f.mask).toNat

/-- `FRONT_BUF[k]`. -/
def frontSlotValue (f : Front) (k : Nat) : W64 := Ring.read f.zero k f.ring

/-- `f(x, y, z) = FRONT_BUF[slot(x, y, z)]` (R803, R806). -/
def neighbour (f : Front) (x y z : Bool) : W64 := frontSlotValue f (frontSlot f (neighbourOffset f x y z))

/-- `Front_Push(v)` (R802). -/
def frontPushValue (v : W64) (f : Front) : Front :=
  { f with ring := Ring.write f.zero (f.idx &&& f.mask).toNat v f.ring, idx := f.idx + 1 }

/-- `n` pushes of the zero mapping (R805). -/
def frontPushZeros : Nat → Front → Front
  | 0, f => f
  | n + 1, f => frontPushZeros n (frontPushValue f.zero f)

/-- The order-3 Lorenzo prediction (R806): the seven causal neighbours, mod 2^WF. -/
def lorenzo (f : Front) : W64 :=
  truncW f.w
    (neighbour f true false false - neighbour f false true true
      + neighbour f false true false - neighbour f true false true
      + neighbour f false false true - neighbour f true true false
      + neighbour f true true true)

/-- FRONT_INIT (R800). -/
def execFrontInit (s : State) : Host.Outcome State Fault Refusal :=
  command .frontInit s
    [(decide (s.params.frontMaxSlots < ringSize s.cfg.nx.toNat s.cfg.ny.toNat), .capacity)]
    fun s => some { s with front := freshFront s.cfg }

/-- FRONT_AT (R803). -/
def execFrontAt (x y z : Bool) (s : State) : Host.Outcome State Fault Refusal :=
  command (.frontAt x y z) s [needFront s] fun s => some { s with dout0 := neighbour s.front x y z }

/-- FRONT_PUSH (R804). -/
def execFrontPush (s : State) : Host.Outcome State Fault Refusal :=
  command .frontPush s [needFront s, needOperand (fitsWidth s.front.w s.din0)]
    fun s => some { s with front := frontPushValue s.din0 s.front }

/-- FRONT_ADVANCE (R805). -/
def execFrontAdvance (x y z : Bool) (s : State) : Host.Outcome State Fault Refusal :=
  command (.frontAdvance x y z) s [needFront s]
    fun s => some { s with front := frontPushZeros (neighbourOffset s.front x y z) s.front }

/-- PREDICT (R806). -/
def execPredict (s : State) : Host.Outcome State Fault Refusal :=
  command .predict s [needFront s] fun s => some { s with dout0 := lorenzo s.front }

end Sys2Proof.Machine
end

