-- ==== Sys2Proof/Machine/QSModel.lean ====
section
/-! DEFINITION. C3 QSModel (spec 42_qsmodel.md): the quasi-static adaptive frequency model, and QSM_INIT, QSM_RESET,
QSM_ENC, QSM_DEC. -/

namespace Sys2Proof.Machine

/-- `2^BITS`, the model's total frequency (00_scope.md R6). -/
def modelTotal (m : Model) : W32 := 1#32 <<< m.bits.toNat

/-- `SH = BITS - 7`, the search-table shift (42_qsmodel.md, its opening). -/
def searchShift (m : Model) : Nat := m.bits.toNat - 7

/-- Halving with the odd bit set, `(sf >> 1) | 1` (R606). -/
def halveOdd (sf : W32) : W32 := (sf >>> 1) ||| 1

/-- What R606's descending loop has found when it has passed the entries of a list, last entry first: `cf` and
`missing`, and the new `QSM_CUMF` and `QSM_SYMF` entries of those symbols. -/
structure Sweep where
  cf : W32
  missing : W32
  cumf : List W32
  symf : List W32
deriving DecidableEq, Repr

/-- R606's loop over the symbols of a list, the last one first: `QSM_CUMF[i]` from the frequencies BEFORE halving
(90_conflicts.md C2), the frequencies halved, the deficit counted down. -/
def rebuildSweep (total : W32) : List W32 → Sweep
  | [] => { cf := total, missing := total, cumf := [], symf := [] }
  | sf :: rest =>
    let r := rebuildSweep total rest
    { cf := r.cf - sf, missing := r.missing - halveOdd sf, cumf := (r.cf - sf) :: r.cumf, symf := halveOdd sf :: r.symf }

/-- `QSM_Rebuild()` (R606, R607): the loop takes symbols `S-1` down to 1, then symbol 0 is halved; `QSM_CUMF[0]` and
`QSM_CUMF[S]` are not written. -/
def qsmRebuild (m : Model) : Model :=
  match m.symf with
  | [] => m
  | first :: others =>
    let r := rebuildSweep (modelTotal m) others
    let missing := r.missing - halveOdd first
    let more := rem missing m.rescale
    { m with
      cumf := m.cumf.take 1 ++ r.cumf ++ m.cumf.drop (r.cumf.length + 1)
      symf := halveOdd first :: r.symf
      incr := quot missing m.rescale
      more := more
      left := m.rescale - more }

/-- R608's sweep from symbol `i - 1` down to 0: the buckets of each symbol are set to it. -/
def searchSweep (cumf : List W32) (sh : Nat) : Nat → List W32 → List W32
  | 0, table => table
  | i + 1, table =>
    let last := ((tableAt .cumf cumf (i + 1) - 1) >>> sh).toNat
    let start := (tableAt .cumf cumf i >>> sh).toNat
    searchSweep cumf sh i (tableFill start last (BitVec.ofNat 32 i) 0 table)

/-- `QSM_RebuildSearch()` (R608). -/
def qsmRebuildSearch (m : Model) : Model :=
  { m with search := searchSweep m.cumf (searchShift m) m.s.toNat m.search }

/-- `QSM_Grow()` (R605). -/
def qsmGrow (m : Model) : Model :=
  if m.rescale.toNat < m.period.toNat then
    { m with rescale := BitVec.ofNat 32 (min (2 * m.rescale.toNat) m.period.toNat) }
  else m

/-- `QSM_Update()` (R604): arms the pending `MORE` symbols at `INCR + 1`, or rescales. -/
def qsmUpdate (m : Model) : Model :=
  if m.more ≠ 0 then { m with left := m.more, more := 0, incr := m.incr + 1 }
  else qsmRebuildSearch (qsmRebuild (qsmGrow m))

/-- `QSM_Reset()` (R602): uniform frequencies, the first `2^BITS mod S` symbols one more; then an update. -/
def qsmReset (m : Model) : Model :=
  let f := quot (modelTotal m) m.s
  let extra := rem (modelTotal m) m.s
  qsmUpdate { m with
    rescale := BitVec.ofNat 32 (rescaleInit m.s.toNat)
    more := 0
    symf := List.replicate extra.toNat (f + 1) ++ List.replicate (m.s.toNat - extra.toNat) f }

/-- `QSM_Tick(s)` (R609). -/
def qsmTick (sym : Nat) (m : Model) : Model :=
  let m := { m with symf := tableSet m.symf sym (tableAt .symf m.symf sym + m.incr), left := m.left - 1 }
  if m.left = 0 then qsmUpdate m else m

/-- `QSM_CUMF[i]`. -/
def cumfAt (m : Model) (i : Nat) : W32 := tableAt .cumf m.cumf i

/-- The individual frequency `QSM_CUMF[s+1] - QSM_CUMF[s]` (R610). -/
def freqAt (m : Model) (sym : Nat) : W32 := cumfAt m (sym + 1) - cumfAt m sym

/-- What a lookup gives: the symbol, its cumulative and individual frequency before the tick, the model after it. -/
structure Lookup where
  sym : Nat
  cum : W32
  freq : W32
  model : Model
deriving DecidableEq, Repr

/-- `QSM_EncodeLookup(s)` (R610): `l` and `r` are read before the tick. -/
def qsmEncodeLookup (sym : Nat) (m : Model) : Lookup :=
  { sym := sym, cum := cumfAt m sym, freq := freqAt m sym, model := qsmTick sym m }

/-- The binary search of R611 in `[s, h)`; 33 halvings reach one symbol from any 32-bit bounds (log 10). -/
def symbolSearch (m : Model) (l : W32) : Nat → Nat → Nat → Nat
  | 0, s, _ => s
  | fuel + 1, s, h =>
    if s + 1 < h then
      let mid := (s + h) / 2
      if l < cumfAt m mid then symbolSearch m l fuel s mid else symbolSearch m l fuel mid h
    else s

/-- The symbol whose cumulative interval holds the query `l` (R611): the search table, then the binary search. -/
def querySymbol (m : Model) (l : W32) : Nat :=
  let j := (l >>> searchShift m).toNat
  symbolSearch m l 33 (tableAt .search m.search j).toNat ((tableAt .search m.search (j + 1)).toNat + 1)

/-- `QSM_DecodeLookup(l)` (R611). -/
def qsmDecodeLookup (l : W32) (m : Model) : Lookup := qsmEncodeLookup (querySymbol m l) m

/-- QSM_INIT's latching (R601): the parameters from the configuration CSRs, `QSM_CUMF[0]`, `QSM_CUMF[S]` and the
sentinel `QSM_SEARCH[128]`; `QSM_CUMF[1..S-1]` are written by the rescale that `QSM_Reset` runs. -/
def qsmLatch (k : Csrs) (m : Model) : Model :=
  let m := { m with s := k.qsmS.setWidth 32, bits := k.qsmBits.setWidth 5, period := k.qsmPeriod.setWidth 32 }
  { m with
    cumf := 0 :: List.replicate (m.s.toNat - 1) 0 ++ [modelTotal m]
    search := tableSet m.search 128 (m.s - 1) }

/-- The alphabet fits the total frequency, `S ≤ 2^BITS` (R601, 92_eei_decisions.md D32). -/
def alphabetFits (k : Csrs) : Bool := decide (k.qsmS.toNat ≤ 2 ^ k.qsmBits.toNat)

/-- The period is no shorter than the first epoch, `RESCALE_INIT(S) ≤ PERIOD` (R601, 92_eei_decisions.md D14). -/
def periodFits (k : Csrs) : Bool := decide (rescaleInit k.qsmS.toNat ≤ k.qsmPeriod.toNat)

/-- QSM_INIT (R601). -/
def execQsmInit (s : State) : Host.Outcome State Fault Refusal :=
  command .qsmInit s [(!alphabetFits s.cfg, .configMismatch), (!periodFits s.cfg, .configMismatch)]
    fun s => some { s with model := { qsmReset (qsmLatch s.cfg s.model) with valid := true } }

/-- QSM_RESET (R603). -/
def execQsmReset (s : State) : Host.Outcome State Fault Refusal :=
  command .qsmReset s [needModel s] fun s => some { s with model := qsmReset s.model }

/-- QSM_ENC (R613). -/
def execQsmEnc (s : State) : Host.Outcome State Fault Refusal :=
  command .qsmEnc s [needModel s, needOperand (decide (s.din0.toNat < s.model.s.toNat))]
    fun s =>
      let r := qsmEncodeLookup s.din0.toNat s.model
      some { s with model := r.model, dout0 := s.din0, dout1 := pack r.freq r.cum }

/-- QSM_DEC (R614). -/
def execQsmDec (s : State) : Host.Outcome State Fault Refusal :=
  command .qsmDec s [needModel s, needOperand (decide (s.din0.toNat < 2 ^ s.model.bits.toNat))]
    fun s =>
      let r := qsmDecodeLookup (s.din0.setWidth 32) s.model
      some { s with model := r.model, dout0 := BitVec.ofNat 64 r.sym, dout1 := pack r.freq r.cum }

end Sys2Proof.Machine
end

