-- ==== Sys2Proof/Machine/Control.lean ====
section
/-! DEFINITION. The control commands and the CSR map (spec 46_control.md, 10_state.md R122 to R126): NOP, RESET,
CSR_READ, CSR_WRITE. -/

namespace Sys2Proof.Machine

/-- `ID`: the ASCII bytes of `FPC-RC1` (10_state.md R122, 92_eei_decisions.md D1). -/
def idWord : W64 := 0x004650432D524331

/-- A unit's RO CSR: `NotConfigured` while the unit's VALID bit is 0 (10_state.md R123). -/
def unitCsr (valid : Bool) (v : W64) : Except Cause W64 := if valid then .ok v else .error .notConfigured

/-- An indirect CSR: `NotConfigured` is checked before `OperandRange` (10_state.md R123). -/
def indirectCsr (valid inTable : Bool) (v : W64) : Except Cause W64 :=
  if valid then (if inTable then .ok v else .error .operandRange) else .error .notConfigured

/-- The value of CSR `c`, or the fault of reading it (10_state.md R122, R123). -/
def csrValue (c : Nat) (s : State) : Except Cause W64 :=
  match c with
  | 0x00 => .ok (BitVec.ofNat 64 s.cfg.w.bits)
  | 0x01 => .ok s.cfg.nx
  | 0x02 => .ok s.cfg.ny
  | 0x03 => .ok s.cfg.qsmS
  | 0x04 => .ok s.cfg.qsmBits
  | 0x05 => .ok s.cfg.qsmPeriod
  | 0x08 => .ok (statusWord s)
  | 0x09 => .ok (zext s.faults.cause)
  | 0x0A => .ok (zext s.faults.cmd)
  | 0x0B => .ok idWord
  | 0x10 => .ok (zext s.coder.low)
  | 0x11 => .ok (zext s.coder.range)
  | 0x12 => .ok (zext s.coder.code)
  | 0x13 => .ok s.coder.bytesOut
  | 0x14 => .ok s.coder.bytesIn
  | 0x18 => unitCsr s.model.valid (zext s.model.rescale)
  | 0x19 => unitCsr s.model.valid (zext s.model.incr)
  | 0x1A => unitCsr s.model.valid (zext s.model.left)
  | 0x1B => unitCsr s.model.valid (zext s.model.more)
  | 0x1C => unitCsr s.model.valid (zext s.model.s)
  | 0x1D => unitCsr s.model.valid (zext s.model.bits)
  | 0x1E => unitCsr s.model.valid (zext s.model.period)
  | 0x20 => unitCsr s.front.valid (zext s.front.idx)
  | 0x21 => unitCsr s.front.valid (zext s.front.mask)
  | 0x22 => unitCsr s.front.valid (zext s.front.dy)
  | 0x23 => unitCsr s.front.valid (zext s.front.dz)
  | 0x24 => unitCsr s.front.valid (BitVec.ofNat 64 s.front.w.bits)
  | 0x25 => unitCsr s.front.valid (truncW s.front.w s.front.zero)
  | 0x28 => .ok (zext s.cfg.frontSel)
  | 0x29 =>
    indirectCsr s.front.valid (decide (s.cfg.frontSel.toNat ≤ s.front.mask.toNat))
      (frontSlotValue s.front s.cfg.frontSel.toNat)
  | 0x30 => .ok (zext s.cfg.qsmSel)
  | 0x31 =>
    indirectCsr s.model.valid (decide (s.cfg.qsmSel.toNat < s.model.s.toNat))
      (zext (tableAt .symf s.model.symf s.cfg.qsmSel.toNat))
  | 0x32 =>
    indirectCsr s.model.valid (decide (s.cfg.qsmSel.toNat ≤ s.model.s.toNat)) (zext (cumfAt s.model s.cfg.qsmSel.toNat))
  | _ => .error .csrAccess

/-- A write of a RW CSR whose legal values are `lo .. hi` (10_state.md R122). -/
def boundedCsr (lo hi : Nat) (v : W64) (k : Csrs) : Except Cause Csrs :=
  if lo ≤ v.toNat ∧ v.toNat ≤ hi then .ok k else .error .csrValue

/-- A write of `CFG_W`: 32 and 64 are legal (10_state.md R122). -/
def writeWidth (v : W64) (k : Csrs) : Except Cause Csrs :=
  if v = 32 then .ok { k with w := .w32 } else if v = 64 then .ok { k with w := .w64 } else .error .csrValue

/-- The RW CSRs after `CSR[c] <- v`, or the fault of the write: `CsrAccess` for an index that is unmapped or RO, then
`CsrValue` for a value outside the legal ones (46_control.md R1003, 10_state.md R122). -/
def csrWritten (c : Nat) (v : W64) (k : Csrs) : Except Cause Csrs :=
  match c with
  | 0x00 => writeWidth v k
  | 0x01 => boundedCsr 1 (2 ^ 32 - 2) v { k with nx := v }
  | 0x02 => boundedCsr 1 (2 ^ 32 - 2) v { k with ny := v }
  | 0x03 => boundedCsr 1 65536 v { k with qsmS := v }
  | 0x04 => boundedCsr 7 16 v { k with qsmBits := v }
  | 0x05 => boundedCsr 1 65536 v { k with qsmPeriod := v }
  | 0x28 => boundedCsr 0 (2 ^ 32 - 1) v { k with frontSel := v.setWidth 32 }
  | 0x30 => boundedCsr 0 (2 ^ 32 - 1) v { k with qsmSel := v.setWidth 32 }
  | _ => .error .csrAccess

/-- NOP (46_control.md R1000): runs also while `FAULT = 1`. -/
def execNop (s : State) : Host.Outcome State Fault Refusal := .next s

/-- RESET (46_control.md R1001): runs also while `FAULT = 1`. -/
def execReset (s : State) : Host.Outcome State Fault Refusal := .next (resetBlock s)

/-- CSR_READ (46_control.md R1002): runs also while `FAULT = 1`, and then a fault of its own changes nothing. -/
def execCsrRead (c : Nat) (s : State) : Host.Outcome State Fault Refusal :=
  match csrValue c s with
  | .ok v => .next { s with dout0 := v }
  | .error cause => .next (raiseFault (encode (.csrRead c)) cause s)

/-- CSR_WRITE (46_control.md R1003). -/
def execCsrWrite (c : Nat) (s : State) : Host.Outcome State Fault Refusal :=
  if s.faults.flag then .next s
  else
    match csrWritten c s.din0 s.cfg with
    | .ok k => .next { s with cfg := k }
    | .error cause => .next (raiseFault (encode (.csrWrite c)) cause s)

end Sys2Proof.Machine
end

