-- ==== Sys2Proof/Machine/RangeCoder.lean ====
section
/-! DEFINITION. C2 RangeCoder (spec 41_range_coder.md): the shared procedures, which are `none` where a byte is
needed and the host has supplied neither a byte nor the end mark, and the RC_* commands. -/

namespace Sys2Proof.Machine

/-- One pass of `RC_Shift` (R501): emit the top byte of `LOW` in mode ENC, else take a byte into `CODE[7:0]`; then
`LOW << 8`. -/
def rcShiftByte (c : Coder) : Option Coder :=
  match c.mode with
  | .enc => some { putByte (c.low.extractLsb' 24 8) c with low := c.low <<< 8 }
  | _ =>
    match getByte c with
    | none => none
    | some (b, c) => some { c with code := (c.code <<< 8) ||| b.setWidth 32, low := c.low <<< 8 }

/-- `RC_Shift(n)` (R501). -/
def rcShift : Nat → Coder → Option Coder
  | 0, c => some c
  | n + 1, c =>
    match rcShiftByte c with
    | none => none
    | some c => rcShift n c

/-- The test of R502 step 1, `((LOW ^ (LOW + RANGE)) >> 24) = 0` (90_conflicts.md C1: the formula). -/
def topBytesAgree (c : Coder) : Bool := decide ((c.low ^^^ (c.low + c.range)) >>> 24 = 0)

/-- R502 step 1; R503: "A model may implement the loop with fuel 3" (log 10). -/
def rcNormalizeLoop : Nat → Coder → Option Coder
  | 0, c => some c
  | fuel + 1, c =>
    if topBytesAgree c then
      match rcShift 1 c with
      | none => none
      | some c => rcNormalizeLoop fuel { c with range := c.range <<< 8 }
    else some c

/-- R502 step 2, the "fudge". -/
def rcFudge (c : Coder) : Option Coder :=
  if c.range >>> 16 = 0 then
    match rcShift 2 c with
    | none => none
    | some c => some { c with range := -c.low }
  else some c

/-- `RC_Normalize()` (R502). -/
def rcNormalize (c : Coder) : Option Coder :=
  match rcNormalizeLoop 3 c with
  | none => none
  | some c => rcFudge c

/-- `RC_EncShift(v, n)` (R505). -/
def rcEncShift (v : W32) (n : Nat) (c : Coder) : Option Coder :=
  rcNormalize { c with range := c.range >>> n, low := c.low + (c.range >>> n) * v }

/-- The decoder's quotient clamped to the legal values below `limit` (R532), and whether it was outside them. -/
def clampQuotient (q : W32) (limit : Nat) : W32 × Bool :=
  if limit ≤ q.toNat then (BitVec.ofNat 32 (limit - 1), true) else (q, false)

/-- `RC_DecShift(n)` (R506, R532, R533). -/
def rcDecShift (n : Nat) (c : Coder) : Option (W32 × Coder) :=
  if c.eofErr then some (0, c)
  else
    let r := c.range >>> n
    let q := clampQuotient (quot (c.code - c.low) r) (2 ^ n)
    match rcNormalize { c with range := r, corrupt := c.corrupt || q.2, low := c.low + r * q.1 } with
    | none => none
    | some c => some (q.1, c)

/-- `RC_EncRaw(v, n)` (R507), at most `fuel` chunks of 16 bits before the last one. -/
def rcEncRawLoop : Nat → W64 → Nat → Coder → Option Coder
  | 0, v, n, c => rcEncShift (v.setWidth 32) n c
  | fuel + 1, v, n, c =>
    if 16 < n then
      match rcEncShift ((v &&& 0xFFFF).setWidth 32) 16 c with
      | none => none
      | some c => rcEncRawLoop fuel (v >>> 16) (n - 16) c
    else rcEncShift (v.setWidth 32) n c

/-- `RC_EncRaw(v, n)` (R507). -/
def rcEncRaw (v : W64) (n : Nat) (c : Coder) : Option Coder := rcEncRawLoop (n / 16) v n c

/-- `RC_DecRaw(n)` (R507), at most `fuel` chunks of 16 bits before the last one: the first chunk is the least
significant. -/
def rcDecRawLoop : Nat → Nat → Coder → Option (W64 × Coder)
  | 0, n, c =>
    match rcDecShift n c with
    | none => none
    | some (q, c) => some (zext q, c)
  | fuel + 1, n, c =>
    if 16 < n then
      match rcDecShift 16 c with
      | none => none
      | some (q, c) =>
        match rcDecRawLoop fuel (n - 16) c with
        | none => none
        | some (v, c) => some (zext q ||| (v <<< 16), c)
    else
      match rcDecShift n c with
      | none => none
      | some (q, c) => some (zext q, c)

/-- `RC_DecRaw(n)` (R507). -/
def rcDecRaw (n : Nat) (c : Coder) : Option (W64 × Coder) := rcDecRawLoop (n / 16) n c

/-- `RC_EncSym(s)` (R508). -/
def rcEncSym (sym : Nat) (c : Coder) (m : Model) : Option (Coder × Model) :=
  let k := qsmEncodeLookup sym m
  let r := c.range >>> m.bits.toNat
  match rcNormalize { c with range := r * k.freq, low := c.low + r * k.cum } with
  | none => none
  | some c => some (c, k.model)

/-- `RC_DecSym()` (R508, R532, R533). -/
def rcDecSym (c : Coder) (m : Model) : Option (Nat × Coder × Model) :=
  if c.eofErr then some (0, c, m)
  else
    let r := c.range >>> m.bits.toNat
    let q := clampQuotient (quot (c.code - c.low) r) (2 ^ m.bits.toNat)
    let k := qsmDecodeLookup q.1 m
    match rcNormalize { c with range := r * k.freq, corrupt := c.corrupt || q.2, low := c.low + r * k.cum } with
    | none => none
    | some c => some (k.sym, c, k.model)

/-- The state with the coder replaced. -/
def withCoder (s : State) : Option Coder → Option State
  | none => none
  | some c => some { s with coder := c }

/-- The state with the coder and the model replaced. -/
def withCoderModel (s : State) : Option (Coder × Model) → Option State
  | none => none
  | some (c, m) => some { s with coder := c, model := m }

/-- The coder as both init commands leave it before a byte moves (R510, R511). -/
def freshCoder (mode : RcMode) (c : Coder) : Coder :=
  { c with low := 0, range := 0xFFFFFFFF, code := 0, eofErr := false, corrupt := false, mode := mode }

/-- RC_ENC_INIT (R510). -/
def execRcEncInit (s : State) : Host.Outcome State Fault Refusal :=
  command .rcEncInit s [] fun s => some { s with coder := { freshCoder .enc s.coder with bytesOut := 0 } }

/-- RC_DEC_INIT (R511). -/
def execRcDecInit (s : State) : Host.Outcome State Fault Refusal :=
  command .rcDecInit s [] fun s => withCoder s (rcShift 4 { freshCoder .dec s.coder with bytesIn := 0 })

/-- RC_ENC_BIT (R512). -/
def execRcEncBit (b : Bool) (s : State) : Host.Outcome State Fault Refusal :=
  command (.rcEncBit b) s [needMode .enc s] fun s => withCoder s (rcEncShift (BitVec.ofNat 32 b.toNat) 1 s.coder)

/-- RC_DEC_BIT (R513). -/
def execRcDecBit (s : State) : Host.Outcome State Fault Refusal :=
  command .rcDecBit s [needMode .dec s] fun s =>
    match rcDecShift 1 s.coder with
    | none => none
    | some (q, c) => some { s with coder := c, dout0 := zext q }

/-- RC_ENC_RAW (R514). -/
def execRcEncRaw (n : Nat) (s : State) : Host.Outcome State Fault Refusal :=
  command (.rcEncRaw n) s [needMode .enc s, needOperand (decide (n ≤ 64)), needOperand (fitsRaw n s.din0)]
    fun s => withCoder s (rcEncRaw s.din0 n s.coder)

/-- RC_DEC_RAW (R515). -/
def execRcDecRaw (n : Nat) (s : State) : Host.Outcome State Fault Refusal :=
  command (.rcDecRaw n) s [needMode .dec s, needOperand (decide (n ≤ 64))] fun s =>
    match rcDecRaw n s.coder with
    | none => none
    | some (v, c) => some { s with coder := c, dout0 := v }

/-- RC_ENC_SYM (R516). -/
def execRcEncSym (s : State) : Host.Outcome State Fault Refusal :=
  command .rcEncSym s [needMode .enc s, needModel s, needOperand (decide (s.din0.toNat < s.model.s.toNat))]
    fun s => withCoderModel s (rcEncSym s.din0.toNat s.coder s.model)

/-- RC_DEC_SYM (R517). -/
def execRcDecSym (s : State) : Host.Outcome State Fault Refusal :=
  command .rcDecSym s [needMode .dec s, needModel s] fun s =>
    match rcDecSym s.coder s.model with
    | none => none
    | some (sym, c, m) => some { s with coder := c, model := m, dout0 := BitVec.ofNat 64 sym }

/-- RC_FINISH (R518). -/
def execRcFinish (s : State) : Host.Outcome State Fault Refusal :=
  command .rcFinish s [needMode .enc s] fun s =>
    match rcShift 4 s.coder with
    | none => none
    | some c => some { s with coder := { c with mode := .done } }

end Sys2Proof.Machine
end

