-- ==== Sys2Proof/Machine/Residual.lean ====
section
/-! DEFINITION. C4 ResidualCoder (spec 43_residual.md): a residual as a class symbol and raw bits, and RES_ENC,
RES_DEC. `Bias = W`. -/

namespace Sys2Proof.Machine

/-- The raw step for a class `k` runs when `k > 0` or `EMIT_ZERO_WIDTH_RAW` (R701, R706). -/
def rawStepRuns (p : Params) (k : Nat) : Bool := decide (0 < k) || p.emitZeroWidthRaw

/-- The class symbol, then `d - 2^k` raw in `k` bits, `k = bsr(d)` (R701). -/
def resEncodeMagnitude (p : Params) (sym : Nat) (d : W64) (c : Coder) (m : Model) : Option (Coder × Model) :=
  let k := bsr d
  match rcEncSym sym c m with
  | none => none
  | some (c, m) =>
    if rawStepRuns p k then
      match rcEncRaw (d - (1#64 <<< k)) k c with
      | none => none
      | some c => some (c, m)
    else some (c, m)

/-- `RES_Encode(a, p)` (R701); the comparison is of the unsigned W-bit values, here zero-extended. -/
def resEncode (params : Params) (w : Width) (a p : W64) (c : Coder) (m : Model) : Option (Coder × Model) :=
  if p = a then rcEncSym w.bits c m
  else if p < a then resEncodeMagnitude params (w.bits + 1 + bsr (a - p)) (a - p) c m
  else resEncodeMagnitude params (w.bits - 1 - bsr (p - a)) (p - a) c m

/-- `|s - Bias| - 1`, the class of a symbol other than `Bias` (R702). -/
def residualClass (w : Width) (sym : Nat) : Nat := if w.bits < sym then sym - w.bits - 1 else w.bits - sym - 1

/-- `RES_Decode(p)` (R702): the value, the coder and the model. -/
def resDecode (params : Params) (w : Width) (p : W64) (c : Coder) (m : Model) : Option (W64 × Coder × Model) :=
  match rcDecSym c m with
  | none => none
  | some (sym, c, m) =>
    if sym = w.bits then some (p, c, m)
    else
      let k := residualClass w sym
      match (if rawStepRuns params k then rcDecRaw k c else some (0, c)) with
      | none => none
      | some (v, c) =>
        let d := (1#64 <<< k) + v
        some (truncW w (if w.bits < sym then p + d else p - d), c, m)

/-- RES_ENC (R703). -/
def execResEnc (s : State) : Host.Outcome State Fault Refusal :=
  command .resEnc s
    [needMode .enc s, needModel s, needAlphabet s, needOperand (fitsWidth s.cfg.w s.din0),
      needOperand (fitsWidth s.cfg.w s.din1)]
    fun s => withCoderModel s (resEncode s.params s.cfg.w s.din0 s.din1 s.coder s.model)

/-- RES_DEC (R704). -/
def execResDec (s : State) : Host.Outcome State Fault Refusal :=
  command .resDec s [needMode .dec s, needModel s, needAlphabet s, needOperand (fitsWidth s.cfg.w s.din1)] fun s =>
    match resDecode s.params s.cfg.w s.din1 s.coder s.model with
    | none => none
    | some (a, c, m) => some { s with coder := c, model := m, dout0 := a }

end Sys2Proof.Machine
end

