-- ==== Sys2Proof/Machine/Pipeline.lean ====
section
/-! DEFINITION. C6, the per-sample step (spec 45_pipeline.md): STEP_ENC, STEP_DEC. -/

namespace Sys2Proof.Machine

/-- The checks both step commands share, after the mode (R900 items 2 and 3). -/
def stepChecks (s : State) : List Check := [needModel s, needFront s, needAlphabet s, needFrontWidth s]

/-- STEP_ENC (R901): predict, map, code the residual, push. -/
def execStepEnc (s : State) : Host.Outcome State Fault Refusal :=
  command .stepEnc s (needMode .enc s :: stepChecks s ++ [needOperand (fitsWidth s.cfg.w s.din0)]) fun s =>
    let p := lorenzo s.front
    let a := mapForwardW s.cfg.w s.din0
    match resEncode s.params s.cfg.w a p s.coder s.model with
    | none => none
    | some (c, m) => some { s with coder := c, model := m, front := frontPushValue a s.front, dout0 := a, dout1 := p }

/-- STEP_DEC (R902): predict, decode the residual, push, map back. -/
def execStepDec (s : State) : Host.Outcome State Fault Refusal :=
  command .stepDec s (needMode .dec s :: stepChecks s) fun s =>
    let p := lorenzo s.front
    match resDecode s.params s.cfg.w p s.coder s.model with
    | none => none
    | some (a, c, m) =>
      some { s with
        coder := c, model := m, front := frontPushValue a s.front, dout0 := mapInverseW s.cfg.w a, dout1 := p }

end Sys2Proof.Machine
end

