-- ==== Sys2Proof/Machine/Dispatch.lean ====
section
/-! DEFINITION. One arm per command, each one direct call of the command's meaning. -/

namespace Sys2Proof.Machine

def exec (i : Instr) (s : State) : Host.Outcome State Fault Refusal :=
  match i with
  | .nop => Sys2Proof.Machine.execNop s
  | .reset => Sys2Proof.Machine.execReset s
  | .csrRead c => Sys2Proof.Machine.execCsrRead c s
  | .csrWrite c => Sys2Proof.Machine.execCsrWrite c s
  | .rcEncInit => Sys2Proof.Machine.execRcEncInit s
  | .rcEncBit b => Sys2Proof.Machine.execRcEncBit b s
  | .rcEncRaw n => Sys2Proof.Machine.execRcEncRaw n s
  | .rcEncSym => Sys2Proof.Machine.execRcEncSym s
  | .rcFinish => Sys2Proof.Machine.execRcFinish s
  | .rcDecInit => Sys2Proof.Machine.execRcDecInit s
  | .rcDecBit => Sys2Proof.Machine.execRcDecBit s
  | .rcDecRaw n => Sys2Proof.Machine.execRcDecRaw n s
  | .rcDecSym => Sys2Proof.Machine.execRcDecSym s
  | .qsmInit => Sys2Proof.Machine.execQsmInit s
  | .qsmReset => Sys2Proof.Machine.execQsmReset s
  | .qsmEnc => Sys2Proof.Machine.execQsmEnc s
  | .qsmDec => Sys2Proof.Machine.execQsmDec s
  | .mapFwd => Sys2Proof.Machine.execMapFwd s
  | .mapInv => Sys2Proof.Machine.execMapInv s
  | .frontInit => Sys2Proof.Machine.execFrontInit s
  | .frontAt x y z => Sys2Proof.Machine.execFrontAt x y z s
  | .frontPush => Sys2Proof.Machine.execFrontPush s
  | .frontAdvance x y z => Sys2Proof.Machine.execFrontAdvance x y z s
  | .predict => Sys2Proof.Machine.execPredict s
  | .resEnc => Sys2Proof.Machine.execResEnc s
  | .resDec => Sys2Proof.Machine.execResDec s
  | .stepEnc => Sys2Proof.Machine.execStepEnc s
  | .stepDec => Sys2Proof.Machine.execStepDec s

end Sys2Proof.Machine
end

