-- ==== Sys2Proof/Machine/Step.lean ====
section
/-! DEFINITION. One step of the block: the command in the port runs to its end, or the host acts. -/

namespace Sys2Proof.Machine

/-- One step (spec 10_state.md R103, 20_memory.md R210). A command in the port that does not wait in `GetByte` is
decoded and run to its end; a word that is no command faults (46_control.md R1004). With no command to run, or one
that waits, the host acts (log 1). -/
def step (s : State) : Host.Outcome State Fault Refusal :=
  match fetch s with
  | none => hostStep s
  | some w =>
    match decode w with
    | .illegalOpcode => .next (settlePort (rejectWord w .illegalOpcode s))
    | .reservedField => .next (settlePort (rejectWord w .reservedField s))
    | .instr i =>
      match exec i s with
      | .next t => .next (settlePort t)
      | .fault r => .fault r
      | .refused r => .refused r

/-- The state in which the command word `w` (its first `nbits` bits) has just been issued: the very next step runs it.
DIN0 and DIN1 keep their values. -/
def State.withFetchWord (s : State) (nbits w : Nat) : State :=
  { s with port := some (BitVec.ofNat 32 (w % 2 ^ nbits)), holding := false }

end Sys2Proof.Machine
end

