-- ==== Sys2Proof/Safety.lean ====
section
/-! DEFINITION. The terms the statements use: the invariants the spec states of each unit, the relations that say in
plain arithmetic what a procedure of the spec does, and the runs of commands a host makes. -/

namespace Sys2Proof.Safety

open Sys2Proof.Machine

/-! ### Invariants -/

/-- The coder's invariants (41_range_coder.md R504): (a) `RANGE ≥ 2^16`, (b) `LOW + RANGE ≤ 2^32` as integers. -/
structure CoderInv (c : Coder) : Prop where
  range_ge : 2 ^ 16 ≤ c.range.toNat
  no_wrap : c.low.toNat + c.range.toNat ≤ 2 ^ 32

/-- The values of the RW CSRs are legal ones (10_state.md R122). -/
structure CsrsLegal (k : Csrs) : Prop where
  nx : 1 ≤ k.nx.toNat ∧ k.nx.toNat ≤ 2 ^ 32 - 2
  ny : 1 ≤ k.ny.toNat ∧ k.ny.toNat ≤ 2 ^ 32 - 2
  qsmS : 1 ≤ k.qsmS.toNat ∧ k.qsmS.toNat ≤ 65536
  qsmBits : 7 ≤ k.qsmBits.toNat ∧ k.qsmBits.toNat ≤ 16
  qsmPeriod : 1 ≤ k.qsmPeriod.toNat ∧ k.qsmPeriod.toNat ≤ 65536

/-- The sum of a table's entries, as a number. -/
def tableSum (xs : List W32) : Nat := (xs.map BitVec.toNat).sum

/-- `QSM_SEARCH[j]`, as a number. -/
def searchAt (m : Model) (j : Nat) : Nat := (tableAt .search m.search j).toNat

/-- The search table's invariant (42_qsmodel.md R608) and its sentinel (10_state.md R115). -/
structure SearchInv (m : Model) : Prop where
  length : m.search.length = 129
  bucket : ∀ j, j < 128 → searchAt m j < m.s.toNat ∧
    (cumfAt m (searchAt m j)).toNat ≤ j * 2 ^ (m.bits.toNat - 7) ∧
    j * 2 ^ (m.bits.toNat - 7) < (cumfAt m (searchAt m j + 1)).toNat
  sentinel : searchAt m 128 = m.s.toNat - 1

/-- The invariants of a constructed model (42_qsmodel.md R615), with what makes them inductive: the parameters are
ones QSM_INIT accepts (R601), and the frequencies together with the increments still to come in the epoch make up
`2^BITS` (R607). -/
structure ModelInv (m : Model) : Prop where
  bits : 7 ≤ m.bits.toNat ∧ m.bits.toNat ≤ 16
  alphabet : 1 ≤ m.s.toNat ∧ m.s.toNat ≤ 2 ^ m.bits.toNat
  epoch : rescaleInit m.s.toNat ≤ m.rescale.toNat ∧ m.rescale.toNat ≤ m.period.toNat
  symf_length : m.symf.length = m.s.toNat
  cumf_length : m.cumf.length = m.s.toNat + 1
  symf_pos : ∀ f ∈ m.symf, 1 ≤ f.toNat
  balance : tableSum m.symf + m.incr.toNat * m.left.toNat + (m.incr.toNat + 1) * m.more.toNat = 2 ^ m.bits.toNat
  left_pos : 1 ≤ m.left.toNat
  more_lt : m.more.toNat < m.rescale.toNat
  cumf_zero : cumfAt m 0 = 0
  cumf_top : (cumfAt m m.s.toNat).toNat = 2 ^ m.bits.toNat
  cumf_rising : ∀ i, i < m.s.toNat → (cumfAt m i).toNat < (cumfAt m (i + 1)).toNat
  search : SearchInv m

/-- What holds of the model in every state: the search table has its 129 entries, and a constructed model has its
invariants. -/
structure ModelOk (m : Model) : Prop where
  search_length : m.search.length = 129
  constructed : m.valid = true → ModelInv m

/-- What holds of a constructed front (44_front.md R800 to R802): the geometry is the one of some extents that fit,
the ring is in canonical form within the mask, and every slot value has the front's width. -/
structure FrontInv (f : Front) : Prop where
  stride_x : f.dx = 1
  size : ∃ k, k ≤ 32 ∧ f.mask.toNat + 1 = 2 ^ k
  reach : 1 + f.dy.toNat + f.dz.toNat ≤ f.mask.toNat + 1
  zero : f.zero.toNat = 2 ^ (f.w.bits - 1)
  canonical : Ring.wf f.zero f.ring = true
  slots : Ring.within f.mask.toNat (fitsWidth f.w) f.ring = true

/-- What holds of the front in every state. -/
def FrontOk (f : Front) : Prop := f.valid = true → FrontInv f

/-- What holds of the fault registers in every state (10_state.md R124, 60_exceptions.md R1102). -/
def FaultRegsOk (r : FaultRegs) : Prop :=
  if r.flag then 1 ≤ r.cause.toNat ∧ r.cause.toNat ≤ 9 else r.cause = 0 ∧ r.cmd = 0

/-! ### What normalization does, in plain arithmetic (41_range_coder.md R501, R502) -/

/-- A 32-bit value after `i` shifts by one byte. -/
def shifted (x i : Nat) : Nat := x * 256 ^ i % 2 ^ 32

/-- The top byte of a 32-bit value. -/
def topByte (x : Nat) : Nat := x / 2 ^ 24

/-- R502's test: the top bytes of `low` and `(low + range) mod 2^32` agree. -/
def TopAgree (low range : Nat) : Prop := topByte low = topByte ((low + range) % 2 ^ 32)

/-- `RC_Normalize` from `low`, `range` moves `n` bytes and ends at `low'`, `range'` (R502): `k` passes of step 1, each
while the top bytes agree, and the fudge's two bytes if the range is then below `2^16`. -/
def NormalizesTo (low range n low' range' : Nat) : Prop :=
  ∃ k, k ≤ 3 ∧ (∀ i, i < k → TopAgree (shifted low i) (shifted range i)) ∧
    ¬ TopAgree (shifted low k) (shifted range k) ∧
    ((2 ^ 16 ≤ shifted range k ∧ n = k ∧ low' = shifted low n ∧ range' = shifted range k) ∨
      (shifted range k < 2 ^ 16 ∧ n = k + 2 ∧ low' = shifted low n ∧ range' = (2 ^ 32 - low') % 2 ^ 32))

/-- The encoder `c` after a narrowing to `low`, `range` and the normalization: the bytes shifted out of `low` are
appended to `OUTSTREAM`, oldest first, and counted (20_memory.md R201); nothing else changes. -/
def EncodesTo (c : Coder) (low range : Nat) (c' : Coder) : Prop :=
  ∃ n low' range', NormalizesTo low range n low' range' ∧
    c' = { c with
      low := BitVec.ofNat 32 low', range := BitVec.ofNat 32 range',
      outstream := c.outstream ++ (List.range n).map fun i => BitVec.ofNat 8 (topByte (shifted low i)),
      bytesOut := c.bytesOut + BitVec.ofNat 64 n }

/-- Normalization from `low`, `range` moves `n` bytes (R502). -/
def BytesMoved (low range n : Nat) : Prop := ∃ low' range', NormalizesTo low range n low' range'

/-- Bytes as one number, the first byte the most significant (20_memory.md R205). -/
def bytesValue (bs : List Byte) : Nat := bs.foldl (fun v b => v * 256 + b.toNat) 0

/-- The next `n` bytes `GetByte` gives: those of `INSTREAM`, then zeros (20_memory.md R203). -/
def nextBytes (c : Coder) (n : Nat) : List Byte := (c.instream ++ List.replicate n 0).take n

/-- Taking `n` bytes: the queue loses them, the counter counts those that were there, `EOF_ERR` is set if there were
too few (20_memory.md R203). -/
def takeBytes (c : Coder) (n : Nat) : Coder :=
  { c with
    instream := c.instream.drop n,
    bytesIn := c.bytesIn + BitVec.ofNat 64 (min n c.instream.length),
    eofErr := c.eofErr || decide (c.instream.length < n) }

/-- The decoder `c` after a narrowing to `low`, `range` and the normalization: the bytes taken enter `CODE` from
below (R501); nothing else changes. -/
def DecodesTo (c : Coder) (low range : Nat) (c' : Coder) : Prop :=
  ∃ n low' range', NormalizesTo low range n low' range' ∧
    c' = { takeBytes c n with
      low := BitVec.ofNat 32 low', range := BitVec.ofNat 32 range',
      code := BitVec.ofNat 32 (c.code.toNat * 256 ^ n + bytesValue (nextBytes c n)) }

/-- The input does not make a command wait: `n` bytes are there, or the end mark is (20_memory.md R203). -/
def InputReady (c : Coder) (n : Nat) : Prop := n ≤ c.instream.length ∨ c.inMark = true

/-- The decoder's quotient `((CODE - LOW) mod 2^32) / r`, as a number (R506, R508). -/
def quotientNat (c : Coder) (r : Nat) : Nat := (c.code.toNat + 2 ^ 32 - c.low.toNat) % 2 ^ 32 / r

/-! ### What a model update does, in plain arithmetic (42_qsmodel.md) -/

/-- A rescale from `m` (R605 to R608): the epoch grows; `QSM_CUMF` becomes the sums of the frequencies before halving,
its ends kept; every frequency is halved with the odd bit set; the deficit to `2^BITS` is spread over the epoch. -/
structure Rescaled (m m' : Model) : Prop where
  valid : m'.valid = m.valid
  parameters : m'.s = m.s ∧ m'.bits = m.bits ∧ m'.period = m.period
  grown : m'.rescale.toNat =
    if m.rescale.toNat < m.period.toNat then min (2 * m.rescale.toNat) m.period.toNat else m.rescale.toNat
  cumf_length : m'.cumf.length = m.cumf.length
  cumf_ends : cumfAt m' 0 = cumfAt m 0 ∧ cumfAt m' m.s.toNat = cumfAt m m.s.toNat
  cumf_sums : ∀ i, 1 ≤ i → i < m.s.toNat → (cumfAt m' i).toNat = tableSum (m.symf.take i)
  halved : m'.symf.map BitVec.toNat = m.symf.map fun f => f.toNat / 2 ||| 1
  deficit : tableSum m'.symf + m'.incr.toNat * m'.rescale.toNat + m'.more.toNat = 2 ^ m.bits.toNat
  more_lt : m'.more.toNat < m'.rescale.toNat
  left : m'.left.toNat + m'.more.toNat = m'.rescale.toNat
  search : SearchInv m'

/-- The model with symbol `sym` counted (R609): its frequency grown by `INCR`, the countdown one less. -/
def counted (m : Model) (sym : Nat) : Model :=
  { m with symf := m.symf.set sym (tableAt .symf m.symf sym + m.incr), left := m.left - 1 }

/-- One coded symbol's update (R609, R604): while the countdown runs only the count; at its end either the pending
`MORE` symbols are armed at `INCR + 1`, or the model rescales. -/
def Ticked (sym : Nat) (m m' : Model) : Prop :=
  (1 < m.left.toNat → m' = counted m sym) ∧
  (m.left.toNat = 1 → m.more ≠ 0 → m' = { counted m sym with left := m.more, more := 0, incr := m.incr + 1 }) ∧
  (m.left.toNat = 1 → m.more = 0 → Rescaled (counted m sym) m')

/-- A model as the Reset of 42_qsmodel.md R602 leaves it, for `S = s`, `BITS = b`, `PERIOD = p`: the uniform
distribution with one more for the first `2^b mod s` symbols, in `QSM_CUMF` before and in `QSM_SYMF` after halving
with the odd bit set; the first epoch `min(2·RESCALE_INIT(s), p)` long, its deficit spread over it (R605 to R607). -/
structure UniformModel (s b p : Nat) (m : Model) : Prop where
  alphabet : m.s.toNat = s
  bits : m.bits.toNat = b
  period : m.period.toNat = p
  epoch : m.rescale.toNat = min (2 * (s >>> 4 ||| 2)) p
  cumulative : ∀ i, i ≤ s → (cumfAt m i).toNat = i * (2 ^ b / s) + min i (2 ^ b % s)
  frequency : ∀ i, i < s → (tableAt .symf m.symf i).toNat = (2 ^ b / s + if i < 2 ^ b % s then 1 else 0) / 2 ||| 1
  deficit : tableSum m.symf + m.incr.toNat * m.rescale.toNat + m.more.toNat = 2 ^ b
  more_lt : m.more.toNat < m.rescale.toNat
  left : m.left.toNat + m.more.toNat = m.rescale.toNat

/-- `DOUT1` of a model lookup (30_encoding.md R303): frequency above, cumulative frequency below. -/
def LookupWord (m : Model) (sym : Nat) (d : W64) : Prop :=
  d.toNat = ((cumfAt m (sym + 1)).toNat - (cumfAt m sym).toNat) * 2 ^ 32 + (cumfAt m sym).toNat

/-! ### The front in plain arithmetic (44_front.md R801, R806) -/

/-- The slot at offset `off`: `(FRONT_IDX - off) mod (M + 1)` on unbounded integers (R801). -/
def slotAt (f : Front) (off : Nat) : Nat := (((f.idx.toNat : Int) - off) % (f.mask.toNat + 1)).toNat

/-- The value at a neighbour offset, as an integer. -/
def neighbourInt (f : Front) (x y z : Bool) : Int :=
  ((frontSlotValue f (slotAt f (x.toNat + f.dy.toNat * y.toNat + f.dz.toNat * z.toNat))).toNat : Int)

/-- The sum of R806 over the integers. -/
def lorenzoSum (f : Front) : Int :=
  neighbourInt f true false false - neighbourInt f false true true + neighbourInt f false true false
    - neighbourInt f true false true + neighbourInt f false false true - neighbourInt f true true false
    + neighbourInt f true true true

/-- The number of slots an extent needs, `1 + dy + dz` (R800). -/
def slotsNeeded (k : Csrs) : Nat := 1 + (k.nx.toNat + 1) + (k.nx.toNat + 1) * (k.ny.toNat + 1)

/-! ### Faults -/

/-- The state after command `i` has met a fault in state `s` that was not halted (60_exceptions.md R1101). -/
def faulted (i : Instr) (code : BitVec 8) (s : State) : State :=
  { s with faults := { flag := true, cause := code, cmd := encode i } }

/-- The state after command `i` has met a fault in any state: only the first fault since reset is recorded
(60_exceptions.md R1101). -/
def faultedOnce (i : Instr) (code : BitVec 8) (s : State) : State := if s.faults.flag then s else faulted i code s

/-- The commands that need `RC_MODE = ENC` (41_range_coder.md R500). -/
def needsEnc : Instr → Bool
  | .rcEncBit _ => true
  | .rcEncRaw _ => true
  | .rcEncSym => true
  | .rcFinish => true
  | .resEnc => true
  | .stepEnc => true
  | _ => false

/-- The commands that need `RC_MODE = DEC` (41_range_coder.md R500). -/
def needsDec : Instr → Bool
  | .rcDecBit => true
  | .rcDecRaw _ => true
  | .rcDecSym => true
  | .resDec => true
  | .stepDec => true
  | _ => false

/-- The commands that need `QSM_VALID = 1` (42_qsmodel.md R600). -/
def needsModel : Instr → Bool
  | .qsmReset => true
  | .qsmEnc => true
  | .qsmDec => true
  | .rcEncSym => true
  | .rcDecSym => true
  | .resEnc => true
  | .resDec => true
  | .stepEnc => true
  | .stepDec => true
  | _ => false

/-- The commands that need `FRONT_VALID = 1` (44_front.md, its opening; 45_pipeline.md R900). -/
def needsFront : Instr → Bool
  | .frontAt _ _ _ => true
  | .frontPush => true
  | .frontAdvance _ _ _ => true
  | .predict => true
  | .stepEnc => true
  | .stepDec => true
  | _ => false

/-- The mode a command needs, where it needs one, is the mode of the state. -/
def ModeFits (i : Instr) (s : State) : Prop :=
  (needsEnc i = true → s.coder.mode = .enc) ∧ (needsDec i = true → s.coder.mode = .dec)

/-- The commands that read the input stream. -/
def takesInput (i : Instr) : Bool := needsDec i || i == .rcDecInit

/-- The commands that run while the block is halted (60_exceptions.md R1104). -/
def runsHalted : Instr → Bool
  | .nop => true
  | .reset => true
  | .csrRead _ => true
  | _ => false

/-! ### Runs of commands a host makes -/

/-- One coded item of 41_range_coder.md R520: what is encoded, and so what the mirror decode returns. -/
inductive CoderOp where
  | bit (b : Bool)
  | raw (n : Nat) (v : W64)
  | sym (s : W64)
deriving DecidableEq, Repr

/-- The encode command of an item. -/
def CoderOp.encoder : CoderOp → Instr
  | .bit b => .rcEncBit b
  | .raw n _ => .rcEncRaw n
  | .sym _ => .rcEncSym

/-- The mirror decode command of an item (70_reset_and_hazards.md R1210). -/
def CoderOp.decoder : CoderOp → Instr
  | .bit _ => .rcDecBit
  | .raw n _ => .rcDecRaw n
  | .sym _ => .rcDecSym

/-- The value of an item. -/
def CoderOp.value : CoderOp → W64
  | .bit b => BitVec.ofNat 64 b.toNat
  | .raw _ v => v
  | .sym s => s

/-- The item is one its encode command accepts, for an alphabet of `alphabet` symbols (R514, R516). -/
def CoderOp.Legal (alphabet : Nat) : CoderOp → Prop
  | .bit _ => True
  | .raw n v => n ≤ 64 ∧ v.toNat < 2 ^ n
  | .sym s => s.toNat < alphabet

/-- The host encodes the items in order, the value of each in DIN0. -/
def encodeAll : List CoderOp → State → Option State
  | [], s => some s
  | op :: ops, s =>
    match exec op.encoder { s with din0 := op.value } with
    | .next t => encodeAll ops t
    | .fault _ => none
    | .refused _ => none

/-- The host decodes the mirror of the items in order and reads DOUT0 after each. -/
def decodeAll : List CoderOp → State → Option (List W64 × State)
  | [], s => some ([], s)
  | op :: ops, s =>
    match exec op.decoder s with
    | .next t =>
      match decodeAll ops t with
      | some (vs, u) => some (t.dout0 :: vs, u)
      | none => none
    | .fault _ => none
    | .refused _ => none

/-- One command of a run and its mirror (70_reset_and_hazards.md R1210): a coded item, a residual against a given
prediction, a sample, or a command both sides issue with the same operands. -/
inductive BlockOp where
  | both (i : Instr) (a b : W64)
  | item (op : CoderOp)
  | residual (a p : W64)
  | sample (f : W64)
deriving DecidableEq, Repr

/-- Both sides may issue the command as it stands (R1210): it is no coder command, and it resets nothing. -/
def BlockOp.Mirrored : BlockOp → Prop
  | .both i _ _ => needsEnc i = false ∧ needsDec i = false ∧ i ≠ .rcEncInit ∧ i ≠ .rcDecInit ∧ i ≠ .reset
  | .item _ => True
  | .residual _ _ => True
  | .sample _ => True

/-- The encoder side's command and operands. -/
def BlockOp.encodeStep (op : BlockOp) (s : State) : Host.Outcome State Fault Refusal :=
  match op with
  | .both i a b => exec i { s with din0 := a, din1 := b }
  | .item op => exec op.encoder { s with din0 := op.value }
  | .residual a p => exec .resEnc { s with din0 := a, din1 := p }
  | .sample f => exec .stepEnc { s with din0 := f }

/-- The decoder side's command and operands. -/
def BlockOp.decodeStep (op : BlockOp) (s : State) : Host.Outcome State Fault Refusal :=
  match op with
  | .both i a b => exec i { s with din0 := a, din1 := b }
  | .item op => exec op.decoder s
  | .residual _ p => exec .resDec { s with din1 := p }
  | .sample _ => exec .stepDec s

/-- What the decoder side returns in DOUT0 for a coded item. -/
def BlockOp.returned : BlockOp → List W64
  | .both _ _ _ => []
  | .item op => [op.value]
  | .residual a _ => [a]
  | .sample f => [f]

/-- The encoder side of a run. -/
def encodeBlock : List BlockOp → State → Option State
  | [], s => some s
  | op :: ops, s =>
    match op.encodeStep s with
    | .next t => encodeBlock ops t
    | .fault _ => none
    | .refused _ => none

/-- The decoder side of a run, with the DOUT0 of every coded item. -/
def decodeBlock : List BlockOp → State → Option (List W64 × State)
  | [], s => some ([], s)
  | op :: ops, s =>
    match op.decodeStep s with
    | .next t =>
      match decodeBlock ops t with
      | some (vs, u) => some ((if op.returned = [] then [] else [t.dout0]) ++ vs, u)
      | none => none
    | .fault _ => none
    | .refused _ => none

/-- FRONT_ADVANCE in a schedule: it reads no operand. -/
def advance (x y z : Bool) : BlockOp := .both (.frontAdvance x y z) 0 0

/-- The schedule of one row of samples (45_pipeline.md R903): the advance of the `y` iteration, then the samples. -/
def rowSchedule (row : List W64) : List BlockOp := advance true false false :: row.map .sample

/-- The schedule of one slice of constant `z`, given as its rows (R903). -/
def sliceSchedule (rows : List (List W64)) : List BlockOp := advance false true false :: rows.flatMap rowSchedule

/-- The schedule of one field given as its slices, each a list of rows, up to but not including the step of sample
`(x, y, z)` (R903). -/
def scheduleUpTo (slices : List (List (List W64))) (x y z : Nat) : List BlockOp :=
  [.both .frontInit 0 0, advance false false true] ++ (slices.take z).flatMap sliceSchedule
    ++ [advance false true false] ++ ((slices.getD z []).take y).flatMap rowSchedule
    ++ [advance true false false] ++ (((slices.getD z []).getD y []).take x).map .sample

/-- Sample `(x, y, z)` of a field given as its slices. -/
def sampleAt (slices : List (List (List W64))) (x y z : Nat) : W64 := ((slices.getD z []).getD y []).getD x 0

/-- The values command `i` from `s` has pushed into the front when it has ended at `t`, the first one first (44_front.md
R804, R805; 45_pipeline.md R901, R902): none if it holds, faults or is ignored. -/
def pushed (i : Instr) (s t : State) : List W64 :=
  if t.faults.flag || t.holding then []
  else
    match i with
    | .frontPush => [s.din0]
    | .frontAdvance x y z => List.replicate (neighbourOffset s.front x y z) s.front.zero
    | .stepEnc => [t.dout0]
    | .stepDec => [mapForwardW s.front.w t.dout0]
    | _ => []

/-- The host issues commands with their operands; the values they push, the first one first, and the state at the end.
Each is run as the step runs it, from a block that does not wait. -/
def runPushes : List (Instr × W64 × W64) → State → Option (List W64 × State)
  | [], s => some ([], s)
  | (i, a, b) :: rest, s =>
    match exec i { s with holding := false, din0 := a, din1 := b } with
    | .next t =>
      match runPushes rest t with
      | some (vs, u) => some (pushed i { s with din0 := a } t ++ vs, u)
      | none => none
    | .fault _ => none
    | .refused _ => none

end Sys2Proof.Safety
end

