-- ==== Sys2Proof/Certificates/Slice0/Obligations.lean ====
section
/-! DEFINITION. The statements for the provers. Each says what a rule of spec/ says the block does; the terms are those
of Safety.lean. Where a statement has hypotheses, Tests/Slice0.lean shows a state and operands that meet them. -/

open Sys2Proof Sys2Proof.Machine Sys2Proof.Safety

/-! ### Encoding -/

/-- Decoding the encoding of a well-formed command gives the command back (30_encoding.md R301, R304, R308). -/
def Obligations.DecodeOfEncodeGivesTheCommand : Prop :=
  ∀ i : Instr, i.wellFormed = true → decode (encode i) = .instr i

/-- A word that decodes to a command is that command's own word, and the command is well formed: no word has two
readings and no bit of it is dropped (30_encoding.md R301, R308). -/
def Obligations.DecodedWordIsTheCommandsWord : Prop :=
  ∀ (w : W32) (i : Instr), decode w = .instr i → i.wellFormed = true ∧ encode i = w

/-- "A word selects a row when (CMD & mask) = match. No word selects two rows." (30_encoding.md R304): the decoder gives
a command of the row the word selects, and only of that row. -/
def Obligations.DecoderFollowsTheOpcodeMap : Prop :=
  (∀ (w : W32) (i : Instr), decode w = .instr i → w &&& (tableRow i).2 = (tableRow i).1) ∧
  (∀ (w : W32) (i : Instr), w &&& (tableRow i).2 = (tableRow i).1 → ∃ j, decode w = .instr j ∧ tableRow j = tableRow i) ∧
  (∀ (w : W32) (i j : Instr), w &&& (tableRow i).2 = (tableRow i).1 → w &&& (tableRow j).2 = (tableRow j).1 →
    tableRow i = tableRow j)

/-- The decoder is total (30_encoding.md R307, R308): a word selects a row, or its opcode is in no row (illegal), or its
opcode is in a row and a "must be 0" bit is set (reserved). -/
def Obligations.WordsOutsideTheMapAreRejected : Prop :=
  ∀ w : W32,
    (decode w = .illegalOpcode ↔ ∀ i, (tableRow i).1 >>> 24 ≠ w >>> 24) ∧
    (decode w = .reservedField ↔
      (∃ i, (tableRow i).1 >>> 24 = w >>> 24) ∧ ∀ i, w &&& (tableRow i).2 ≠ (tableRow i).1)

/-- Words written out from the formats of 30_encoding.md R301 and the opcodes of R304 decode to their commands. -/
def Obligations.WrittenWordsDecode : Prop :=
  decode 0x0200000B = .instr (.csrRead 11) ∧ decode 0x11000001 = .instr (.rcEncBit true) ∧
  decode 0x1200000C = .instr (.rcEncRaw 12) ∧ decode 0x20000000 = .instr .qsmInit ∧
  decode 0x30000000 = .instr .mapFwd ∧ decode 0x41000006 = .instr (.frontAt true true false) ∧
  decode 0x50000000 = .instr .resEnc ∧ decode 0x61000000 = .instr .stepDec ∧
  decode 0x15000000 = .illegalOpcode ∧ decode 0x41000008 = .reservedField

/-! ### The step and the host -/

/-- A step with a command word in the port that does not wait runs exec of the decoded command; a command that then
holds stays in the port, any other leaves the port free (20_memory.md R203, R210; the port is the model's, log 1). -/
def Obligations.StepRunsTheDecodedCommand : Prop :=
  ∀ (s : State) (w : W32) (i : Instr), s.port = some w → s.holding = false → decode w = .instr i →
    step s = match exec i s with
      | .next t => .next (if t.holding then t else { t with port := none })
      | .fault r => .fault r
      | .refused r => .refused r

/-- Illegal and reserved words (46_control.md R1004, 60_exceptions.md R1101, R1103): the step records the fault and the
word and changes nothing else; while the block is halted it changes nothing. The word leaves the port (log 1). -/
def Obligations.BadWordsFaultFromTheWordAlone : Prop :=
  ∀ (s : State) (w : W32), s.port = some w → s.holding = false →
    (s.faults.flag = true → (∀ i, decode w ≠ .instr i) → step s = .next { s with port := none }) ∧
    (s.faults.flag = false → decode w = .illegalOpcode →
      step s = .next { s with port := none, faults := { flag := true, cause := 1, cmd := w } }) ∧
    (s.faults.flag = false → decode w = .reservedField →
      step s = .next { s with port := none, faults := { flag := true, cause := 2, cmd := w } })

/-- What the host can do when no command runs (30_encoding.md R300; 20_memory.md R202, R203; 70_reset_and_hazards.md
R1201, R1213): issue a command into a free port, lift a hold by a byte or the end mark, reset at any time; with
nothing to do the state stays. That these are steps of one list is the model's choice (log 1), and so are the values of
the state after reset that the spec leaves unspecified (logs 3 to 6). -/
def Obligations.HostActionsReachTheBlock : Prop :=
  ∀ (s : State) (rest : List HostEvent), s.port = none ∨ s.holding = true →
    (s.host = [] → step s = .next s) ∧
    (∀ w a b, s.host = .issue w a b :: rest → s.port = none →
      step s = .next { s with host := rest, port := some w, holding := false, din0 := a, din1 := b }) ∧
    (∀ w a b, s.host = .issue w a b :: rest → s.port ≠ none → step s = .next s) ∧
    (∀ b, s.host = .supply b :: rest → s.coder.inMark = false →
      step s = .next { s with host := rest, holding := false,
                              coder := { s.coder with instream := s.coder.instream ++ [b] } }) ∧
    (s.host = .endMark :: rest → s.coder.inMark = false →
      step s = .next { s with host := rest, holding := false, coder := { s.coder with inMark := true } }) ∧
    (s.host = .resetInput :: rest →
      step s = .next { State.reset with params := s.params, host := rest, din0 := s.din0, din1 := s.din1 })

/-- A command that holds in GetByte is one that takes input, waits because no end mark and fewer bytes than it needs
(at most 25) are there, and has changed nothing yet (20_memory.md R203, R210; that a held command has changed nothing
and is retried from its start is the model's choice, log 2). -/
def Obligations.HoldingCommandHasChangedNothing : Prop :=
  ∀ (i : Instr) (s t : State), s.holding = false → ModelOk s.model → CoderInv s.coder →
    exec i s = .next t → t.holding = true →
    takesInput i = true ∧ s.coder.inMark = false ∧ s.coder.instream.length < 25 ∧ t = { s with holding := true }

/-! ### Faults -/

/-- While FAULT = 1 every command but NOP, RESET and CSR_READ is ignored without effect (60_exceptions.md R1104). -/
def Obligations.HaltedBlockIgnoresCommands : Prop :=
  ∀ (i : Instr) (s : State), s.faults.flag = true → runsHalted i = false → exec i s = .next s

/-- Every command in every state answers a next state, a hold among them (that a command held in GetByte has a next state
is the model's choice, log 2), and faults are precise (60_exceptions.md R1101, R1102, R1108; 41_range_coder.md R534): a
command that faults sets FAULT, a cause of 3 to 9 and its own word, and changes nothing else. -/
def Obligations.EveryCommandAnswersAndFaultsArePrecise : Prop :=
  ∀ (i : Instr) (s : State), ∃ t, exec i s = .next t ∧
    (s.faults.flag = false → t.faults.flag = true →
      3 ≤ t.faults.cause.toNat ∧ t.faults.cause.toNat ≤ 9 ∧ t = faulted i t.faults.cause s)

/-- The fault registers keep the first fault until a reset (10_state.md R124, 60_exceptions.md R1109): a step from a
halted state leaves all three as they are, unless it ran RESET or the host's reset input, which clear them. -/
def Obligations.OnlyResetLeavesTheHaltedState : Prop :=
  ∀ s t : State, s.faults.flag = true → step s = .next t →
    t.faults = s.faults ∨
      (t.faults = { flag := false, cause := 0, cmd := 0 } ∧
        (s.port = some 0x01000000 ∨ ∃ rest, s.host = .resetInput :: rest))

/-- A command that needs a mode other than the state's faults with ModeError, code 5; the two init commands are legal in
every mode (41_range_coder.md R500). -/
def Obligations.WrongModeFaults : Prop :=
  ∀ (i : Instr) (s : State), s.faults.flag = false →
    (needsEnc i = true → s.coder.mode ≠ .enc → exec i s = .next (faulted i 5 s)) ∧
    (needsDec i = true → s.coder.mode ≠ .dec → exec i s = .next (faulted i 5 s)) ∧
    (i = .rcEncInit ∨ i = .rcDecInit → ∃ t, exec i s = .next t ∧ t.faults = s.faults)

/-- A command on a unit that is not configured faults with NotConfigured, code 6, once its mode is right
(42_qsmodel.md R600; 44_front.md, its opening; 45_pipeline.md R900; the order is 60_exceptions.md R1103). -/
def Obligations.UnconfiguredUnitFaults : Prop :=
  ∀ (i : Instr) (s : State), s.faults.flag = false → ModeFits i s →
    (needsModel i = true ∧ s.model.valid = false) ∨ (needsFront i = true ∧ s.front.valid = false) →
    exec i s = .next (faulted i 6 s)

/-- Inconsistent configuration faults with ConfigMismatch, code 7: an alphabet larger than the total or a period
shorter than the first epoch at QSM_INIT (42_qsmodel.md R601), a model of another size at RES_* and STEP_*
(43_residual.md R700), a front of another width at STEP_* (45_pipeline.md R900). -/
def Obligations.InconsistentConfigurationFaults : Prop :=
  ∀ (i : Instr) (s : State), s.faults.flag = false → ModeFits i s →
    (2 ^ s.cfg.qsmBits.toNat < s.cfg.qsmS.toNat ∨ s.cfg.qsmPeriod.toNat < (s.cfg.qsmS.toNat >>> 4 ||| 2) →
      exec .qsmInit s = .next (faulted .qsmInit 7 s)) ∧
    (i ∈ [.resEnc, .resDec] → s.model.valid = true → s.model.s.toNat ≠ 2 * s.cfg.w.bits + 1 →
      exec i s = .next (faulted i 7 s)) ∧
    (i ∈ [.stepEnc, .stepDec] → s.model.valid = true → s.front.valid = true →
      s.model.s.toNat ≠ 2 * s.cfg.w.bits + 1 ∨ s.front.w ≠ s.cfg.w → exec i s = .next (faulted i 7 s))

/-- Operands outside a command's domain fault with OperandRange, code 8, once every earlier check has passed
(60_exceptions.md R1102, R1103; the domains are 30_encoding.md R303's). -/
def Obligations.OperandsOutOfRangeFault : Prop :=
  ∀ s : State, s.faults.flag = false →
    (∀ n, s.coder.mode = .enc → 64 < n ∨ 2 ^ n ≤ s.din0.toNat →
      exec (.rcEncRaw n) s = .next (faulted (.rcEncRaw n) 8 s)) ∧
    (∀ n, s.coder.mode = .dec → 64 < n → exec (.rcDecRaw n) s = .next (faulted (.rcDecRaw n) 8 s)) ∧
    (s.coder.mode = .enc → s.model.valid = true → s.model.s.toNat ≤ s.din0.toNat →
      exec .rcEncSym s = .next (faulted .rcEncSym 8 s)) ∧
    (s.model.valid = true → s.model.s.toNat ≤ s.din0.toNat → exec .qsmEnc s = .next (faulted .qsmEnc 8 s)) ∧
    (s.model.valid = true → 2 ^ s.model.bits.toNat ≤ s.din0.toNat → exec .qsmDec s = .next (faulted .qsmDec 8 s)) ∧
    (2 ^ s.cfg.w.bits ≤ s.din0.toNat →
      exec .mapFwd s = .next (faulted .mapFwd 8 s) ∧ exec .mapInv s = .next (faulted .mapInv 8 s)) ∧
    (s.front.valid = true → 2 ^ s.front.w.bits ≤ s.din0.toNat → exec .frontPush s = .next (faulted .frontPush 8 s)) ∧
    (s.coder.mode = .enc → s.model.valid = true → s.model.s.toNat = 2 * s.cfg.w.bits + 1 →
      2 ^ s.cfg.w.bits ≤ s.din0.toNat ∨ 2 ^ s.cfg.w.bits ≤ s.din1.toNat →
      exec .resEnc s = .next (faulted .resEnc 8 s)) ∧
    (s.coder.mode = .dec → s.model.valid = true → s.model.s.toNat = 2 * s.cfg.w.bits + 1 →
      2 ^ s.cfg.w.bits ≤ s.din1.toNat → exec .resDec s = .next (faulted .resDec 8 s)) ∧
    (s.coder.mode = .enc → s.model.valid = true → s.front.valid = true → s.model.s.toNat = 2 * s.cfg.w.bits + 1 →
      s.front.w = s.cfg.w → 2 ^ s.cfg.w.bits ≤ s.din0.toNat → exec .stepEnc s = .next (faulted .stepEnc 8 s))

/-- Reads and writes of the CSR space that fault (10_state.md R122, R123; 46_control.md R1002, R1003): unmapped indices
and writes of RO CSRs with CsrAccess, code 3; illegal values with CsrValue, code 4; a unit's CSRs before its init with
NotConfigured, code 6; selectors beyond their table with OperandRange, code 8. While FAULT = 1 such a command changes
nothing, DOUT0 and the fault registers among it (46_control.md R1002, 60_exceptions.md R1101, R1104). -/
def Obligations.CsrAccessesThatFault : Prop :=
  ∀ s : State,
    (∀ c, c ∉ [0x00, 0x01, 0x02, 0x03, 0x04, 0x05, 0x08, 0x09, 0x0A, 0x0B, 0x10, 0x11, 0x12, 0x13, 0x14, 0x18, 0x19,
        0x1A, 0x1B, 0x1C, 0x1D, 0x1E, 0x20, 0x21, 0x22, 0x23, 0x24, 0x25, 0x28, 0x29, 0x30, 0x31, 0x32] →
      exec (.csrRead c) s = .next (faultedOnce (.csrRead c) 3 s)) ∧
    (∀ c, c ∉ [0x00, 0x01, 0x02, 0x03, 0x04, 0x05, 0x28, 0x30] →
      exec (.csrWrite c) s = .next (faultedOnce (.csrWrite c) 3 s)) ∧
    (s.din0 ≠ 32 → s.din0 ≠ 64 → exec (.csrWrite 0x00) s = .next (faultedOnce (.csrWrite 0x00) 4 s)) ∧
    (∀ c lo hi, (c, lo, hi) ∈ [(0x01, 1, 2 ^ 32 - 2), (0x02, 1, 2 ^ 32 - 2), (0x03, 1, 65536), (0x04, 7, 16),
        (0x05, 1, 65536), (0x28, 0, 2 ^ 32 - 1), (0x30, 0, 2 ^ 32 - 1)] →
      s.din0.toNat < lo ∨ hi < s.din0.toNat → exec (.csrWrite c) s = .next (faultedOnce (.csrWrite c) 4 s)) ∧
    (∀ c, c ∈ [0x18, 0x19, 0x1A, 0x1B, 0x1C, 0x1D, 0x1E, 0x31, 0x32] → s.model.valid = false →
      exec (.csrRead c) s = .next (faultedOnce (.csrRead c) 6 s)) ∧
    (∀ c, c ∈ [0x20, 0x21, 0x22, 0x23, 0x24, 0x25, 0x29] → s.front.valid = false →
      exec (.csrRead c) s = .next (faultedOnce (.csrRead c) 6 s)) ∧
    (s.front.valid = true → s.front.mask.toNat < s.cfg.frontSel.toNat →
      exec (.csrRead 0x29) s = .next (faultedOnce (.csrRead 0x29) 8 s)) ∧
    (s.model.valid = true → s.model.s.toNat ≤ s.cfg.qsmSel.toNat →
      exec (.csrRead 0x31) s = .next (faultedOnce (.csrRead 0x31) 8 s)) ∧
    (s.model.valid = true → s.model.s.toNat < s.cfg.qsmSel.toNat →
      exec (.csrRead 0x32) s = .next (faultedOnce (.csrRead 0x32) 8 s))

/-! ### Control commands -/

/-- NOP changes nothing (46_control.md R1000), and RESET gives every register the value 70_reset_and_hazards.md R1200
states for it (46_control.md R1001), both also while the block is halted; DIN0, DIN1, the parameters and the host's
plans are no state of the block and stay (the model's choice, logs 1, 3 and 7). -/
def Obligations.NopAndResetRunInEveryState : Prop :=
  ∀ s : State, exec .nop s = .next s ∧ ∃ t, exec .reset s = .next t ∧
    t.coder = { mode := .idle, low := 0, range := 0xFFFFFFFF, code := 0, eofErr := false, corrupt := false,
                bytesOut := 0, bytesIn := 0, instream := [], inMark := false, outstream := [] } ∧
    t.model.valid = false ∧ t.front.valid = false ∧ t.faults = { flag := false, cause := 0, cmd := 0 } ∧
    t.cfg = { w := .w32, nx := 1, ny := 1, qsmS := 65, qsmBits := 16, qsmPeriod := 1024, frontSel := 0, qsmSel := 0 } ∧
    t.din0 = s.din0 ∧ t.din1 = s.din1 ∧ t.params = s.params ∧ t.host = s.host

/-- CSR_READ gives the CSR's value of 10_state.md R122 in DOUT0 and changes nothing else, also while the block is
halted; a unit's CSR once the unit is valid, an indirect CSR with its selector in the table (R123). -/
def Obligations.CsrReadGivesTheRegister : Prop :=
  ∀ s : State,
    (∀ (c : Nat) (v : W64), (c, v) ∈ ([(0x00, BitVec.ofNat 64 s.cfg.w.bits), (0x01, s.cfg.nx), (0x02, s.cfg.ny),
        (0x03, s.cfg.qsmS), (0x04, s.cfg.qsmBits), (0x05, s.cfg.qsmPeriod),
        (0x09, s.faults.cause.setWidth 64), (0x0A, s.faults.cmd.setWidth 64), (0x0B, 0x004650432D524331),
        (0x10, s.coder.low.setWidth 64), (0x11, s.coder.range.setWidth 64), (0x12, s.coder.code.setWidth 64),
        (0x13, s.coder.bytesOut), (0x14, s.coder.bytesIn), (0x28, s.cfg.frontSel.setWidth 64),
        (0x30, s.cfg.qsmSel.setWidth 64)] : List (Nat × W64)) →
      exec (.csrRead c) s = .next { s with dout0 := v }) ∧
    (s.model.valid = true → ∀ (c : Nat) (v : W64), (c, v) ∈ ([(0x18, s.model.rescale.setWidth 64),
        (0x19, s.model.incr.setWidth 64), (0x1A, s.model.left.setWidth 64), (0x1B, s.model.more.setWidth 64),
        (0x1C, s.model.s.setWidth 64), (0x1D, s.model.bits.setWidth 64), (0x1E, s.model.period.setWidth 64)]
        : List (Nat × W64)) →
      exec (.csrRead c) s = .next { s with dout0 := v }) ∧
    (s.front.valid = true → ∀ (c : Nat) (v : W64), (c, v) ∈ ([(0x20, s.front.idx.setWidth 64),
        (0x21, s.front.mask.setWidth 64), (0x22, s.front.dy.setWidth 64), (0x23, s.front.dz.setWidth 64),
        (0x24, BitVec.ofNat 64 s.front.w.bits), (0x25, BitVec.ofNat 64 (s.front.zero.toNat % 2 ^ s.front.w.bits))]
        : List (Nat × W64)) →
      exec (.csrRead c) s = .next { s with dout0 := v }) ∧
    (s.front.valid = true → s.cfg.frontSel.toNat ≤ s.front.mask.toNat →
      exec (.csrRead 0x29) s = .next { s with dout0 := frontSlotValue s.front s.cfg.frontSel.toNat }) ∧
    (s.model.valid = true → ∀ v, s.model.symf[s.cfg.qsmSel.toNat]? = some v → s.cfg.qsmSel.toNat < s.model.s.toNat →
      exec (.csrRead 0x31) s = .next { s with dout0 := v.setWidth 64 }) ∧
    (s.model.valid = true → ∀ v, s.model.cumf[s.cfg.qsmSel.toNat]? = some v → s.cfg.qsmSel.toNat ≤ s.model.s.toNat →
      exec (.csrRead 0x32) s = .next { s with dout0 := v.setWidth 64 })

/-- CSR_READ of STATUS gives the fields of 10_state.md R126, every bit of them; after reset it reads as 0. -/
def Obligations.StatusShowsTheFlags : Prop :=
  (∀ s : State, ∃ d : W64, exec (.csrRead 0x08) s = .next { s with dout0 := d } ∧
    d.toNat = (match s.coder.mode with | .idle => 0 | .enc => 1 | .dec => 2 | .done => 3)
      + 4 * s.coder.eofErr.toNat + 8 * s.coder.corrupt.toNat + 16 * s.faults.flag.toNat + 32 * s.model.valid.toNat
      + 64 * s.front.valid.toNat) ∧
  exec (.csrRead 0x08) State.reset = .next { State.reset with dout0 := 0 }

/-- CSR_WRITE of a legal value writes the CSR and nothing else (46_control.md R1003, 10_state.md R122). -/
def Obligations.CsrWriteSetsTheRegister : Prop :=
  ∀ s : State, s.faults.flag = false →
    (∀ w : Width, s.din0.toNat = w.bits → exec (.csrWrite 0x00) s = .next { s with cfg := { s.cfg with w := w } }) ∧
    (1 ≤ s.din0.toNat → s.din0.toNat ≤ 2 ^ 32 - 2 →
      exec (.csrWrite 0x01) s = .next { s with cfg := { s.cfg with nx := s.din0 } } ∧
      exec (.csrWrite 0x02) s = .next { s with cfg := { s.cfg with ny := s.din0 } }) ∧
    (1 ≤ s.din0.toNat → s.din0.toNat ≤ 65536 →
      exec (.csrWrite 0x03) s = .next { s with cfg := { s.cfg with qsmS := s.din0 } } ∧
      exec (.csrWrite 0x05) s = .next { s with cfg := { s.cfg with qsmPeriod := s.din0 } }) ∧
    (7 ≤ s.din0.toNat → s.din0.toNat ≤ 16 →
      exec (.csrWrite 0x04) s = .next { s with cfg := { s.cfg with qsmBits := s.din0 } }) ∧
    (s.din0.toNat < 2 ^ 32 →
      exec (.csrWrite 0x28) s = .next { s with cfg := { s.cfg with frontSel := BitVec.ofNat 32 s.din0.toNat } } ∧
      exec (.csrWrite 0x30) s = .next { s with cfg := { s.cfg with qsmSel := BitVec.ofNat 32 s.din0.toNat } })

/-! ### BitMap -/

/-- MAP_FWD and MAP_INV on an operand that fits the width give the closed forms of R401 and R402 in DOUT0 and change
nothing else: forward, the sign bit set on a value whose sign is 0 and the complement of one whose sign is 1
(40_bitmap.md R401 to R404). -/
def Obligations.MapCommandsGiveTheClosedForms : Prop :=
  ∀ s : State, s.faults.flag = false → s.din0.toNat < 2 ^ s.cfg.w.bits →
    (∃ d : W64, exec .mapFwd s = .next { s with dout0 := d } ∧
      d.toNat = if s.din0.toNat < 2 ^ (s.cfg.w.bits - 1) then s.din0.toNat + 2 ^ (s.cfg.w.bits - 1)
        else 2 ^ s.cfg.w.bits - 1 - s.din0.toNat) ∧
    (∃ d : W64, exec .mapInv s = .next { s with dout0 := d } ∧
      d.toNat = if 2 ^ (s.cfg.w.bits - 1) ≤ s.din0.toNat then s.din0.toNat - 2 ^ (s.cfg.w.bits - 1)
        else 2 ^ s.cfg.w.bits - 1 - s.din0.toNat)

/-- "Map_Forward_W is a bijection on the 2^W bit patterns, and Map_Inverse_W is its inverse", and the images are ordered:
among patterns of sign 0 rising, among patterns of sign 1 falling, every sign 1 below every sign 0, so −0 is just below
+0 (40_bitmap.md R405). -/
def Obligations.MapIsAnOrderedBijection : Prop :=
  ∀ w : Width,
    (∀ f : BitVec w.bits, mapInverse (mapForward f) = f) ∧ (∀ u : BitVec w.bits, mapForward (mapInverse u) = u) ∧
    (∀ a b : BitVec w.bits, a.msb = false → b.msb = false → a.toNat < b.toNat →
      (mapForward a).toNat < (mapForward b).toNat) ∧
    (∀ a b : BitVec w.bits, a.msb = true → b.msb = true → a.toNat < b.toNat →
      (mapForward b).toNat < (mapForward a).toNat) ∧
    (∀ a b : BitVec w.bits, a.msb = true → b.msb = false → (mapForward a).toNat < (mapForward b).toNat)

/-! ### Front -/

/-- FRONT_INIT (44_front.md R800) builds the ring of the smallest power of two at or above `1 + dy + dz` slots, every
slot the zero mapping, if it is no larger than FRONT_MAX_SLOTS, and changes nothing but the front; else it faults with
Capacity, code 9. -/
def Obligations.FrontInitBuildsTheRing : Prop :=
  ∀ s : State, s.faults.flag = false →
    (slotsNeeded s.cfg ≤ s.params.frontMaxSlots → ∃ f : Front, exec .frontInit s = .next { s with front := f } ∧
      f.valid = true ∧ f.w = s.cfg.w ∧ f.dx = 1 ∧ f.dy.toNat = s.cfg.nx.toNat + 1 ∧
      f.dz.toNat = (s.cfg.nx.toNat + 1) * (s.cfg.ny.toNat + 1) ∧ (∃ k, f.mask.toNat + 1 = 2 ^ k) ∧
      slotsNeeded s.cfg ≤ f.mask.toNat + 1 ∧ f.mask.toNat + 1 < 2 * slotsNeeded s.cfg ∧
      f.zero.toNat = 2 ^ (s.cfg.w.bits - 1) ∧ f.idx = 0 ∧ ∀ k, k ≤ f.mask.toNat → frontSlotValue f k = f.zero) ∧
    (s.params.frontMaxSlots < slotsNeeded s.cfg → exec .frontInit s = .next (faulted .frontInit 9 s))

/-- FRONT_AT reads the slot `(FRONT_IDX - off) mod (M + 1)` into DOUT0 and changes nothing else (44_front.md R801, R803). -/
def Obligations.FrontAtReadsTheNeighbourSlot : Prop :=
  ∀ (s : State) (x y z : Bool), s.faults.flag = false → s.front.valid = true → FrontInv s.front →
    exec (.frontAt x y z) s = .next { s with
      dout0 := frontSlotValue s.front
        (slotAt s.front (x.toNat + s.front.dy.toNat * y.toNat + s.front.dz.toNat * z.toNat)) }

/-- FRONT_PUSH of a value that fits the width writes slot `FRONT_IDX & M`, leaves every other slot, and advances
FRONT_IDX mod 2^32; nothing else changes (44_front.md R802, R804). -/
def Obligations.FrontPushWritesOneSlot : Prop :=
  ∀ s : State, s.faults.flag = false → s.front.valid = true → FrontInv s.front →
    s.din0.toNat < 2 ^ s.front.w.bits →
    ∃ f : Front, exec .frontPush s = .next { s with front := f } ∧
      f = { s.front with idx := s.front.idx + 1, ring := f.ring } ∧
      frontSlotValue f (slotAt s.front 0) = s.din0 ∧
      ∀ k, k ≠ slotAt s.front 0 → frontSlotValue f k = frontSlotValue s.front k

/-- FRONT_ADVANCE pushes the zero mapping `off` times (44_front.md R805): FRONT_IDX grows by `off` mod 2^32, the last
`off` slots pushed hold the zero mapping, every slot not reached keeps its value, and nothing else changes; an offset
of 0 changes nothing. -/
def Obligations.FrontAdvancePushesZeroMappings : Prop :=
  ∀ (s : State) (x y z : Bool) (off : Nat), s.faults.flag = false → s.front.valid = true → FrontInv s.front →
    off = x.toNat + s.front.dy.toNat * y.toNat + s.front.dz.toNat * z.toNat →
    ∃ f : Front, exec (.frontAdvance x y z) s = .next { s with front := f } ∧
      f = { s.front with idx := s.front.idx + BitVec.ofNat 32 off, ring := f.ring } ∧
      (∀ o, 1 ≤ o → o ≤ off → frontSlotValue f (slotAt f o) = s.front.zero) ∧
      (∀ k, k ≤ s.front.mask.toNat → (∀ o, 1 ≤ o → o ≤ off → k ≠ slotAt f o) →
        frontSlotValue f k = frontSlotValue s.front k) ∧
      (off = 0 → f = s.front)

/-- PREDICT gives the order-3 Lorenzo sum of the seven neighbours, reduced mod 2^WF, in DOUT0 and changes nothing else
(44_front.md R806). -/
def Obligations.PredictGivesTheLorenzoSum : Prop :=
  ∀ s : State, s.faults.flag = false → s.front.valid = true → FrontInv s.front →
    ∃ p : W64, exec .predict s = .next { s with dout0 := p } ∧
      (p.toNat : Int) = lorenzoSum s.front % 2 ^ s.front.w.bits

/-- Ring sufficiency (44_front.md R807): after any commands but FRONT_INIT and RESET from a front just built, whichever of
them push, the slot at every offset up to the ring's size reads the value pushed that many pushes ago, or the zero
mapping if there were fewer; the predictor's largest offset is no larger, and so FRONT_AT of each neighbour reads the
value pushed its offset ago. -/
def Obligations.NeighbourIsThePushThatLongAgo : Prop :=
  ∀ (r s u : State) (cmds : List (Instr × W64 × W64)) (vs : List W64), r.faults.flag = false →
    exec .frontInit r = .next s → s.faults.flag = false → (∀ c ∈ cmds, c.1 ≠ .frontInit ∧ c.1 ≠ .reset) →
    runPushes cmds s = some (vs, u) →
    (∀ o, 1 ≤ o → o ≤ s.front.mask.toNat + 1 → frontSlotValue u.front (slotAt u.front o) =
      if o ≤ vs.length then vs.getD (vs.length - o) 0 else BitVec.ofNat 64 (2 ^ (r.cfg.w.bits - 1))) ∧
    1 + s.front.dy.toNat + s.front.dz.toNat ≤ s.front.mask.toNat + 1 ∧
    (u.faults.flag = false →
      ∀ (x y z : Bool) (off : Nat), off = x.toNat + s.front.dy.toNat * y.toNat + s.front.dz.toNat * z.toNat → 1 ≤ off →
      exec (.frontAt x y z) u = .next { u with
        dout0 := if off ≤ vs.length then vs.getD (vs.length - off) 0 else BitVec.ofNat 64 (2 ^ (r.cfg.w.bits - 1)) })

/-! ### Range coder -/

/-- RC_Normalize, from any interval a narrowing can leave, makes at most three passes of step 1 and one fudge, as R502
writes them (41_range_coder.md R501, R502, R503): the encoder emits the bytes shifted out, at most 5; the decoder takes
as many bytes as the encoder emits from the same interval, each into CODE from below (20_memory.md R203), and holds if
neither they nor the end mark are there (20_memory.md R203, 70_reset_and_hazards.md R1213). -/
def Obligations.NormalizationFollowsTheProcedure : Prop :=
  ∀ c : Coder, 1 ≤ c.range.toNat → c.low.toNat + c.range.toNat ≤ 2 ^ 32 →
    (c.mode = .enc → ∃ c', rcNormalize c = some c' ∧ EncodesTo c c.low.toNat c.range.toNat c' ∧
      c'.outstream.length ≤ c.outstream.length + 5) ∧
    (c.mode = .dec → ∃ n, n ≤ 5 ∧ BytesMoved c.low.toNat c.range.toNat n ∧
      (InputReady c n → ∃ c', rcNormalize c = some c' ∧ DecodesTo c c.low.toNat c.range.toNat c') ∧
      (¬ InputReady c n → rcNormalize c = none))

/-- Every normalization restores the coder's invariants `RANGE ≥ 2^16` and `LOW + RANGE ≤ 2^32` (41_range_coder.md
R504), whichever direction. -/
def Obligations.NormalizationRestoresTheInvariants : Prop :=
  ∀ c c' : Coder, 1 ≤ c.range.toNat → c.low.toNat + c.range.toNat ≤ 2 ^ 32 → rcNormalize c = some c' → CoderInv c'

/-- The init commands, legal in every mode (41_range_coder.md R500, R510, R511, R530; 20_memory.md R203): RC_ENC_INIT sets
the registers of R510 and emits nothing; RC_DEC_INIT sets the same and reads four bytes, the first into CODE[31:24],
zeros at the end mark with EOF_ERR set, and holds where there is neither byte nor mark. Nothing else changes. That a held
RC_DEC_INIT has changed nothing yet, INSTREAM and RC_MODE among it, is the model's choice (log 2). -/
def Obligations.InitCommandsStartTheCoder : Prop :=
  ∀ s : State, s.faults.flag = false →
    exec .rcEncInit s = .next { s with coder := { s.coder with
      low := 0, range := 0xFFFFFFFF, code := 0, eofErr := false, corrupt := false, bytesOut := 0, mode := .enc } } ∧
    (InputReady s.coder 4 → exec .rcDecInit s = .next { s with coder := { s.coder with
      low := 0, range := 0xFFFFFFFF, code := BitVec.ofNat 32 (bytesValue (nextBytes s.coder 4)), corrupt := false,
      mode := .dec, eofErr := decide (s.coder.instream.length < 4),
      bytesIn := BitVec.ofNat 64 (min 4 s.coder.instream.length), instream := s.coder.instream.drop 4 } }) ∧
    (¬ InputReady s.coder 4 → exec .rcDecInit s = .next { s with holding := true })

/-- RC_ENC_BIT halves the range, the bit selecting the upper half, and normalizes; nothing but the coder changes
(41_range_coder.md R505, R512). -/
def Obligations.RcEncBitSelectsAHalf : Prop :=
  ∀ (s : State) (b : Bool), s.faults.flag = false → s.coder.mode = .enc → CoderInv s.coder →
    ∃ c, exec (.rcEncBit b) s = .next { s with coder := c } ∧
      EncodesTo s.coder (s.coder.low.toNat + s.coder.range.toNat / 2 * b.toNat) (s.coder.range.toNat / 2) c

/-- RC_ENC_RAW of a value below `2^N`: up to 16 bits one narrowing to a `2^N`-th of the range and a normalization; above
16 bits the low 16 first and then the rest, as two commands would; nothing but the coder changes (41_range_coder.md
R505, R507, R514). -/
def Obligations.RcEncRawCodesSixteenBitChunks : Prop :=
  ∀ (s : State) (n : Nat), s.faults.flag = false → s.coder.mode = .enc → CoderInv s.coder → n ≤ 64 →
    s.din0.toNat < 2 ^ n →
    (n ≤ 16 → ∃ c, exec (.rcEncRaw n) s = .next { s with coder := c } ∧
      EncodesTo s.coder (s.coder.low.toNat + s.coder.range.toNat / 2 ^ n * s.din0.toNat)
        (s.coder.range.toNat / 2 ^ n) c) ∧
    (16 < n → ∃ t u, exec (.rcEncRaw 16) { s with din0 := BitVec.ofNat 64 (s.din0.toNat % 2 ^ 16) } = .next t ∧
      exec (.rcEncRaw (n - 16)) { t with din0 := BitVec.ofNat 64 (s.din0.toNat / 2 ^ 16) } = .next u ∧
      exec (.rcEncRaw n) s = .next { u with din0 := s.din0 })

/-- RC_ENC_SYM of a symbol of the alphabet narrows by the model's frequencies, read before the model's update, and
normalizes; the model is updated as QSM_ENC would; nothing else changes (41_range_coder.md R508, R516; 42_qsmodel.md
R610). -/
def Obligations.RcEncSymNarrowsByTheModel : Prop :=
  ∀ s : State, s.faults.flag = false → s.coder.mode = .enc → s.model.valid = true → CoderInv s.coder →
    ModelInv s.model → s.din0.toNat < s.model.s.toNat →
    ∃ c m r cum freq, exec .rcEncSym s = .next { s with coder := c, model := m } ∧ Ticked s.din0.toNat s.model m ∧
      r = s.coder.range.toNat / 2 ^ s.model.bits.toNat ∧ cum = (cumfAt s.model s.din0.toNat).toNat ∧
      cum + freq = (cumfAt s.model (s.din0.toNat + 1)).toNat ∧
      EncodesTo s.coder (s.coder.low.toNat + r * cum) (r * freq) c

/-- RC_FINISH emits the four bytes of LOW, high byte first, and sets the mode to DONE; LOW becomes 0, nothing else
changes (41_range_coder.md R518). -/
def Obligations.RcFinishFlushesLow : Prop :=
  ∀ s : State, s.faults.flag = false → s.coder.mode = .enc →
    exec .rcFinish s = .next { s with coder := { s.coder with
      low := 0, mode := .done, bytesOut := s.coder.bytesOut + 4,
      outstream := s.coder.outstream ++
        [BitVec.ofNat 8 (s.coder.low.toNat / 2 ^ 24), BitVec.ofNat 8 (s.coder.low.toNat / 2 ^ 16),
         BitVec.ofNat 8 (s.coder.low.toNat / 2 ^ 8), BitVec.ofNat 8 s.coder.low.toNat] } }

/-- RC_DEC_BIT gives the quotient by half the range, 0 or 1; a larger one is clamped to 1 and sets CORRUPT; then LOW, RANGE
and CODE follow the encoder's (41_range_coder.md R506, R513, R532). It holds if a byte its normalization takes is
missing, with no end mark (20_memory.md R203, R210); that it has then changed nothing is the model's choice (log 2). -/
def Obligations.RcDecBitGivesTheClampedQuotient : Prop :=
  ∀ s : State, s.faults.flag = false → s.coder.mode = .dec → s.coder.eofErr = false → CoderInv s.coder →
    ∃ q n, q = min (quotientNat s.coder (s.coder.range.toNat / 2)) 1 ∧ n ≤ 5 ∧
      BytesMoved (s.coder.low.toNat + s.coder.range.toNat / 2 * q) (s.coder.range.toNat / 2) n ∧
      (InputReady s.coder n → ∃ c, exec .rcDecBit s = .next { s with coder := c, dout0 := BitVec.ofNat 64 q } ∧
        DecodesTo { s.coder with
            corrupt := s.coder.corrupt || decide (2 ≤ quotientNat s.coder (s.coder.range.toNat / 2)) }
          (s.coder.low.toNat + s.coder.range.toNat / 2 * q) (s.coder.range.toNat / 2) c) ∧
      (¬ InputReady s.coder n → exec .rcDecBit s = .next { s with holding := true })

/-- RC_DEC_RAW: up to 16 bits the clamped quotient by a `2^N`-th of the range; above 16 bits the low 16 bits first and then
the rest, as two commands would (41_range_coder.md R506, R507, R515, R532). It holds if a byte a normalization takes is
missing, with no end mark (20_memory.md R203, R210), so above 16 bits if either part holds, and at most 20 bytes are
needed; that it has then changed nothing is the model's choice (log 2). -/
def Obligations.RcDecRawJoinsSixteenBitChunks : Prop :=
  ∀ (s : State) (n : Nat), s.faults.flag = false → s.coder.mode = .dec → s.coder.eofErr = false → CoderInv s.coder →
    n ≤ 64 →
    (n ≤ 16 → ∃ q k, q = min (quotientNat s.coder (s.coder.range.toNat / 2 ^ n)) (2 ^ n - 1) ∧ k ≤ 5 ∧
      BytesMoved (s.coder.low.toNat + s.coder.range.toNat / 2 ^ n * q) (s.coder.range.toNat / 2 ^ n) k ∧
      (InputReady s.coder k → ∃ c, exec (.rcDecRaw n) s = .next { s with coder := c, dout0 := BitVec.ofNat 64 q } ∧
        DecodesTo { s.coder with
            corrupt := s.coder.corrupt || decide (2 ^ n ≤ quotientNat s.coder (s.coder.range.toNat / 2 ^ n)) }
          (s.coder.low.toNat + s.coder.range.toNat / 2 ^ n * q) (s.coder.range.toNat / 2 ^ n) c) ∧
      (¬ InputReady s.coder k → exec (.rcDecRaw n) s = .next { s with holding := true })) ∧
    (16 < n → ∃ t, exec (.rcDecRaw 16) { s with holding := false } = .next t ∧
      (InputReady s.coder 20 → t.holding = false) ∧
      (t.holding = true → exec (.rcDecRaw n) s = .next { s with holding := true }) ∧
      (t.holding = false → ∃ u, exec (.rcDecRaw (n - 16)) t = .next u ∧
        (InputReady s.coder 20 → u.holding = false) ∧
        (u.holding = true → exec (.rcDecRaw n) s = .next { s with holding := true }) ∧
        (u.holding = false → exec (.rcDecRaw n) s = .next { u with
          holding := s.holding, dout0 := BitVec.ofNat 64 (t.dout0.toNat + u.dout0.toNat * 2 ^ 16) })))

/-- RC_DEC_SYM gives the symbol whose cumulative interval holds the clamped quotient, narrows by its frequencies and
updates the model as QSM_ENC of that symbol would (41_range_coder.md R508, R517, R532; 42_qsmodel.md R611). It holds if a
byte its normalization takes is missing, with no end mark (20_memory.md R203, R210); that it has then changed nothing is
the model's choice (log 2). -/
def Obligations.RcDecSymFindsTheSymbol : Prop :=
  ∀ s : State, s.faults.flag = false → s.coder.mode = .dec → s.coder.eofErr = false → s.model.valid = true →
    CoderInv s.coder → ModelInv s.model →
    ∃ sym r l cum freq n, sym < s.model.s.toNat ∧ r = s.coder.range.toNat / 2 ^ s.model.bits.toNat ∧
      l = min (quotientNat s.coder r) (2 ^ s.model.bits.toNat - 1) ∧ cum = (cumfAt s.model sym).toNat ∧
      cum + freq = (cumfAt s.model (sym + 1)).toNat ∧ cum ≤ l ∧ l < cum + freq ∧ n ≤ 5 ∧
      BytesMoved (s.coder.low.toNat + r * cum) (r * freq) n ∧
      (InputReady s.coder n → ∃ c m,
        exec .rcDecSym s = .next { s with coder := c, model := m, dout0 := BitVec.ofNat 64 sym } ∧
        Ticked sym s.model m ∧
        DecodesTo { s.coder with
            corrupt := s.coder.corrupt || decide (2 ^ s.model.bits.toNat ≤ quotientNat s.coder r) }
          (s.coder.low.toNat + r * cum) (r * freq) c) ∧
      (¬ InputReady s.coder n → exec .rcDecSym s = .next { s with holding := true })

/-- A decode command that starts with EOF_ERR = 1 returns 0 and changes no state (41_range_coder.md R533); RES_DEC then
returns `(p - 2^(W-1)) mod 2^W` (43_residual.md R704). -/
def Obligations.DecodesAfterTheEndReturnZero : Prop :=
  ∀ s : State, s.faults.flag = false → s.coder.mode = .dec → s.coder.eofErr = true →
    exec .rcDecBit s = .next { s with dout0 := 0 } ∧
    (∀ n, n ≤ 64 → exec (.rcDecRaw n) s = .next { s with dout0 := 0 }) ∧
    (s.model.valid = true → exec .rcDecSym s = .next { s with dout0 := 0 }) ∧
    (s.model.valid = true → s.model.s.toNat = 2 * s.cfg.w.bits + 1 → s.din1.toNat < 2 ^ s.cfg.w.bits →
      ∃ a : W64, exec .resDec s = .next { s with dout0 := a } ∧
        a.toNat = (s.din1.toNat + 2 ^ (s.cfg.w.bits - 1)) % 2 ^ s.cfg.w.bits)

/-- The round-trip law of the range coder (41_range_coder.md R520, with the byte count of 20_memory.md R204): encode any
legal bits, raw fields and symbols and finish; the mirror decodes on exactly the bytes emitted, followed by the end
mark, return the values in order, end with clean flags and take exactly the bytes emitted. -/
def Obligations.MirrorDecodesReturnTheEncodedValues : Prop :=
  ∀ (ops : List CoderOp) (e d : State), e.faults.flag = false → d.faults.flag = false → e.model.valid = true →
    ModelInv e.model → d.model = e.model → (∀ op ∈ ops, op.Legal e.model.s.toNat) → d.coder.inMark = true →
    ∃ e₁ e₂ e₃, exec .rcEncInit e = .next e₁ ∧ encodeAll ops e₁ = some e₂ ∧ exec .rcFinish e₂ = .next e₃ ∧
      (e₃.coder.outstream = e.coder.outstream ++ d.coder.instream →
        ∃ d₁ d₂, exec .rcDecInit d = .next d₁ ∧ decodeAll ops d₁ = some (ops.map CoderOp.value, d₂) ∧
          d₂.coder.eofErr = false ∧ d₂.coder.corrupt = false ∧ d₂.coder.instream = [] ∧
          d₂.coder.bytesIn = e₃.coder.bytesOut)

/-! ### Probability model -/

/-- QSM_INIT on a legal, consistent configuration builds the uniform model of 42_qsmodel.md R601 and R602 from the
configuration CSRs, valid and with the model's invariants; nothing but the model changes. -/
def Obligations.QsmInitBuildsTheUniformModel : Prop :=
  ∀ s : State, s.faults.flag = false → CsrsLegal s.cfg → s.model.search.length = 129 →
    s.cfg.qsmS.toNat ≤ 2 ^ s.cfg.qsmBits.toNat → rescaleInit s.cfg.qsmS.toNat ≤ s.cfg.qsmPeriod.toNat →
    ∃ m : Model, exec .qsmInit s = .next { s with model := m } ∧ m.valid = true ∧ ModelInv m ∧
      UniformModel s.cfg.qsmS.toNat s.cfg.qsmBits.toNat s.cfg.qsmPeriod.toNat m

/-- QSM_RESET rebuilds the uniform model from the latched parameters and changes nothing but the model; the model is then
the one right after any QSM_INIT that latched the same parameters (42_qsmodel.md R603). -/
def Obligations.QsmResetRestoresTheInitialModel : Prop :=
  ∀ u : State, u.faults.flag = false → u.model.valid = true → ModelInv u.model →
    ∃ m : Model, exec .qsmReset u = .next { u with model := m } ∧ ModelInv m ∧
      UniformModel u.model.s.toNat u.model.bits.toNat u.model.period.toNat m ∧
      ∀ s t : State, s.faults.flag = false → CsrsLegal s.cfg → s.model.search.length = 129 →
        exec .qsmInit s = .next t → t.faults.flag = false → t.model.s = u.model.s → t.model.bits = u.model.bits →
        t.model.period = u.model.period → m = t.model

/-- QSM_ENC of a symbol of the alphabet gives the symbol and its frequencies as they were before the update, updates the
model for it (one count, the arming of the pending symbols, or a rescale), and changes nothing else (42_qsmodel.md R604
to R610, R613). -/
def Obligations.QsmEncLooksUpThenUpdates : Prop :=
  ∀ s : State, s.faults.flag = false → s.model.valid = true → ModelInv s.model → s.din0.toNat < s.model.s.toNat →
    ∃ m d, exec .qsmEnc s = .next { s with model := m, dout0 := s.din0, dout1 := d } ∧
      Ticked s.din0.toNat s.model m ∧ LookupWord s.model s.din0.toNat d

/-- QSM_DEC of a query below `2^BITS` gives the one symbol whose cumulative interval holds it, its frequencies as they
were before the update, updates the model for it, and changes nothing else (42_qsmodel.md R611, R614). -/
def Obligations.QsmDecFindsTheOneSymbol : Prop :=
  ∀ s : State, s.faults.flag = false → s.model.valid = true → ModelInv s.model →
    s.din0.toNat < 2 ^ s.model.bits.toNat →
    ∃ m sym d, exec .qsmDec s = .next { s with model := m, dout0 := BitVec.ofNat 64 sym, dout1 := d } ∧
      sym < s.model.s.toNat ∧ (cumfAt s.model sym).toNat ≤ s.din0.toNat ∧
      s.din0.toNat < (cumfAt s.model (sym + 1)).toNat ∧
      (∀ other, other < s.model.s.toNat → (cumfAt s.model other).toNat ≤ s.din0.toNat →
        s.din0.toNat < (cumfAt s.model (other + 1)).toNat → other = sym) ∧
      Ticked sym s.model m ∧ LookupWord s.model sym d

/-! ### Residual coder and pipeline -/

/-- RES_ENC codes the class symbol and then, where the raw step runs, the residual's low bits, exactly as RC_ENC_SYM and
RC_ENC_RAW would (43_residual.md R701, R703, R706): symbol `W` for an exact prediction, `W + 1 + k` or `W - 1 - k` for
a residual of magnitude `d` with `k = ⌊log2 d⌋`. -/
def Obligations.ResEncCodesClassThenRawBits : Prop :=
  ∀ s : State, s.faults.flag = false → s.coder.mode = .enc → s.model.valid = true → CoderInv s.coder →
    ModelInv s.model → s.model.s.toNat = 2 * s.cfg.w.bits + 1 → s.din0.toNat < 2 ^ s.cfg.w.bits →
    s.din1.toNat < 2 ^ s.cfg.w.bits →
    (s.din0 = s.din1 → ∃ t, exec .rcEncSym { s with din0 := BitVec.ofNat 64 s.cfg.w.bits } = .next t ∧
      exec .resEnc s = .next { t with din0 := s.din0 }) ∧
    (∀ d k sym : Nat, d ≠ 0 → k = Nat.log2 d →
      (s.din1.toNat + d = s.din0.toNat ∧ sym = s.cfg.w.bits + 1 + k) ∨
        (s.din0.toNat + d = s.din1.toNat ∧ sym = s.cfg.w.bits - 1 - k) →
      ∃ t, exec .rcEncSym { s with din0 := BitVec.ofNat 64 sym } = .next t ∧
        (0 < k ∨ s.params.emitZeroWidthRaw = true →
          ∃ u, exec (.rcEncRaw k) { t with din0 := BitVec.ofNat 64 (d - 2 ^ k) } = .next u ∧
            exec .resEnc s = .next { u with din0 := s.din0 }) ∧
        (k = 0 → s.params.emitZeroWidthRaw = false → exec .resEnc s = .next { t with din0 := s.din0 }))

/-- RES_DEC decodes the class symbol and then, where the raw step runs, the raw bits, exactly as RC_DEC_SYM and RC_DEC_RAW
would, and applies the signed residual to the prediction mod 2^W (43_residual.md R702, R704, R706). It holds exactly if
one of the two would (20_memory.md R203, R210), never with 25 bytes or the end mark at hand; that it has then changed
nothing is the model's choice (log 2). -/
def Obligations.ResDecAppliesTheResidual : Prop :=
  ∀ s : State, s.faults.flag = false → s.coder.mode = .dec → s.model.valid = true → CoderInv s.coder →
    ModelInv s.model → s.model.s.toNat = 2 * s.cfg.w.bits + 1 → s.din1.toNat < 2 ^ s.cfg.w.bits →
    ∃ t, exec .rcDecSym { s with holding := false } = .next t ∧
      (InputReady s.coder 25 → t.holding = false) ∧
      (t.holding = true → exec .resDec s = .next { s with holding := true }) ∧
      (t.holding = false → t.dout0.toNat = s.cfg.w.bits →
        exec .resDec s = .next { t with holding := s.holding, dout0 := s.din1 }) ∧
      (t.holding = false →
        ∀ k : Nat, (s.cfg.w.bits + 1 + k = t.dout0.toNat ∨ t.dout0.toNat + 1 + k = s.cfg.w.bits) →
        ∃ (u : State) (m : Nat),
          (if 0 < k ∨ s.params.emitZeroWidthRaw = true then exec (.rcDecRaw k) t = .next u ∧ m = u.dout0.toNat
            else u = t ∧ m = 0) ∧
          (InputReady s.coder 25 → u.holding = false) ∧
          (u.holding = true → exec .resDec s = .next { s with holding := true }) ∧
          (u.holding = false → ∃ a : W64, exec .resDec s = .next { u with holding := s.holding, dout0 := a } ∧
            (a.toNat : Int) = (if s.cfg.w.bits < t.dout0.toNat then (s.din1.toNat : Int) + (2 ^ k + m)
              else (s.din1.toNat : Int) - (2 ^ k + m)) % 2 ^ s.cfg.w.bits))

/-- STEP_ENC predicts, maps the sample, codes the residual and pushes the mapped sample, exactly as PREDICT, MAP_FWD,
RES_ENC and FRONT_PUSH would, with the mapped sample in DOUT0 and the prediction in DOUT1 (45_pipeline.md R901). -/
def Obligations.StepEncChainsTheUnits : Prop :=
  ∀ s : State, s.faults.flag = false → s.coder.mode = .enc → s.model.valid = true → s.front.valid = true →
    CoderInv s.coder → ModelInv s.model → FrontInv s.front → s.model.s.toNat = 2 * s.cfg.w.bits + 1 →
    s.front.w = s.cfg.w → s.din0.toNat < 2 ^ s.cfg.w.bits →
    ∃ t₁ t₂ t₃ t₄, exec .predict s = .next t₁ ∧ exec .mapFwd s = .next t₂ ∧
      exec .resEnc { s with din0 := t₂.dout0, din1 := t₁.dout0 } = .next t₃ ∧
      exec .frontPush { t₃ with din0 := t₂.dout0 } = .next t₄ ∧
      exec .stepEnc s = .next { t₄ with din0 := s.din0, din1 := s.din1, dout0 := t₂.dout0, dout1 := t₁.dout0 }

/-- STEP_DEC predicts, decodes the residual, pushes the value and maps it back, exactly as PREDICT, RES_DEC, FRONT_PUSH and
MAP_INV would, with the sample's bits in DOUT0 and the prediction in DOUT1 (45_pipeline.md R902). It holds exactly if the
RES_DEC would (20_memory.md R203, R210), never with 25 bytes or the end mark at hand; that it has then changed nothing is
the model's choice (log 2). -/
def Obligations.StepDecChainsTheUnits : Prop :=
  ∀ s : State, s.faults.flag = false → s.coder.mode = .dec → s.model.valid = true → s.front.valid = true →
    CoderInv s.coder → ModelInv s.model → FrontInv s.front → s.model.s.toNat = 2 * s.cfg.w.bits + 1 →
    s.front.w = s.cfg.w →
    ∃ t₁ t₂, exec .predict s = .next t₁ ∧ exec .resDec { s with holding := false, din1 := t₁.dout0 } = .next t₂ ∧
      (InputReady s.coder 25 → t₂.holding = false) ∧
      (t₂.holding = true → exec .stepDec s = .next { s with holding := true }) ∧
      (t₂.holding = false → ∃ t₃ t₄, exec .frontPush { t₂ with din0 := t₂.dout0 } = .next t₃ ∧
        exec .mapInv { t₃ with din0 := t₂.dout0 } = .next t₄ ∧
        exec .stepDec s = .next { t₄ with
          holding := s.holding, din0 := s.din0, din1 := s.din1, dout1 := t₁.dout0 })

/-- The round-trip law of the block (45_pipeline.md R908, over any mirrored run, 70_reset_and_hazards.md R1210): a run of
bits, raw fields, symbols, residuals and samples, with any commands both sides issue alike among them (a model, front,
map, CSR or predictor command), that ends without a fault, finished and decoded by its mirror on exactly the bytes
emitted and the end mark, returns every coded value, every residual's value and every sample's bit pattern in order, with
clean flags. A run that builds its model itself, by QSM_INIT, starts with legal configuration CSRs. -/
def Obligations.MirrorBlockRunReturnsTheSamples : Prop :=
  ∀ (ops : List BlockOp) (e d e₁ e₂ e₃ : State), e.faults.flag = false → d.faults.flag = false →
    ModelOk e.model → d.model = e.model → d.front = e.front → d.cfg = e.cfg → d.params = e.params →
    (∀ op ∈ ops, op.Mirrored) → (CsrsLegal e.cfg ∨ ∀ a b, .both .qsmInit a b ∉ ops) → d.coder.inMark = true →
    exec .rcEncInit e = .next e₁ → encodeBlock ops e₁ = some e₂ → e₂.faults.flag = false →
    exec .rcFinish e₂ = .next e₃ → e₃.coder.outstream = e.coder.outstream ++ d.coder.instream →
    ∃ d₁ d₂, exec .rcDecInit d = .next d₁ ∧
      decodeBlock ops d₁ = some (ops.flatMap BlockOp.returned, d₂) ∧
      d₂.faults.flag = false ∧ d₂.coder.eofErr = false ∧ d₂.coder.corrupt = false ∧ d₂.coder.instream = []

/-- Neighbour correctness on the encoder side (45_pipeline.md R904): under the schedule of R903, when the step for `(x, y, z)`
begins, each of the seven causal offsets reads the mapped value of the sample at that offset, or the zero mapping where
the offset leaves the field. -/
def Obligations.ScheduleMakesTheNeighboursCausal : Prop :=
  ∀ (s : State) (slices : List (List (List W64))) (x y z : Nat), s.faults.flag = false → s.coder.mode = .enc →
    s.model.valid = true → CoderInv s.coder → ModelInv s.model → s.model.s.toNat = 2 * s.cfg.w.bits + 1 →
    slotsNeeded s.cfg ≤ s.params.frontMaxSlots →
    (∀ rows ∈ slices, rows.length = s.cfg.ny.toNat ∧ ∀ row ∈ rows, row.length = s.cfg.nx.toNat ∧
      ∀ v ∈ row, v.toNat < 2 ^ s.cfg.w.bits) →
    x < s.cfg.nx.toNat → y < s.cfg.ny.toNat → z < slices.length →
    ∃ t, encodeBlock (scheduleUpTo slices x y z) s = some t ∧ t.faults.flag = false ∧
      ∀ i j k : Bool, (i || j || k) = true →
        exec (.frontAt i j k) t = .next { t with
          dout0 := if i.toNat ≤ x ∧ j.toNat ≤ y ∧ k.toNat ≤ z
            then mapForwardW s.cfg.w (sampleAt slices (x - i.toNat) (y - j.toNat) (z - k.toNat))
            else BitVec.ofNat 64 (2 ^ (s.cfg.w.bits - 1)) }

/-! ### Invariants every step keeps -/

/-- Every step keeps the RW CSRs at legal values (10_state.md R122), and the fault registers at a cause of 1 to 9 while
FAULT = 1 and at 0 while it is 0 (10_state.md R124, 60_exceptions.md R1102). -/
def Obligations.StepKeepsTheRegistersLegal : Prop :=
  ∀ s t : State, step s = .next t →
    (CsrsLegal s.cfg → CsrsLegal t.cfg) ∧ (FaultRegsOk s.faults → FaultRegsOk t.faults)

/-- Every step keeps the model's invariants (42_qsmodel.md R615), from every state with a legal configuration. That the
search table has its 129 entries before QSM_INIT is the model's choice (log 5). -/
def Obligations.StepKeepsTheModelInvariants : Prop :=
  ∀ s t : State, CsrsLegal s.cfg → ModelOk s.model → step s = .next t → ModelOk t.model

/-- Every step keeps the coder's invariants `RANGE ≥ 2^16` and `LOW + RANGE ≤ 2^32` (41_range_coder.md R504), on any
stream, valid or corrupt. -/
def Obligations.StepKeepsTheCoderInvariants : Prop :=
  ∀ s t : State, CoderInv s.coder → ModelOk s.model → step s = .next t → CoderInv t.coder

/-- Every step keeps the front's invariants: the geometry and the slots' width of 44_front.md R800 to R802, and the ring in
its canonical form inside the mask. How the ring is held, and so its canonical form, is the model's choice (log 15). -/
def Obligations.StepKeepsTheFrontInvariants : Prop :=
  ∀ s t : State, FrontOk s.front → step s = .next t → FrontOk t.front

/-- All the invariants hold of the state after reset. That the search table has its 129 entries before QSM_INIT is the
model's choice (log 5), as is every value before its unit's init (logs 5, 6). -/
def Obligations.ResetHasTheInvariants : Prop :=
  CsrsLegal State.reset.cfg ∧ ModelOk State.reset.model ∧ CoderInv State.reset.coder ∧ FrontOk State.reset.front ∧
    FaultRegsOk State.reset.faults

/-! ### What no other command may change -/

/-- RC_MODE is set to ENC by RC_ENC_INIT, to DEC by RC_DEC_INIT, to DONE by RC_FINISH, to IDLE by RESET, and "No other
command writes it" (10_state.md R104); EOF_ERR and CORRUPT are cleared only by the two init commands and RESET (R108,
R109). -/
def Obligations.OnlyInitsFinishAndResetSetTheMode : Prop :=
  ∀ (i : Instr) (s t : State), exec i s = .next t →
    (t.coder.mode ≠ s.coder.mode →
      (i = .rcEncInit ∧ t.coder.mode = .enc) ∨ (i = .rcDecInit ∧ t.coder.mode = .dec) ∨
      (i = .rcFinish ∧ t.coder.mode = .done) ∨ (i = .reset ∧ t.coder.mode = .idle)) ∧
    (s.coder.eofErr = true → t.coder.eofErr = false → i = .rcEncInit ∨ i = .rcDecInit ∨ i = .reset) ∧
    (s.coder.corrupt = true → t.coder.corrupt = false → i = .rcEncInit ∨ i = .rcDecInit ∨ i = .reset)

/-- OUTSTREAM only grows at its end but for RESET, and only encode commands append to it (20_memory.md R201, R211);
INSTREAM only loses bytes at its head but for RESET, and only decode commands take them (R202, R203). -/
def Obligations.StreamsKeepTheirOrder : Prop :=
  ∀ (i : Instr) (s t : State), exec i s = .next t → i ≠ .reset →
    (∃ out, t.coder.outstream = s.coder.outstream ++ out ∧ (needsEnc i = false → out = [])) ∧
    (∃ n, t.coder.instream = s.coder.instream.drop n ∧ (takesInput i = false → n = 0)) ∧
    t.coder.inMark = s.coder.inMark

/-- "no command writes" DIN0 and DIN1, and DOUT0 and DOUT1 are written only by the commands 30_encoding.md R303 lists for
them, and RESET (10_state.md R102). That no command changes the parameters (log 7), what the host will do, or the port
(log 1) is said of the model's own fields and is the model's choice; so is that RESET writes DOUT0 and DOUT1 (log 4). -/
def Obligations.OperandsAndResultsAreWrittenAsListed : Prop :=
  ∀ (i : Instr) (s t : State), exec i s = .next t →
    t.din0 = s.din0 ∧ t.din1 = s.din1 ∧ t.params = s.params ∧ t.host = s.host ∧ t.port = s.port ∧
    (t.dout0 ≠ s.dout0 → (∃ c, i = .csrRead c) ∨ (∃ n, i = .rcDecRaw n) ∨ (∃ x y z, i = .frontAt x y z) ∨
      i ∈ [.reset, .rcDecBit, .rcDecSym, .qsmEnc, .qsmDec, .mapFwd, .mapInv, .predict, .resDec, .stepEnc, .stepDec]) ∧
    (t.dout1 ≠ s.dout1 → i ∈ [.reset, .qsmEnc, .qsmDec, .stepEnc, .stepDec])

/-- Each unit's state is written only by the commands that work on the unit, and RESET: the latched model parameters by
QSM_INIT only (10_state.md R112), the front's geometry by FRONT_INIT only (R118), the RW CSRs by CSR_WRITE only (R122),
the model, the front and the coder by their own commands (R127, R129). -/
def Obligations.UnitsChangeOnlyByTheirCommands : Prop :=
  ∀ (i : Instr) (s t : State), exec i s = .next t → i ≠ .reset →
    (t.cfg ≠ s.cfg → ∃ c, i = .csrWrite c) ∧
    ((t.model.s, t.model.bits, t.model.period, t.model.valid) ≠ (s.model.s, s.model.bits, s.model.period, s.model.valid) →
      i = .qsmInit) ∧
    (t.model ≠ s.model → i = .qsmInit ∨ needsModel i = true) ∧
    (t.front ≠ { s.front with idx := t.front.idx, ring := t.front.ring } → i = .frontInit) ∧
    (t.front ≠ s.front → i ∈ [.frontInit, .frontPush, .stepEnc, .stepDec] ∨ ∃ x y z, i = .frontAdvance x y z) ∧
    (t.coder ≠ s.coder → i = .rcEncInit ∨ i = .rcDecInit ∨ needsEnc i = true ∨ needsDec i = true)
end

