-- ==== Sys2Proof/Laws/State.lean ====
section
/-! SUPPORT. One lemma per field for each named update of the state and its parts, so that no proof unfolds one. -/

namespace Sys2Proof.Laws

open Sys2Proof.Machine

/-! ### The whole state: Reset (70_reset_and_hazards.md R1200), the port, the fault action, a hold -/

@[simp] theorem resetBlock_params (s : State) : (resetBlock s).params = s.params := rfl
@[simp] theorem resetBlock_host (s : State) : (resetBlock s).host = s.host := rfl
@[simp] theorem resetBlock_port (s : State) : (resetBlock s).port = s.port := rfl
@[simp] theorem resetBlock_holding (s : State) : (resetBlock s).holding = false := rfl
@[simp] theorem resetBlock_din0 (s : State) : (resetBlock s).din0 = s.din0 := rfl
@[simp] theorem resetBlock_din1 (s : State) : (resetBlock s).din1 = s.din1 := rfl
@[simp] theorem resetBlock_dout0 (s : State) : (resetBlock s).dout0 = 0 := rfl
@[simp] theorem resetBlock_dout1 (s : State) : (resetBlock s).dout1 = 0 := rfl
@[simp] theorem resetBlock_coder (s : State) : (resetBlock s).coder = Coder.reset := rfl
@[simp] theorem resetBlock_model (s : State) : (resetBlock s).model = Model.reset := rfl
@[simp] theorem resetBlock_front (s : State) : (resetBlock s).front = Front.reset := rfl
@[simp] theorem resetBlock_cfg (s : State) : (resetBlock s).cfg = Csrs.reset := rfl
@[simp] theorem resetBlock_faults (s : State) : (resetBlock s).faults = FaultRegs.reset := rfl

@[simp] theorem withFetchWord_params (s : State) (n w : Nat) : (s.withFetchWord n w).params = s.params := rfl
@[simp] theorem withFetchWord_host (s : State) (n w : Nat) : (s.withFetchWord n w).host = s.host := rfl
@[simp] theorem withFetchWord_port (s : State) (n w : Nat) :
    (s.withFetchWord n w).port = some (BitVec.ofNat 32 (w % 2 ^ n)) := rfl
@[simp] theorem withFetchWord_holding (s : State) (n w : Nat) : (s.withFetchWord n w).holding = false := rfl
@[simp] theorem withFetchWord_din0 (s : State) (n w : Nat) : (s.withFetchWord n w).din0 = s.din0 := rfl
@[simp] theorem withFetchWord_din1 (s : State) (n w : Nat) : (s.withFetchWord n w).din1 = s.din1 := rfl
@[simp] theorem withFetchWord_dout0 (s : State) (n w : Nat) : (s.withFetchWord n w).dout0 = s.dout0 := rfl
@[simp] theorem withFetchWord_dout1 (s : State) (n w : Nat) : (s.withFetchWord n w).dout1 = s.dout1 := rfl
@[simp] theorem withFetchWord_coder (s : State) (n w : Nat) : (s.withFetchWord n w).coder = s.coder := rfl
@[simp] theorem withFetchWord_model (s : State) (n w : Nat) : (s.withFetchWord n w).model = s.model := rfl
@[simp] theorem withFetchWord_front (s : State) (n w : Nat) : (s.withFetchWord n w).front = s.front := rfl
@[simp] theorem withFetchWord_cfg (s : State) (n w : Nat) : (s.withFetchWord n w).cfg = s.cfg := rfl
@[simp] theorem withFetchWord_faults (s : State) (n w : Nat) : (s.withFetchWord n w).faults = s.faults := rfl

@[simp] theorem raiseFault_params (w : W32) (c : Cause) (s : State) :
    (raiseFault w c s).params = s.params := by
  unfold raiseFault; split <;> rfl
@[simp] theorem raiseFault_host (w : W32) (c : Cause) (s : State) :
    (raiseFault w c s).host = s.host := by
  unfold raiseFault; split <;> rfl
@[simp] theorem raiseFault_port (w : W32) (c : Cause) (s : State) :
    (raiseFault w c s).port = s.port := by
  unfold raiseFault; split <;> rfl
@[simp] theorem raiseFault_holding (w : W32) (c : Cause) (s : State) :
    (raiseFault w c s).holding = s.holding := by
  unfold raiseFault; split <;> rfl
@[simp] theorem raiseFault_din0 (w : W32) (c : Cause) (s : State) :
    (raiseFault w c s).din0 = s.din0 := by
  unfold raiseFault; split <;> rfl
@[simp] theorem raiseFault_din1 (w : W32) (c : Cause) (s : State) :
    (raiseFault w c s).din1 = s.din1 := by
  unfold raiseFault; split <;> rfl
@[simp] theorem raiseFault_dout0 (w : W32) (c : Cause) (s : State) :
    (raiseFault w c s).dout0 = s.dout0 := by
  unfold raiseFault; split <;> rfl
@[simp] theorem raiseFault_dout1 (w : W32) (c : Cause) (s : State) :
    (raiseFault w c s).dout1 = s.dout1 := by
  unfold raiseFault; split <;> rfl
@[simp] theorem raiseFault_coder (w : W32) (c : Cause) (s : State) :
    (raiseFault w c s).coder = s.coder := by
  unfold raiseFault; split <;> rfl
@[simp] theorem raiseFault_model (w : W32) (c : Cause) (s : State) :
    (raiseFault w c s).model = s.model := by
  unfold raiseFault; split <;> rfl
@[simp] theorem raiseFault_front (w : W32) (c : Cause) (s : State) :
    (raiseFault w c s).front = s.front := by
  unfold raiseFault; split <;> rfl
@[simp] theorem raiseFault_cfg (w : W32) (c : Cause) (s : State) :
    (raiseFault w c s).cfg = s.cfg := by
  unfold raiseFault; split <;> rfl

@[simp] theorem settlePort_params (s : State) :
    (settlePort s).params = s.params := by unfold settlePort; split <;> rfl
@[simp] theorem settlePort_host (s : State) : (settlePort s).host = s.host := by unfold settlePort; split <;> rfl
@[simp] theorem settlePort_holding (s : State) :
    (settlePort s).holding = s.holding := by unfold settlePort; split <;> rfl
@[simp] theorem settlePort_din0 (s : State) : (settlePort s).din0 = s.din0 := by unfold settlePort; split <;> rfl
@[simp] theorem settlePort_din1 (s : State) : (settlePort s).din1 = s.din1 := by unfold settlePort; split <;> rfl
@[simp] theorem settlePort_dout0 (s : State) : (settlePort s).dout0 = s.dout0 := by unfold settlePort; split <;> rfl
@[simp] theorem settlePort_dout1 (s : State) : (settlePort s).dout1 = s.dout1 := by unfold settlePort; split <;> rfl
@[simp] theorem settlePort_coder (s : State) : (settlePort s).coder = s.coder := by unfold settlePort; split <;> rfl
@[simp] theorem settlePort_model (s : State) : (settlePort s).model = s.model := by unfold settlePort; split <;> rfl
@[simp] theorem settlePort_front (s : State) : (settlePort s).front = s.front := by unfold settlePort; split <;> rfl
@[simp] theorem settlePort_cfg (s : State) : (settlePort s).cfg = s.cfg := by unfold settlePort; split <;> rfl
@[simp] theorem settlePort_faults (s : State) :
    (settlePort s).faults = s.faults := by unfold settlePort; split <;> rfl
@[simp] theorem settlePort_port (s : State) :
    (settlePort s).port = if s.holding then s.port else none := by
  unfold settlePort; split <;> rfl

@[simp] theorem settleEffect_some (s t : State) : settleEffect s (some t) = t := rfl
@[simp] theorem settleEffect_none (s : State) : settleEffect s none = { s with holding := true } := rfl
@[simp] theorem withCoder_some (s : State) (c : Coder) : withCoder s (some c) = some { s with coder := c } := rfl
@[simp] theorem withCoder_none (s : State) : withCoder s none = none := rfl
@[simp] theorem withCoderModel_some (s : State) (c : Coder) (m : Model) :
    withCoderModel s (some (c, m)) = some { s with coder := c, model := m } := rfl
@[simp] theorem withCoderModel_none (s : State) : withCoderModel s none = none := rfl

/-! ### The coder: one byte out (20_memory.md R201), a fresh start (41_range_coder.md R510, R511) -/

@[simp] theorem putByte_mode (b : Byte) (c : Coder) : (putByte b c).mode = c.mode := rfl
@[simp] theorem putByte_low (b : Byte) (c : Coder) : (putByte b c).low = c.low := rfl
@[simp] theorem putByte_range (b : Byte) (c : Coder) : (putByte b c).range = c.range := rfl
@[simp] theorem putByte_code (b : Byte) (c : Coder) : (putByte b c).code = c.code := rfl
@[simp] theorem putByte_eofErr (b : Byte) (c : Coder) : (putByte b c).eofErr = c.eofErr := rfl
@[simp] theorem putByte_corrupt (b : Byte) (c : Coder) : (putByte b c).corrupt = c.corrupt := rfl
@[simp] theorem putByte_bytesOut (b : Byte) (c : Coder) : (putByte b c).bytesOut = c.bytesOut + 1 := rfl
@[simp] theorem putByte_bytesIn (b : Byte) (c : Coder) : (putByte b c).bytesIn = c.bytesIn := rfl
@[simp] theorem putByte_instream (b : Byte) (c : Coder) : (putByte b c).instream = c.instream := rfl
@[simp] theorem putByte_inMark (b : Byte) (c : Coder) : (putByte b c).inMark = c.inMark := rfl
@[simp] theorem putByte_outstream (b : Byte) (c : Coder) : (putByte b c).outstream = c.outstream ++ [b] := rfl

@[simp] theorem freshCoder_mode (m : RcMode) (c : Coder) : (freshCoder m c).mode = m := rfl
@[simp] theorem freshCoder_low (m : RcMode) (c : Coder) : (freshCoder m c).low = 0 := rfl
@[simp] theorem freshCoder_range (m : RcMode) (c : Coder) : (freshCoder m c).range = 0xFFFFFFFF := rfl
@[simp] theorem freshCoder_code (m : RcMode) (c : Coder) : (freshCoder m c).code = 0 := rfl
@[simp] theorem freshCoder_eofErr (m : RcMode) (c : Coder) : (freshCoder m c).eofErr = false := rfl
@[simp] theorem freshCoder_corrupt (m : RcMode) (c : Coder) : (freshCoder m c).corrupt = false := rfl
@[simp] theorem freshCoder_bytesOut (m : RcMode) (c : Coder) : (freshCoder m c).bytesOut = c.bytesOut := rfl
@[simp] theorem freshCoder_bytesIn (m : RcMode) (c : Coder) : (freshCoder m c).bytesIn = c.bytesIn := rfl
@[simp] theorem freshCoder_instream (m : RcMode) (c : Coder) : (freshCoder m c).instream = c.instream := rfl
@[simp] theorem freshCoder_inMark (m : RcMode) (c : Coder) : (freshCoder m c).inMark = c.inMark := rfl
@[simp] theorem freshCoder_outstream (m : RcMode) (c : Coder) : (freshCoder m c).outstream = c.outstream := rfl

/-! ### The model: latching (42_qsmodel.md R601), the search table (R608) -/

@[simp] theorem qsmLatch_valid (k : Csrs) (m : Model) : (qsmLatch k m).valid = m.valid := rfl
@[simp] theorem qsmLatch_s (k : Csrs) (m : Model) : (qsmLatch k m).s = k.qsmS.setWidth 32 := rfl
@[simp] theorem qsmLatch_bits (k : Csrs) (m : Model) : (qsmLatch k m).bits = k.qsmBits.setWidth 5 := rfl
@[simp] theorem qsmLatch_period (k : Csrs) (m : Model) : (qsmLatch k m).period = k.qsmPeriod.setWidth 32 := rfl
@[simp] theorem qsmLatch_symf (k : Csrs) (m : Model) : (qsmLatch k m).symf = m.symf := rfl
@[simp] theorem qsmLatch_rescale (k : Csrs) (m : Model) : (qsmLatch k m).rescale = m.rescale := rfl
@[simp] theorem qsmLatch_incr (k : Csrs) (m : Model) : (qsmLatch k m).incr = m.incr := rfl
@[simp] theorem qsmLatch_left (k : Csrs) (m : Model) : (qsmLatch k m).left = m.left := rfl
@[simp] theorem qsmLatch_more (k : Csrs) (m : Model) : (qsmLatch k m).more = m.more := rfl

@[simp] theorem qsmRebuildSearch_valid (m : Model) : (qsmRebuildSearch m).valid = m.valid := rfl
@[simp] theorem qsmRebuildSearch_s (m : Model) : (qsmRebuildSearch m).s = m.s := rfl
@[simp] theorem qsmRebuildSearch_bits (m : Model) : (qsmRebuildSearch m).bits = m.bits := rfl
@[simp] theorem qsmRebuildSearch_period (m : Model) : (qsmRebuildSearch m).period = m.period := rfl
@[simp] theorem qsmRebuildSearch_symf (m : Model) : (qsmRebuildSearch m).symf = m.symf := rfl
@[simp] theorem qsmRebuildSearch_cumf (m : Model) : (qsmRebuildSearch m).cumf = m.cumf := rfl
@[simp] theorem qsmRebuildSearch_rescale (m : Model) : (qsmRebuildSearch m).rescale = m.rescale := rfl
@[simp] theorem qsmRebuildSearch_incr (m : Model) : (qsmRebuildSearch m).incr = m.incr := rfl
@[simp] theorem qsmRebuildSearch_left (m : Model) : (qsmRebuildSearch m).left = m.left := rfl
@[simp] theorem qsmRebuildSearch_more (m : Model) : (qsmRebuildSearch m).more = m.more := rfl

@[simp] theorem qsmGrow_valid (m : Model) : (qsmGrow m).valid = m.valid := by unfold qsmGrow; split <;> rfl
@[simp] theorem qsmGrow_s (m : Model) : (qsmGrow m).s = m.s := by unfold qsmGrow; split <;> rfl
@[simp] theorem qsmGrow_bits (m : Model) : (qsmGrow m).bits = m.bits := by unfold qsmGrow; split <;> rfl
@[simp] theorem qsmGrow_period (m : Model) : (qsmGrow m).period = m.period := by unfold qsmGrow; split <;> rfl
@[simp] theorem qsmGrow_symf (m : Model) : (qsmGrow m).symf = m.symf := by unfold qsmGrow; split <;> rfl
@[simp] theorem qsmGrow_cumf (m : Model) : (qsmGrow m).cumf = m.cumf := by unfold qsmGrow; split <;> rfl
@[simp] theorem qsmGrow_search (m : Model) : (qsmGrow m).search = m.search := by unfold qsmGrow; split <;> rfl
@[simp] theorem qsmGrow_incr (m : Model) : (qsmGrow m).incr = m.incr := by unfold qsmGrow; split <;> rfl
@[simp] theorem qsmGrow_left (m : Model) : (qsmGrow m).left = m.left := by unfold qsmGrow; split <;> rfl
@[simp] theorem qsmGrow_more (m : Model) : (qsmGrow m).more = m.more := by unfold qsmGrow; split <;> rfl

@[simp] theorem qsmRebuild_valid (m : Model) : (qsmRebuild m).valid = m.valid := by unfold qsmRebuild; split <;> rfl
@[simp] theorem qsmRebuild_s (m : Model) : (qsmRebuild m).s = m.s := by unfold qsmRebuild; split <;> rfl
@[simp] theorem qsmRebuild_bits (m : Model) : (qsmRebuild m).bits = m.bits := by unfold qsmRebuild; split <;> rfl
@[simp] theorem qsmRebuild_period (m : Model) :
    (qsmRebuild m).period = m.period := by unfold qsmRebuild; split <;> rfl
@[simp] theorem qsmRebuild_search (m : Model) :
    (qsmRebuild m).search = m.search := by unfold qsmRebuild; split <;> rfl
@[simp] theorem qsmRebuild_rescale (m : Model) :
    (qsmRebuild m).rescale = m.rescale := by unfold qsmRebuild; split <;> rfl
@[simp] theorem qsmUpdate_valid (m : Model) : (qsmUpdate m).valid = m.valid := by unfold qsmUpdate; split <;> simp
@[simp] theorem qsmUpdate_s (m : Model) : (qsmUpdate m).s = m.s := by unfold qsmUpdate; split <;> simp
@[simp] theorem qsmUpdate_bits (m : Model) : (qsmUpdate m).bits = m.bits := by unfold qsmUpdate; split <;> simp
@[simp] theorem qsmUpdate_period (m : Model) : (qsmUpdate m).period = m.period := by unfold qsmUpdate; split <;> simp
@[simp] theorem qsmReset_valid (m : Model) : (qsmReset m).valid = m.valid := by simp [qsmReset]
@[simp] theorem qsmReset_s (m : Model) : (qsmReset m).s = m.s := by simp [qsmReset]
@[simp] theorem qsmReset_bits (m : Model) : (qsmReset m).bits = m.bits := by simp [qsmReset]
@[simp] theorem qsmReset_period (m : Model) : (qsmReset m).period = m.period := by simp [qsmReset]
@[simp] theorem qsmTick_valid (sym : Nat) (m : Model) :
    (qsmTick sym m).valid = m.valid := by
  unfold qsmTick; dsimp only; split <;> simp
@[simp] theorem qsmTick_s (sym : Nat) (m : Model) :
    (qsmTick sym m).s = m.s := by
  unfold qsmTick; dsimp only; split <;> simp
@[simp] theorem qsmTick_bits (sym : Nat) (m : Model) :
    (qsmTick sym m).bits = m.bits := by
  unfold qsmTick; dsimp only; split <;> simp
@[simp] theorem qsmTick_period (sym : Nat) (m : Model) :
    (qsmTick sym m).period = m.period := by
  unfold qsmTick; dsimp only; split <;> simp

/-! ### The front: one push (44_front.md R802), a fresh front (R800) -/

@[simp] theorem frontPushValue_valid (v : W64) (f : Front) : (frontPushValue v f).valid = f.valid := rfl
@[simp] theorem frontPushValue_w (v : W64) (f : Front) : (frontPushValue v f).w = f.w := rfl
@[simp] theorem frontPushValue_dx (v : W64) (f : Front) : (frontPushValue v f).dx = f.dx := rfl
@[simp] theorem frontPushValue_dy (v : W64) (f : Front) : (frontPushValue v f).dy = f.dy := rfl
@[simp] theorem frontPushValue_dz (v : W64) (f : Front) : (frontPushValue v f).dz = f.dz := rfl
@[simp] theorem frontPushValue_mask (v : W64) (f : Front) : (frontPushValue v f).mask = f.mask := rfl
@[simp] theorem frontPushValue_zero (v : W64) (f : Front) : (frontPushValue v f).zero = f.zero := rfl
@[simp] theorem frontPushValue_idx (v : W64) (f : Front) : (frontPushValue v f).idx = f.idx + 1 := rfl
@[simp] theorem frontPushValue_ring (v : W64) (f : Front) :
    (frontPushValue v f).ring = Ring.write f.zero (f.idx &&& f.mask).toNat v f.ring := rfl

@[simp] theorem freshFront_valid (k : Csrs) : (freshFront k).valid = true := rfl
@[simp] theorem freshFront_w (k : Csrs) : (freshFront k).w = k.w := rfl
@[simp] theorem freshFront_dx (k : Csrs) : (freshFront k).dx = 1 := rfl
@[simp] theorem freshFront_dy (k : Csrs) : (freshFront k).dy = BitVec.ofNat 32 (strideY k.nx.toNat) := rfl
@[simp] theorem freshFront_dz (k : Csrs) : (freshFront k).dz = BitVec.ofNat 32 (strideZ k.nx.toNat k.ny.toNat) := rfl
@[simp] theorem freshFront_mask (k : Csrs) :
    (freshFront k).mask = BitVec.ofNat 32 (ringSize k.nx.toNat k.ny.toNat - 1) := rfl
@[simp] theorem freshFront_zero (k : Csrs) : (freshFront k).zero = mapForwardW k.w 0 := rfl
@[simp] theorem freshFront_idx (k : Csrs) : (freshFront k).idx = 0 := rfl
@[simp] theorem freshFront_ring (k : Csrs) : (freshFront k).ring = [] := rfl

@[simp] theorem frontPushZeros_valid (n : Nat) (f : Front) :
    (frontPushZeros n f).valid = f.valid := by
  induction n generalizing f with
  | zero => rfl
  | succ n ih => simp [frontPushZeros, ih]
@[simp] theorem frontPushZeros_w (n : Nat) (f : Front) :
    (frontPushZeros n f).w = f.w := by
  induction n generalizing f with
  | zero => rfl
  | succ n ih => simp [frontPushZeros, ih]
@[simp] theorem frontPushZeros_dx (n : Nat) (f : Front) :
    (frontPushZeros n f).dx = f.dx := by
  induction n generalizing f with
  | zero => rfl
  | succ n ih => simp [frontPushZeros, ih]
@[simp] theorem frontPushZeros_dy (n : Nat) (f : Front) :
    (frontPushZeros n f).dy = f.dy := by
  induction n generalizing f with
  | zero => rfl
  | succ n ih => simp [frontPushZeros, ih]
@[simp] theorem frontPushZeros_dz (n : Nat) (f : Front) :
    (frontPushZeros n f).dz = f.dz := by
  induction n generalizing f with
  | zero => rfl
  | succ n ih => simp [frontPushZeros, ih]
@[simp] theorem frontPushZeros_mask (n : Nat) (f : Front) :
    (frontPushZeros n f).mask = f.mask := by
  induction n generalizing f with
  | zero => rfl
  | succ n ih => simp [frontPushZeros, ih]
@[simp] theorem frontPushZeros_zero (n : Nat) (f : Front) :
    (frontPushZeros n f).zero = f.zero := by
  induction n generalizing f with
  | zero => rfl
  | succ n ih => simp [frontPushZeros, ih]

end Sys2Proof.Laws
end

