-- ==== Sys2Proof/Laws/Ops.lean ====
section
/-! SUPPORT. For each shared operation one lemma that says once everything it can do, and the laws of the storage: the
tables, the ring and its canonical form, the byte streams. -/

namespace Sys2Proof.Laws

open Sys2Proof.Machine

/-! ### Faults and checks (60_exceptions.md R1101, R1103, R1104) -/

/-- The fault action writes the fault registers of a block that is not halted, and nothing else. -/
theorem raiseFault_cases (w : W32) (c : Cause) (s : State) :
    (s.faults.flag = true ∧ raiseFault w c s = s) ∨
      (s.faults.flag = false ∧
        raiseFault w c s = { s with faults := { flag := true, cause := causeCode c, cmd := w } }) := by
  cases h : s.faults.flag <;> simp [raiseFault, h]

theorem causeCode_injective {a b : Cause} (h : causeCode a = causeCode b) : a = b := by
  cases a <;> cases b <;> first | rfl | cases h

@[simp] theorem firstFault_nil : firstFault [] = none := rfl

@[simp] theorem firstFault_cons_true (c : Cause) (rest : List Check) : firstFault ((true, c) :: rest) = some c := rfl

@[simp] theorem firstFault_cons_false (c : Cause) (rest : List Check) :
    firstFault ((false, c) :: rest) = firstFault rest := rfl

/-- No fault is reported exactly when no check applies. -/
theorem firstFault_eq_none {checks : List Check} : firstFault checks = none ↔ ∀ c ∈ checks, c.1 = false := by
  induction checks with
  | nil => simp
  | cons c rest ih => obtain ⟨bad, cause⟩ := c; cases bad <;> simp [ih]

/-- The fault reported is the first check that applies (R1103). -/
theorem firstFault_eq_some {checks : List Check} {cause : Cause} :
    firstFault checks = some cause ↔
      ∃ before after, checks = before ++ (true, cause) :: after ∧ ∀ c ∈ before, c.1 = false := by
  induction checks with
  | nil => simp
  | cons c rest ih =>
    obtain ⟨bad, k⟩ := c
    cases bad with
    | true =>
      constructor
      · intro h
        cases h
        exact ⟨[], rest, rfl, by simp⟩
      · rintro ⟨before, after, h, hb⟩
        cases before with
        | nil => cases h; rfl
        | cons b bs => cases h; simpa using hb (true, k) (by simp)
    | false =>
      rw [firstFault_cons_false, ih]
      constructor
      · rintro ⟨before, after, rfl, hb⟩
        exact ⟨(false, k) :: before, after, rfl, by simpa using hb⟩
      · rintro ⟨before, after, h, hb⟩
        cases before with
        | nil => cases h
        | cons b bs => cases h; exact ⟨bs, after, rfl, fun c hc => hb c (by simp [hc])⟩

/-! ### Running a command -/

/-- Everything `command` can do: nothing while halted; the first fault; a hold; the effect. -/
theorem command_cases {i : Instr} {s t : State} {checks : List Check} {effect : State → Option State}
    (h : command i s checks effect = .next t) :
    (s.faults.flag = true ∧ t = s) ∨
    (s.faults.flag = false ∧ ∃ c, firstFault checks = some c ∧
      t = { s with faults := { flag := true, cause := causeCode c, cmd := encode i } }) ∨
    (s.faults.flag = false ∧ firstFault checks = none ∧ effect s = none ∧ t = { s with holding := true }) ∨
    (s.faults.flag = false ∧ firstFault checks = none ∧ effect s = some t) := by
  unfold command at h
  cases hf : s.faults.flag with
  | true => simp only [hf, if_true] at h; cases h; exact .inl ⟨rfl, rfl⟩
  | false =>
    simp only [hf, Bool.false_eq_true, if_false] at h
    cases hc : firstFault checks with
    | some c =>
      simp only [hc, raiseFault, hf, Bool.false_eq_true, if_false] at h
      cases h
      exact .inr (.inl ⟨rfl, c, rfl, rfl⟩)
    | none =>
      simp only [hc] at h
      cases he : effect s with
      | none => simp only [he, settleEffect_none] at h; cases h; exact .inr (.inr (.inl ⟨rfl, rfl, rfl, rfl⟩))
      | some u => simp only [he, settleEffect_some] at h; cases h; exact .inr (.inr (.inr ⟨rfl, rfl, rfl⟩))

/-- `command` always has a next state. -/
theorem command_next (i : Instr) (s : State) (checks : List Check) (effect : State → Option State) :
    ∃ t, command i s checks effect = .next t := by
  unfold command
  split
  · exact ⟨_, rfl⟩
  · split <;> exact ⟨_, rfl⟩

theorem command_halted {i : Instr} {s : State} {checks : List Check} {effect : State → Option State}
    (h : s.faults.flag = true) : command i s checks effect = .next s := by
  simp [command, h]

theorem command_faults {i : Instr} {s : State} {checks : List Check} {effect : State → Option State} {c : Cause}
    (h : s.faults.flag = false) (hc : firstFault checks = some c) :
    command i s checks effect =
      .next { s with faults := { flag := true, cause := causeCode c, cmd := encode i } } := by
  simp [command, h, hc, raiseFault]

theorem command_holds {i : Instr} {s : State} {checks : List Check} {effect : State → Option State}
    (h : s.faults.flag = false) (hc : firstFault checks = none) (he : effect s = none) :
    command i s checks effect = .next { s with holding := true } := by
  simp [command, h, hc, he]

theorem command_completes {i : Instr} {s t : State} {checks : List Check} {effect : State → Option State}
    (h : s.faults.flag = false) (hc : firstFault checks = none) (he : effect s = some t) :
    command i s checks effect = .next t := by
  simp [command, h, hc, he]

/-! ### The step and the host (20_memory.md R203, R210) -/

/-- Everything one host action can do. -/
theorem hostStep_cases {s t : State} (h : hostStep s = .next t) :
    t = s ∨
    (∃ b rest, s.host = .supply b :: rest ∧ s.coder.inMark = false ∧ t = { s with
      host := rest, holding := false, coder := { s.coder with instream := s.coder.instream ++ [b] } }) ∨
    (∃ rest, s.host = .endMark :: rest ∧ s.coder.inMark = false ∧
      t = { s with host := rest, holding := false, coder := { s.coder with inMark := true } }) ∨
    (∃ rest, s.host = .resetInput :: rest ∧ t = { resetBlock s with host := rest, port := none }) ∨
    (∃ cmd a b rest, s.host = .issue cmd a b :: rest ∧ s.port = none ∧
      t = { s with host := rest, port := some cmd, holding := false, din0 := a, din1 := b }) := by
  unfold hostStep at h
  split at h
  · cases h; exact .inl rfl
  · next b rest hh =>
    split at h
    · cases h
    · next hm => cases h; exact .inr (.inl ⟨b, rest, hh, by simpa using hm, rfl⟩)
  · next rest hh =>
    split at h
    · cases h
    · next hm => cases h; exact .inr (.inr (.inl ⟨rest, hh, by simpa using hm, rfl⟩))
  · next rest hh => cases h; exact .inr (.inr (.inr (.inl ⟨rest, hh, rfl⟩)))
  · next cmd a b rest hh =>
    split at h
    · cases h; exact .inl rfl
    · next hp => cases h; exact .inr (.inr (.inr (.inr ⟨cmd, a, b, rest, hh, hp, rfl⟩)))

/-- The command to run is the one in the port of a state that does not hold. -/
theorem fetch_eq_some {s : State} {w : W32} : fetch s = some w ↔ s.holding = false ∧ s.port = some w := by
  cases h : s.holding <;> simp [fetch, h]

/-- Everything one step can do: a host action, a rejected word, or the decoded command. -/
theorem step_cases {s t : State} (h : step s = .next t) :
    (fetch s = none ∧ hostStep s = .next t) ∨
    (∃ w c, fetch s = some w ∧ ((decode w = .illegalOpcode ∧ c = .illegalOpcode) ∨
      (decode w = .reservedField ∧ c = .reservedField)) ∧ t = settlePort (raiseFault w c s)) ∨
    (∃ w i u, fetch s = some w ∧ decode w = .instr i ∧ exec i s = .next u ∧ t = settlePort u) := by
  unfold step at h
  split at h
  · next hf => exact .inl ⟨hf, h⟩
  · next w hf =>
    split at h
    · next hd => cases h; exact .inr (.inl ⟨w, _, hf, .inl ⟨hd, rfl⟩, rfl⟩)
    · next hd => cases h; exact .inr (.inl ⟨w, _, hf, .inr ⟨hd, rfl⟩, rfl⟩)
    · next i hd =>
      split at h
      · next u hu => cases h; exact .inr (.inr ⟨w, i, u, hf, hd, hu, rfl⟩)
      · cases h
      · cases h

/-! ### The byte streams (20_memory.md R201, R203) -/

/-- Everything `getByte` can do: the head of the queue, a zero at the end mark, or a hold. -/
theorem getByte_cases (c : Coder) :
    (∃ b rest, c.instream = b :: rest ∧
      getByte c = some (b, { c with instream := rest, bytesIn := c.bytesIn + 1 })) ∨
    (c.instream = [] ∧ c.inMark = true ∧ getByte c = some (0, { c with eofErr := true })) ∨
    (c.instream = [] ∧ c.inMark = false ∧ getByte c = none) := by
  unfold getByte
  cases hi : c.instream with
  | cons b rest => exact .inl ⟨b, rest, rfl, rfl⟩
  | nil => cases hm : c.inMark <;> simp

/-- In mode ENC a shifted byte goes to the output stream (41_range_coder.md R501). -/
theorem rcShiftByte_enc {c : Coder} (h : c.mode = .enc) :
    rcShiftByte c = some { putByte (c.low.extractLsb' 24 8) c with low := c.low <<< 8 } := by
  simp [rcShiftByte, h]

/-- In every other mode a byte is taken into `CODE` from below (41_range_coder.md R501). -/
theorem rcShiftByte_dec {c : Coder} (h : c.mode ≠ .enc) :
    rcShiftByte c = (getByte c).map fun r =>
      { r.2 with code := (r.2.code <<< 8) ||| r.1.setWidth 32, low := r.2.low <<< 8 } := by
  unfold rcShiftByte
  split
  · contradiction
  · cases getByte c <;> rfl

@[simp] theorem rcShift_zero (c : Coder) : rcShift 0 c = some c := rfl

/-- Shifts compose, with the hold of the first a hold of the whole. -/
theorem rcShift_add (m n : Nat) (c : Coder) : rcShift (m + n) c = (rcShift m c).bind (rcShift n) := by
  induction m generalizing c with
  | zero => simp
  | succ m ih =>
    rw [Nat.succ_add, rcShift, rcShift]
    cases rcShiftByte c with
    | none => rfl
    | some d => exact ih d

/-! ### The model tables -/

theorem tableAt_of_some {t : ModelTable} {xs : List W32} {i : Nat} {v : W32} (h : xs[i]? = some v) :
    tableAt t xs i = v := by
  simp [tableAt, h]

/-- Within the table the entry is the list's, whichever table it is. -/
theorem tableAt_eq_getElem {t : ModelTable} {xs : List W32} {i : Nat} (h : i < xs.length) : tableAt t xs i = xs[i] :=
  tableAt_of_some (List.getElem?_eq_getElem h)

@[simp] theorem tableSet_length (xs : List W32) (i : Nat) (v : W32) : (tableSet xs i v).length = xs.length :=
  List.length_set

theorem tableAt_tableSet_same {t : ModelTable} {xs : List W32} {i : Nat} {v : W32} (h : i < xs.length) :
    tableAt t (tableSet xs i v) i = v :=
  tableAt_of_some (by simp [tableSet, h])

theorem tableAt_tableSet_other {t : ModelTable} {xs : List W32} {i j : Nat} {v : W32} (h : j ≠ i) :
    tableAt t (tableSet xs i v) j = tableAt t xs j := by
  simp [tableAt, tableSet, List.getElem?_set_ne (Ne.symm h)]

@[simp] theorem tableFill_length (lo hi : Nat) (v : W32) (j : Nat) (xs : List W32) :
    (tableFill lo hi v j xs).length = xs.length := by
  induction xs generalizing j with
  | nil => rfl
  | cons x xs ih => simp [tableFill, ih]

/-- A fill writes the entries of its range and no other. -/
theorem tableFill_getElem? (lo hi : Nat) (v : W32) (j : Nat) (xs : List W32) (i : Nat) :
    (tableFill lo hi v j xs)[i]? = xs[i]?.map fun x => if lo ≤ j + i ∧ j + i ≤ hi then v else x := by
  induction xs generalizing j i with
  | nil => simp [tableFill]
  | cons x xs ih =>
    cases i with
    | zero => simp [tableFill]
    | succ i => simp [tableFill, ih, Nat.add_comm, Nat.add_left_comm]

theorem tableAt_tableFill {t : ModelTable} {lo hi : Nat} {v : W32} {xs : List W32} {i : Nat} (h : i < xs.length) :
    tableAt t (tableFill lo hi v 0 xs) i = if lo ≤ i ∧ i ≤ hi then v else tableAt t xs i := by
  rw [tableAt, tableAt, tableFill_getElem?, List.getElem?_eq_getElem h]
  simp

@[simp] theorem searchSweep_length (cumf : List W32) (sh i : Nat) (table : List W32) :
    (searchSweep cumf sh i table).length = table.length := by
  induction i generalizing table with
  | zero => rfl
  | succ i ih => simp [searchSweep, ih]

@[simp] theorem rebuildSweep_cumf_length (total : W32) (xs : List W32) :
    (rebuildSweep total xs).cumf.length = xs.length := by
  induction xs with
  | nil => rfl
  | cons x xs ih => simp [rebuildSweep, ih]

@[simp] theorem rebuildSweep_symf (total : W32) (xs : List W32) : (rebuildSweep total xs).symf = xs.map halveOdd := by
  induction xs with
  | nil => rfl
  | cons x xs ih => simp [rebuildSweep, ih]

/-! ### The front ring and its canonical form -/

@[simp] theorem Ring_read_nil (zero : W64) (k : Nat) : Ring.read zero k [] = zero := rfl

/-- A ring that is canonical above a slot is canonical above every lower one. -/
theorem Ring_wfAbove_weaken {zero : W64} {a b : Nat} {r : Ring} (hab : a ≤ b)
    (h : Ring.wfAbove zero (some b) r = true) : Ring.wfAbove zero (some a) r = true := by
  cases r with
  | nil => rfl
  | cons e rest =>
    simp only [Ring.wfAbove, Bool.and_eq_true, decide_eq_true_eq] at h ⊢
    exact ⟨⟨by omega, h.1.2⟩, h.2⟩

theorem Ring_wf_of_wfAbove {zero : W64} {a : Nat} {r : Ring} (h : Ring.wfAbove zero (some a) r = true) :
    Ring.wf zero r = true := by
  cases r with
  | nil => rfl
  | cons e rest =>
    simp only [Ring.wf, Ring.wfAbove, Bool.and_eq_true, Bool.true_and] at h ⊢
    exact ⟨h.1.2, h.2⟩

theorem Ring_wf_cons {zero : W64} {a : Nat} {x : W64} {rest : Ring} :
    Ring.wf zero ((a, x) :: rest) = true ↔ x ≠ zero ∧ Ring.wfAbove zero (some a) rest = true := by
  simp [Ring.wf, Ring.wfAbove]

/-- A slot at or below the floor of a canonical ring is not listed. -/
theorem Ring_read_below {zero : W64} {b k : Nat} {r : Ring} (h : Ring.wfAbove zero (some b) r = true) (hk : k ≤ b) :
    Ring.read zero k r = zero := by
  induction r generalizing b with
  | nil => rfl
  | cons e rest ih =>
    obtain ⟨a, x⟩ := e
    simp only [Ring.wfAbove, Bool.and_eq_true, decide_eq_true_eq] at h
    rw [Ring.read, if_neg (by omega)]
    exact ih h.2 (by omega)

/-- A write keeps the canonical form above any floor below the slot written. -/
theorem Ring_write_wfAbove {zero : W64} {b k : Nat} {v : W64} {r : Ring} (hb : b < k)
    (h : Ring.wfAbove zero (some b) r = true) : Ring.wfAbove zero (some b) (Ring.write zero k v r) = true := by
  induction r generalizing b with
  | nil =>
    unfold Ring.write
    split
    · rfl
    · next hv => simp [Ring.wfAbove, hb, hv]
  | cons e rest ih =>
    obtain ⟨a, x⟩ := e
    have h' := h
    simp only [Ring.wfAbove, Bool.and_eq_true, decide_eq_true_eq] at h'
    obtain ⟨⟨hba, hx⟩, hrest⟩ := h'
    unfold Ring.write
    split
    · next hka =>
      split
      · exact h
      · next hv => simp [Ring.wfAbove, hb, hv, hka, hx, hrest]
    · next hka =>
      split
      · next hak =>
        split
        · exact Ring_wfAbove_weaken (Nat.le_of_lt hba) hrest
        · next hv => subst hak; simp [Ring.wfAbove, hba, hv, hrest]
      · next hak => simp [Ring.wfAbove, hba, hx, ih (show a < k by omega) hrest]

/-- Every write keeps the ring in its canonical form. -/
theorem Ring_write_wf {zero : W64} (k : Nat) (v : W64) {r : Ring} (h : Ring.wf zero r = true) :
    Ring.wf zero (Ring.write zero k v r) = true := by
  cases r with
  | nil =>
    unfold Ring.write
    split
    · rfl
    · next hv => simp [Ring.wf, Ring.wfAbove, hv]
  | cons e rest =>
    obtain ⟨a, x⟩ := e
    obtain ⟨hx, hrest⟩ := Ring_wf_cons.mp h
    unfold Ring.write
    split
    · next hka =>
      split
      · exact h
      · next hv => simp [Ring.wf, Ring.wfAbove, hv, hka, hx, hrest]
    · next hka =>
      split
      · next hak =>
        split
        · exact Ring_wf_of_wfAbove hrest
        · next hv => subst hak; exact Ring_wf_cons.mpr ⟨hv, hrest⟩
      · next hak => exact Ring_wf_cons.mpr ⟨hx, Ring_write_wfAbove (by omega) hrest⟩

/-- A slot just written reads as the value written. -/
theorem Ring_read_write_same {zero : W64} (k : Nat) (v : W64) {r : Ring} (h : Ring.wf zero r = true) :
    Ring.read zero k (Ring.write zero k v r) = v := by
  induction r with
  | nil => unfold Ring.write; split <;> simp_all [Ring.read]
  | cons e rest ih =>
    obtain ⟨a, x⟩ := e
    obtain ⟨hx, hrest⟩ := Ring_wf_cons.mp h
    unfold Ring.write
    split
    · next hka =>
      split
      · next hv =>
        rw [Ring.read, if_neg (by omega), Ring_read_below hrest (by omega), hv]
      · simp [Ring.read]
    · next hka =>
      split
      · next hak =>
        split
        · next hv => rw [Ring_read_below hrest (by omega), hv]
        · simp [Ring.read]
      · next hak => rw [Ring.read, if_neg hak]; exact ih (Ring_wf_of_wfAbove hrest)

/-- A write leaves every other slot alone. -/
theorem Ring_read_write_other {zero : W64} {k j : Nat} (v : W64) (r : Ring) (hjk : j ≠ k) :
    Ring.read zero j (Ring.write zero k v r) = Ring.read zero j r := by
  induction r with
  | nil => unfold Ring.write; split <;> simp [Ring.read, Ne.symm hjk]
  | cons e rest ih =>
    obtain ⟨a, x⟩ := e
    unfold Ring.write
    split
    · split
      · rfl
      · simp [Ring.read, Ne.symm hjk]
    · split
      · next hak =>
        split <;> simp [Ring.read, hak, Ne.symm hjk]
      · simp only [Ring.read, ih]

/-- An entry of a ring just written is the one written or was there before. -/
theorem Ring_mem_write {zero : W64} {k : Nat} {v : W64} {r : Ring} {e : Nat × W64} (h : e ∈ Ring.write zero k v r) :
    e = (k, v) ∨ e ∈ r := by
  induction r with
  | nil => unfold Ring.write at h; split at h <;> simp_all
  | cons d rest ih =>
    unfold Ring.write at h
    split at h
    · split at h <;> simp_all
    · split at h
      · split at h
        · exact .inr (List.mem_cons_of_mem _ h)
        · exact (List.mem_cons.mp h).imp_right (List.mem_cons_of_mem _)
      · obtain rfl | h := List.mem_cons.mp h
        · exact .inr (List.mem_cons_self ..)
        · exact (ih h).imp_right (List.mem_cons_of_mem _)

/-- A write inside the mask of a value that fits keeps the ring inside the mask, every value fitting. -/
theorem Ring_write_within {zero : W64} {m k : Nat} {p : W64 → Bool} {v : W64} {r : Ring} (hk : k ≤ m) (hv : p v = true)
    (h : Ring.within m p r = true) : Ring.within m p (Ring.write zero k v r) = true := by
  unfold Ring.within at h ⊢
  rw [List.all_eq_true] at h ⊢
  intro e he
  obtain rfl | he := Ring_mem_write he
  · simp [hk, hv]
  · exact h e he

/-- A push keeps the ring in its canonical form. -/
theorem frontPushValue_wf (v : W64) {f : Front} (h : Ring.wf f.zero f.ring = true) :
    Ring.wf (frontPushValue v f).zero (frontPushValue v f).ring = true :=
  Ring_write_wf _ _ h

/-- So does any number of pushes of the zero mapping. -/
theorem frontPushZeros_wf (n : Nat) {f : Front} (h : Ring.wf f.zero f.ring = true) :
    Ring.wf (frontPushZeros n f).zero (frontPushZeros n f).ring = true := by
  induction n generalizing f with
  | zero => exact h
  | succ n ih => exact ih (frontPushValue_wf _ h)

/-- A ring just built is in its canonical form. -/
theorem freshFront_wf (k : Csrs) : Ring.wf (freshFront k).zero (freshFront k).ring = true := rfl

/-- The ring of the state after reset is in its canonical form. -/
theorem reset_ring_wf : Ring.wf State.reset.front.zero State.reset.front.ring = true := rfl

/-- After a push the slot at the index before it reads as the value pushed. -/
theorem frontSlotValue_push_same (v : W64) {f : Front} (h : Ring.wf f.zero f.ring = true) :
    frontSlotValue (frontPushValue v f) (f.idx &&& f.mask).toNat = v :=
  Ring_read_write_same _ _ h

/-- After a push every other slot reads as before. -/
theorem frontSlotValue_push_other (v : W64) (f : Front) {k : Nat} (hk : k ≠ (f.idx &&& f.mask).toNat) :
    frontSlotValue (frontPushValue v f) k = frontSlotValue f k :=
  Ring_read_write_other _ _ hk

end Sys2Proof.Laws
end

