-- ==== Sys2Proof/Laws/PerInstr.lean ====
section
/-! SUPPORT. What is said of every command, one lemma per command. -/

namespace Sys2Proof.Laws

/-- The command's word selects the command's own row of the opcode map, `(CMD & mask) = match` (30_encoding.md R304). -/
def RowMatch.Statement (i : Instr) : Prop := i.wellFormed = true → encode i &&& (tableRow i).2 = (tableRow i).1

/-- A word is its row's match once the bits under the mask are the opcode's: the immediate of `k` bits lies outside the
mask. -/
theorem commandWord_masked {opc imm k : Nat} (hk : k ≤ 24) (hi : imm < 2 ^ k) :
    commandWord opc imm &&& ~~~ BitVec.ofNat 32 (2 ^ k - 1) = commandWord opc 0 := by
  apply BitVec.eq_of_getLsbD_eq
  intro j hj
  have bit : ∀ m, m < 2 ^ k →
      (opc * 2 ^ 24 + m).testBit j = if j < 24 then m.testBit j else opc.testBit (j - 24) := fun m hm => by
    rw [Nat.mul_comm, Nat.testBit_two_pow_mul_add _ (Nat.lt_of_lt_of_le hm (Nat.pow_le_pow_right (by omega) hk))]
  simp only [commandWord, BitVec.getLsbD_and, BitVec.getLsbD_not, BitVec.getLsbD_ofNat, hj, decide_true, Bool.true_and,
    bit imm hi, bit 0 (Nat.two_pow_pos k), Nat.testBit_two_pow_sub_one, Nat.zero_testBit]
  by_cases hjk : j < k
  · simp [hjk, show j < 24 by omega]
  · have : imm.testBit j = false :=
      Nat.testBit_lt_two_pow (Nat.lt_of_lt_of_le hi (Nat.pow_le_pow_right (by omega) (by omega)))
    simp [hjk, this]

theorem RowMatch.nop : RowMatch.Statement .nop := fun _ => by decide

theorem RowMatch.reset : RowMatch.Statement .reset := fun _ => by decide

theorem RowMatch.csrRead (c : Nat) : RowMatch.Statement (.csrRead c) := fun h =>
  commandWord_masked (k := 8) (by decide) (by simpa [Instr.wellFormed] using h)

theorem RowMatch.csrWrite (c : Nat) : RowMatch.Statement (.csrWrite c) := fun h =>
  commandWord_masked (k := 8) (by decide) (by simpa [Instr.wellFormed] using h)

theorem RowMatch.rcEncInit : RowMatch.Statement .rcEncInit := fun _ => by decide

theorem RowMatch.rcEncBit (b : Bool) : RowMatch.Statement (.rcEncBit b) := fun _ => by revert b; decide

theorem RowMatch.rcEncRaw (n : Nat) : RowMatch.Statement (.rcEncRaw n) := fun h =>
  commandWord_masked (k := 7) (by decide) (by simpa [Instr.wellFormed] using h)

theorem RowMatch.rcEncSym : RowMatch.Statement .rcEncSym := fun _ => by decide

theorem RowMatch.rcFinish : RowMatch.Statement .rcFinish := fun _ => by decide

theorem RowMatch.rcDecInit : RowMatch.Statement .rcDecInit := fun _ => by decide

theorem RowMatch.rcDecBit : RowMatch.Statement .rcDecBit := fun _ => by decide

theorem RowMatch.rcDecRaw (n : Nat) : RowMatch.Statement (.rcDecRaw n) := fun h =>
  commandWord_masked (k := 7) (by decide) (by simpa [Instr.wellFormed] using h)

theorem RowMatch.rcDecSym : RowMatch.Statement .rcDecSym := fun _ => by decide

theorem RowMatch.qsmInit : RowMatch.Statement .qsmInit := fun _ => by decide

theorem RowMatch.qsmReset : RowMatch.Statement .qsmReset := fun _ => by decide

theorem RowMatch.qsmEnc : RowMatch.Statement .qsmEnc := fun _ => by decide

theorem RowMatch.qsmDec : RowMatch.Statement .qsmDec := fun _ => by decide

theorem RowMatch.mapFwd : RowMatch.Statement .mapFwd := fun _ => by decide

theorem RowMatch.mapInv : RowMatch.Statement .mapInv := fun _ => by decide

theorem RowMatch.frontInit : RowMatch.Statement .frontInit := fun _ => by decide

theorem RowMatch.frontAt (x y z : Bool) : RowMatch.Statement (.frontAt x y z) := fun _ => by
  revert x y z; decide

theorem RowMatch.frontPush : RowMatch.Statement .frontPush := fun _ => by decide

theorem RowMatch.frontAdvance (x y z : Bool) : RowMatch.Statement (.frontAdvance x y z) := fun _ => by
  revert x y z; decide

theorem RowMatch.predict : RowMatch.Statement .predict := fun _ => by decide

theorem RowMatch.resEnc : RowMatch.Statement .resEnc := fun _ => by decide

theorem RowMatch.resDec : RowMatch.Statement .resDec := fun _ => by decide

theorem RowMatch.stepEnc : RowMatch.Statement .stepEnc := fun _ => by decide

theorem RowMatch.stepDec : RowMatch.Statement .stepDec := fun _ => by decide

end Sys2Proof.Laws
end

