-- ==== Sys2Proof/Laws/Safety.lean ====
section
/-! SUPPORT. The small lemmas of the terms the statements use. -/

namespace Sys2Proof.Laws

open Sys2Proof.Machine Sys2Proof.Safety

/-! ### Faults -/

@[simp] theorem faultedOnce_running {i : Instr} {code : BitVec 8} {s : State} (h : s.faults.flag = false) :
    faultedOnce i code s = faulted i code s := by
  simp [faultedOnce, h]

@[simp] theorem faultedOnce_halted {i : Instr} {code : BitVec 8} {s : State} (h : s.faults.flag = true) :
    faultedOnce i code s = s := by
  simp [faultedOnce, h]

/-- The fault action of a command's own word is the statements' `faultedOnce`. -/
theorem raiseFault_eq_faultedOnce (i : Instr) (c : Cause) (s : State) :
    raiseFault (encode i) c s = faultedOnce i (causeCode c) s := by
  obtain ⟨h, hr⟩ | ⟨h, hr⟩ := raiseFault_cases (encode i) c s
  · rw [hr, faultedOnce_halted h]
  · rw [hr, faultedOnce_running h, faulted]

/-! ### Input at hand -/

@[simp] theorem InputReady_zero (c : Coder) : InputReady c 0 := .inl (Nat.zero_le _)

theorem InputReady_mono {c : Coder} {m n : Nat} (hmn : m ≤ n) (h : InputReady c n) : InputReady c m :=
  h.imp (Nat.le_trans hmn) id

theorem not_InputReady {c : Coder} {n : Nat} : ¬ InputReady c n ↔ c.instream.length < n ∧ c.inMark = false := by
  simp [InputReady]

/-! ### Normalization -/

/-- How many bytes a normalization moves is fixed by the interval. -/
theorem BytesMoved_unique {low range m n : Nat} (hm : BytesMoved low range m) (hn : BytesMoved low range n) : m = n := by
  obtain ⟨_, _, k, _, before, stop, bytes⟩ := hm
  obtain ⟨_, _, k', _, before', stop', bytes'⟩ := hn
  have hk : k = k' := by
    rcases Nat.lt_trichotomy k k' with h | h | h
    · exact absurd (before' k h) stop
    · exact h
    · exact absurd (before k' h) stop'
  subst hk
  rcases bytes with ⟨h, e, _⟩ | ⟨h, e, _⟩ <;> rcases bytes' with ⟨h', e', _⟩ | ⟨h', e', _⟩ <;> omega

/-- A normalization moves at most 5 bytes (41_range_coder.md R503). -/
theorem BytesMoved_le {low range n : Nat} (h : BytesMoved low range n) : n ≤ 5 := by
  obtain ⟨_, _, k, hk, _, _, ⟨_, e, _⟩ | ⟨_, e, _⟩⟩ := h <;> omega

/-! ### Runs -/

@[simp] theorem runPushes_nil (s : State) : runPushes [] s = some ([], s) := rfl

theorem runPushes_cons {i : Instr} {a b : W64} {rest : List (Instr × W64 × W64)} {s t : State}
    (h : exec i { s with holding := false, din0 := a, din1 := b } = .next t) :
    runPushes ((i, a, b) :: rest) s =
      (runPushes rest t).map fun r => (pushed i { s with din0 := a } t ++ r.1, r.2) := by
  rw [runPushes, h]
  dsimp only
  cases runPushes rest t <;> rfl

theorem pushed_of_halted {i : Instr} {s t : State} (h : t.faults.flag = true) : pushed i s t = [] := by
  simp [pushed, h]

theorem pushed_of_holding {i : Instr} {s t : State} (h : t.holding = true) : pushed i s t = [] := by
  simp [pushed, h]

end Sys2Proof.Laws
end

