-- ==== Sys2Proof/Tests/Slice0.lean ====
section
/-! SUPPORT. Tests: ill-formed commands refused, every command's word decoded, single steps against the numbers of
95_test_vectors.md, and for each statement with hypotheses a state and operands that meet them. -/

namespace Sys2Proof.Tests

open Sys2Proof.Machine Sys2Proof.Safety

set_option Elab.async false

/-! ### Well-formedness: an immediate that does not fit its field -/

theorem test_csrRead_256_refused : (Instr.csrRead 256).wellFormed = false := by decide
theorem test_csrWrite_256_refused : (Instr.csrWrite 256).wellFormed = false := by decide
theorem test_rcEncRaw_128_refused : (Instr.rcEncRaw 128).wellFormed = false := by decide
theorem test_rcDecRaw_128_refused : (Instr.rcDecRaw 128).wellFormed = false := by decide

/-! ### Decoding: words written out from 30_encoding.md R301 and R304 -/

theorem test_decode_nop : decodeTableWord 32 0x00000000 = some .nop := by decide
theorem test_decode_reset : decodeTableWord 32 0x01000000 = some .reset := by decide
theorem test_decode_csr_read : decodeTableWord 32 0x0200000B = some (.csrRead 11) := by decide
theorem test_decode_csr_write : decodeTableWord 32 0x030000FF = some (.csrWrite 255) := by decide
theorem test_decode_rc_enc_init : decodeTableWord 32 0x10000000 = some .rcEncInit := by decide
theorem test_decode_rc_enc_bit : decodeTableWord 32 0x11000001 = some (.rcEncBit true) := by decide
theorem test_decode_rc_enc_raw : decodeTableWord 32 0x1200000C = some (.rcEncRaw 12) := by decide
theorem test_decode_rc_enc_sym : decodeTableWord 32 0x13000000 = some .rcEncSym := by decide
theorem test_decode_rc_finish : decodeTableWord 32 0x14000000 = some .rcFinish := by decide
theorem test_decode_rc_dec_init : decodeTableWord 32 0x18000000 = some .rcDecInit := by decide
theorem test_decode_rc_dec_bit : decodeTableWord 32 0x19000000 = some .rcDecBit := by decide
theorem test_decode_rc_dec_raw : decodeTableWord 32 0x1A00007F = some (.rcDecRaw 127) := by decide
theorem test_decode_rc_dec_sym : decodeTableWord 32 0x1B000000 = some .rcDecSym := by decide
theorem test_decode_qsm_init : decodeTableWord 32 0x20000000 = some .qsmInit := by decide
theorem test_decode_qsm_reset : decodeTableWord 32 0x21000000 = some .qsmReset := by decide
theorem test_decode_qsm_enc : decodeTableWord 32 0x22000000 = some .qsmEnc := by decide
theorem test_decode_qsm_dec : decodeTableWord 32 0x23000000 = some .qsmDec := by decide
theorem test_decode_map_fwd : decodeTableWord 32 0x30000000 = some .mapFwd := by decide
theorem test_decode_map_inv : decodeTableWord 32 0x31000000 = some .mapInv := by decide
theorem test_decode_front_init : decodeTableWord 32 0x40000000 = some .frontInit := by decide
theorem test_decode_front_at : decodeTableWord 32 0x41000006 = some (.frontAt true true false) := by decide
theorem test_decode_front_push : decodeTableWord 32 0x42000000 = some .frontPush := by decide
theorem test_decode_front_advance : decodeTableWord 32 0x43000001 = some (.frontAdvance false false true) := by decide
theorem test_decode_predict : decodeTableWord 32 0x44000000 = some .predict := by decide
theorem test_decode_res_enc : decodeTableWord 32 0x50000000 = some .resEnc := by decide
theorem test_decode_res_dec : decodeTableWord 32 0x51000000 = some .resDec := by decide
theorem test_decode_step_enc : decodeTableWord 32 0x60000000 = some .stepEnc := by decide
theorem test_decode_step_dec : decodeTableWord 32 0x61000000 = some .stepDec := by decide
theorem test_decode_reserved_opcodes : decode 0x15000000 = .illegalOpcode ∧ decode 0x1C000000 = .illegalOpcode := by
  decide
theorem test_decode_reserved_bits : decode 0x00000001 = .reservedField ∧ decode 0x11000002 = .reservedField ∧
    decode 0x12000080 = .reservedField ∧ decode 0x41000008 = .reservedField ∧ decode 0x02000100 = .reservedField := by
  decide

/-! ### States the tests start from -/

/-- The next state of an outcome. -/
def nextState : Host.Outcome State Fault Refusal → Option State
  | .next t => some t
  | .fault _ => none
  | .refused _ => none

/-- What `f` reads in the state after command `i`. -/
def after {α : Type} (i : Instr) (s : State) (f : State → α) : Option α := (nextState (exec i s)).map f

/-- The fault code after command `i`. -/
def faultCode (i : Instr) (s : State) : Option Nat := after i s fun t => t.faults.cause.toNat

/-- The "init state" of 95_test_vectors.md: an init command's coder and the model of the reset configuration. -/
def initState (mode : RcMode) (code : W32) (input : List Byte) : State :=
  { State.reset with
    coder := { freshCoder mode Coder.reset with code := code, instream := input, inMark := true }
    model := { qsmReset (qsmLatch Csrs.reset Model.reset) with valid := true } }

/-- The uniform model of 65 symbols at `BITS = 7`, written out: the first 63 symbols of frequency 2, two of 1. -/
def uniform65 : Model :=
  { valid := true, s := 65, bits := 7, period := 1024
    symf := List.replicate 65 1
    cumf := (List.range 66).map fun i => BitVec.ofNat 32 (i + min i 63)
    search := (List.range 129).map fun j => BitVec.ofNat 32 (if j < 126 then j / 2 else min (j - 63) 64)
    rescale := 12, incr := 5, left := 9, more := 3 }

/-- A block with every unit configured, its front built for `NX = NY = 1`. -/
def ready (mode : RcMode) (input : List Byte) : State :=
  { State.reset with
    coder := { Coder.reset with mode := mode, instream := input }
    model := uniform65, front := freshFront Csrs.reset, cfg := { Csrs.reset with qsmBits := 7 } }

/-- A block ready to encode. -/
def encReady : State := ready .enc []

/-- A block ready to decode, with 25 bytes of input and no end mark. -/
def decReady : State := ready .dec (List.replicate 25 0x5A)

/-- A halted block. -/
def halted : State := { encReady with faults := { flag := true, cause := 8, cmd := 0x30000000 } }

/-! ### One command at a time -/


/-! Control: 46_control.md R1000 to R1003, 95_test_vectors.md section 10.4 -/

theorem test_nop_runs_halted : after .nop halted (fun t => t.faults.cmd) = some 0x30000000 :=
  by decide
theorem test_reset_clears_the_fault : after .reset halted (fun t => (t.faults.flag, t.model.valid, t.cfg.qsmBits)) = some (false, false, 16) :=
  by decide
theorem test_csrRead_id : after (.csrRead 0x0B) State.reset (fun t => t.dout0) = some 0x004650432D524331 :=
  by decide
theorem test_csrRead_unmapped_06 : faultCode (.csrRead 0x06) State.reset = some 3 ∧
    nextState (exec (.csrRead 0x06) halted) = some halted :=
  by decide
theorem test_csrWrite_nx : after (.csrWrite 0x01) { State.reset with din0 := 8 } (fun t => t.cfg.nx) = some 8 :=
  by decide
theorem test_csrWrite_width_48 : faultCode (.csrWrite 0x00) { State.reset with din0 := 48 } = some 4 :=
  by decide

/-! Range coder: section 3 -/

theorem test_rcEncInit : after .rcEncInit State.reset (fun t => (t.coder.low, t.coder.range)) = some (0, 0xFFFFFFFF) :=
  by decide
theorem test_rcEncBit_one : after (.rcEncBit true) (initState .enc 0 []) (fun t => (t.coder.low, t.coder.range)) =
    some (0x7FFFFFFF, 0x7FFFFFFF) :=
  by decide +kernel
theorem test_rcEncBit_after_finish : faultCode (.rcEncBit false) { State.reset with coder := { Coder.reset with mode := .done } } = some 5 :=
  by decide
theorem test_rcEncRaw_64_chunks : after (.rcEncRaw 64) { initState .enc 0 [] with din0 := 0x0123456789ABCDEF }
      (fun t => (t.coder.low, t.coder.range, t.coder.outstream)) =
    some (0x21DD0000, 0x00FF0000, [0xCD, 0xEE, 0xBB, 0x32, 0x9A, 0x21, 0x9A]) :=
  by decide +kernel
theorem test_rcEncRaw_16_fudge : after (.rcEncRaw 16) { initState .enc 0 [] with din0 := 0xB800 }
      (fun t => (t.coder.low, t.coder.range, t.coder.outstream)) = some (0x48000000, 0xB8000000, [0xB7, 0xFF]) :=
  by decide +kernel
theorem test_rcEncSym_last_symbol : after .rcEncSym { initState .enc 0 [] with din0 := 64 } (fun t => (t.coder.low, t.coder.range)) =
    some (0xFC0F03F0, 0x03EFFC10) :=
  by decide +kernel
theorem test_rcFinish_flushes : after .rcFinish { initState .enc 0 [] with
      coder := { freshCoder .enc Coder.reset with low := 0x7FFFFFFF, range := 0x7FFFFFFF } }
      (fun t => (t.coder.outstream, t.coder.mode)) = some ([0x7F, 0xFF, 0xFF, 0xFF], .done) :=
  by decide +kernel
theorem test_rcDecInit_truncated : after .rcDecInit { State.reset with coder := { Coder.reset with instream := [0x12], inMark := true } }
      (fun t => (t.coder.code, t.coder.eofErr, t.coder.bytesIn)) = some (0x12000000, true, 1) :=
  by decide
theorem test_rcDecInit_holds : after .rcDecInit { State.reset with coder := { Coder.reset with instream := [0x12] } }
      (fun t => (t.holding, t.coder.instream)) = some (true, [0x12]) :=
  by decide
theorem test_rcDecBit_clamped : after .rcDecBit (initState .dec 0xFFFFFFFF []) (fun t => (t.dout0, t.coder.corrupt, t.coder.low)) =
    some (1, true, 0x7FFFFFFF) :=
  by decide +kernel
theorem test_rcDecBit_holds : after .rcDecBit { initState .dec 0 [] with
      coder := { freshCoder .dec Coder.reset with range := 0x10000, instream := [7] } }
      (fun t => (t.holding, t.dout0, t.coder.instream, t.coder.range)) = some (true, 0, [7], 0x10000) :=
  by decide +kernel
theorem test_rcDecRaw_16_short : after (.rcDecRaw 16) (initState .dec 0xB7FF4800 [0])
      (fun t => (t.dout0, t.coder.low, t.coder.code, t.coder.eofErr)) = some (0xB800, 0x48000000, 0x48000000, true) :=
  by decide +kernel
theorem test_rcDecRaw_64_joins : after (.rcDecRaw 64) (initState .dec 0xCDEEBB32 [0x9A, 0x21, 0x9A, 0x21, 0xDD, 0, 0])
      (fun t => (t.dout0, t.coder.code, t.coder.bytesIn)) = some (0x0123456789ABCDEF, 0x21DD0000, 7) :=
  by decide +kernel
theorem test_rcDecSym_clamped_query : after .rcDecSym (initState .dec 0xFFFFFFFF [0xFF, 0xFF, 0xFF, 0xFF])
      (fun t => (t.dout0, t.coder.corrupt, t.coder.low, t.coder.range, t.model.left)) =
    some (64, true, 0xFC0F03F0, 0x03EFFC10, 11) :=
  by decide +kernel

/-! Probability model: section 5 -/

theorem test_qsmInit_reset_configuration : after .qsmInit State.reset (fun t => ((t.model.rescale, t.model.incr, t.model.left, t.model.more),
      t.model.symf, cumfAt t.model 17, [searchAt t.model 63, searchAt t.model 126])) =
    some ((12, 2725, 1, 11), List.replicate 65 505, 17152, [31, 63]) :=
  by decide +kernel
theorem test_qsmInit_alphabet_too_large : faultCode .qsmInit { State.reset with cfg := { Csrs.reset with qsmS := 129, qsmBits := 7 } } = some 7 :=
  by decide
theorem test_qsmReset_after_a_count : after .qsmReset { encReady with model := { uniform65 with period := 6, left := 1, more := 0 } }
      (fun t => (t.model.rescale, t.model.incr, t.model.left, t.model.more, cumfAt t.model 64)) =
    some (6, 10, 3, 3, 127) :=
  by decide +kernel
theorem test_qsmEnc_arms_the_pending : after .qsmEnc { initState .enc 0 [] with din0 := 32 } (fun t =>
      (t.dout0, t.dout1, t.model.incr, t.model.left, t.model.more, tableAt .symf t.model.symf 32)) =
    some (32, 0x000003F000007E10, 2726, 11, 0, 3230) :=
  by decide +kernel
theorem test_qsmDec_finds_31 : after .qsmDec { initState .enc 0 [] with din0 := 31264 } (fun t => (t.dout0, t.dout1)) =
    some (31, 0x000003F000007A20) :=
  by decide +kernel
theorem test_qsmDec_65536 : faultCode .qsmDec { initState .enc 0 [] with din0 := 65536 } = some 8 :=
  by decide +kernel

/-! Map: section 2 -/

theorem test_mapFwd_minus_one : after .mapFwd { State.reset with din0 := 0xBF800000 } (fun t => t.dout0) = some 0x407FFFFF :=
  by decide
theorem test_mapFwd_64 : after .mapFwd { State.reset with din0 := 0x3FF0000000000000, cfg := { Csrs.reset with w := .w64 } }
      (fun t => t.dout0) = some 0xBFF0000000000000 :=
  by decide
theorem test_mapInv_minus_zero : after .mapInv { State.reset with din0 := 0x7FFFFFFF } (fun t => t.dout0) = some 0x80000000 :=
  by decide

/-! Front: section 7; the ring is the one of section 7.2 before its last push -/

/-- The front of section 7.2 before the push of sample (1,1,1). -/
def front72 : Front :=
  { valid := true, w := .w32, dx := 1, dy := 3, dz := 9, mask := 15, zero := 0x80000000, idx := 26
    ring := [(0, 105), (1, 110), (6, 107), (7, 114), (9, 118), (13, 100), (14, 103)] }

theorem test_frontInit_geometry : after .frontInit { State.reset with cfg := { Csrs.reset with nx := 2, ny := 3 } }
      (fun t => (t.front.dy, t.front.dz, t.front.mask, t.front.zero)) = some (3, 12, 15, 0x80000000) :=
  by decide
theorem test_frontInit_capacity : faultCode .frontInit { State.reset with cfg := { Csrs.reset with nx := 0xFFFFFFFE, ny := 0xFFFFFFFE } } = some 9 :=
  by decide
theorem test_frontAt_two_offsets : after (.frontAt true true false) { State.reset with front := front72 } (fun t => t.dout0) = some 107 ∧
    after (.frontAt false true true) { State.reset with front := front72 } (fun t => t.dout0) = some 103 :=
  by decide
theorem test_frontPush_last : after .frontPush { State.reset with front := front72, din0 := 136 }
      (fun t => (t.front.idx, frontSlotValue t.front 10, frontSlotValue t.front 9)) = some (27, 136, 118) :=
  by decide
theorem test_frontPush_too_wide : faultCode .frontPush { State.reset with front := front72, din0 := 0x100000000 } = some 8 :=
  by decide
theorem test_frontAdvance_row : after (.frontAdvance false true false) { State.reset with front := front72 }
      (fun t => (t.front.idx, frontSlotValue t.front 13, frontSlotValue t.front 12, frontSlotValue t.front 14)) =
    some (29, 100, 0x80000000, 103) :=
  by decide
theorem test_predict_interior : after .predict { State.reset with front := front72 } (fun t => t.dout0) = some 127 :=
  by decide
theorem test_predict_after_reset : faultCode .predict State.reset = some 6 :=
  by decide

/-! Residual coder and pipeline: sections 6 and 8 -/

theorem test_resEnc_over : after .resEnc { initState .enc 0 [] with din0 := 0x80000000, din1 := 0xBF800000 }
      (fun t => (t.coder.low, t.coder.range, t.coder.outstream)) =
    some (0x40000000, 0x1F800000, [0x07, 0xE1, 0xFB, 0xFE]) :=
  by decide +kernel
theorem test_resEnc_exact : after .resEnc { initState .enc 0 [] with din0 := 0x80000000, din1 := 0x80000000 }
      (fun t => (t.coder.low, t.coder.range)) = some (0x7E0F81F0, 0x03EFFC10) :=
  by decide +kernel
theorem test_resDec_over : after .resDec { initState .dec 0x07E1FBFE [0x40, 0, 0, 0] with din1 := 0xBF800000 }
      (fun t => (t.dout0, t.coder.instream, t.coder.eofErr, t.coder.corrupt)) = some (0x80000000, [], false, false) :=
  by decide +kernel
theorem test_resDec_after_the_end : after .resDec { initState .dec 0 [] with coder := { freshCoder .dec Coder.reset with eofErr := true } }
      (fun t => t.dout0) = some 0x80000000 :=
  by decide +kernel
theorem test_stepEnc_first_sample : after .stepEnc { initState .enc 0 [] with front := freshFront Csrs.reset, din0 := 0x3F800000 }
      (fun t => (t.dout0, t.dout1, t.front.idx, t.coder.outstream)) =
    some (0xBF800000, 0x80000000, 1, [0xF4, 0x2F, 0x0F, 0xAF]) :=
  by decide +kernel
theorem test_stepDec_first_sample : after .stepDec { initState .dec 0xF42F0FAF [0x44, 0, 0, 0] with front := freshFront Csrs.reset }
      (fun t => (t.dout0, t.dout1, t.front.idx, t.coder.eofErr)) = some (0x3F800000, 0x80000000, 1, false) :=
  by decide +kernel

/-! The step: a word that is no command (46_control.md R1004), a hold lifted by a byte (20_memory.md R203) -/

theorem test_step_illegal_word : (nextState (step (State.reset.withFetchWord 32 0x15000000))).map (fun t => (t.faults.cause, t.faults.cmd, t.port)) =
    some (1, 0x15000000, none) :=
  by decide
theorem test_step_supply_lifts_the_hold : (nextState (step { State.reset with port := some 0x18000000, holding := true, host := [.supply 7] })).map
      (fun t => (t.holding, t.port, t.coder.instream)) = some (false, some 0x18000000, [7]) :=
  by decide

/-! ### Witnesses: for each statement with hypotheses, states and operands that meet them -/

/-- A command's next state is shown by evaluating what is said of it. -/
theorem exec_next {i : Instr} {s : State} {P : State → Prop} [DecidablePred P]
    (h : (nextState (exec i s)).all (fun t => decide (P t)) = true ∧ (nextState (exec i s)).isSome = true) :
    ∃ t, exec i s = .next t ∧ P t := by
  cases he : exec i s with
  | next t => exact ⟨t, rfl, by simpa [he, nextState] using h.1⟩
  | fault r => simp [he, nextState] at h
  | refused r => simp [he, nextState] at h

/-- The same for a step. -/
theorem step_next {s : State} {P : State → Prop} [DecidablePred P]
    (h : (nextState (step s)).all (fun t => decide (P t)) = true ∧ (nextState (step s)).isSome = true) :
    ∃ t, step s = .next t ∧ P t := by
  cases he : step s with
  | next t => exact ⟨t, rfl, by simpa [he, nextState] using h.1⟩
  | fault r => simp [he, nextState] at h
  | refused r => simp [he, nextState] at h

theorem uniform65_inv : ModelInv uniform65 where
  bits := by decide +kernel
  alphabet := by decide +kernel
  epoch := by decide +kernel
  symf_length := rfl
  cumf_length := rfl
  symf_pos := fun f hf => by rw [List.eq_of_mem_replicate hf]; decide
  balance := by decide +kernel
  left_pos := by decide +kernel
  more_lt := by decide +kernel
  cumf_zero := by decide +kernel
  cumf_top := by decide +kernel
  cumf_rising := by decide +kernel
  search := { length := by simp [uniform65], bucket := by decide +kernel, sentinel := by decide +kernel }

theorem ready_model : ModelOk uniform65 := ⟨uniform65_inv.search.length, fun _ => uniform65_inv⟩

theorem ready_coder (mode : RcMode) (input : List Byte) : CoderInv (ready mode input).coder := by
  constructor
  · exact (by decide +kernel : 2 ^ 16 ≤ (0xFFFFFFFF : W32).toNat)
  · exact (by decide +kernel : (0 : W32).toNat + (0xFFFFFFFF : W32).toNat ≤ 2 ^ 32)

theorem ready_front : FrontInv (freshFront Csrs.reset) where
  stride_x := rfl
  size := ⟨3, by decide +kernel, by decide +kernel⟩
  reach := by decide +kernel
  zero := by decide +kernel
  canonical := rfl
  slots := rfl

theorem ready_cfg : CsrsLegal { Csrs.reset with qsmBits := 7 } := by
  constructor <;> decide

theorem witness_DecodeOfEncodeGivesTheCommand :
    (Instr.csrRead 255).wellFormed = true ∧ (Instr.rcEncRaw 127).wellFormed = true ∧
      (Instr.frontAt true true true).wellFormed = true :=
  by decide

theorem witness_DecodedWordIsTheCommandsWord :
    decode 0x020000FF = .instr (.csrRead 255) ∧ decode 0x1200007F = .instr (.rcEncRaw 127) :=
  by decide

theorem witness_DecoderFollowsTheOpcodeMap :
    decode 0x1200007F = .instr (.rcEncRaw 127) ∧
      (0x1200007F : W32) &&& (tableRow (.rcEncRaw 0)).2 = (tableRow (.rcEncRaw 0)).1 ∧
      (0x1200007F : W32) &&& (tableRow (.rcEncRaw 127)).2 = (tableRow (.rcEncRaw 127)).1 :=
  by decide

theorem witness_WordsOutsideTheMapAreRejected :
    decode 0x15000000 = .illegalOpcode ∧ decode 0xFFFFFFFF = .illegalOpcode ∧ decode 0x12000080 = .reservedField :=
  by decide

theorem witness_StepRunsTheDecodedCommand :
    (State.reset.withFetchWord 32 0x10000000).port = some 0x10000000 ∧
      (State.reset.withFetchWord 32 0x10000000).holding = false ∧ decode 0x10000000 = .instr .rcEncInit :=
  ⟨rfl, rfl, by decide +kernel⟩

theorem witness_BadWordsFaultFromTheWordAlone :
    ((halted.withFetchWord 32 0x15000000).port = some 0x15000000 ∧
        (halted.withFetchWord 32 0x15000000).holding = false ∧
        (halted.withFetchWord 32 0x15000000).faults.flag = true ∧ ∀ i, decode 0x15000000 ≠ .instr i) ∧
      ((encReady.withFetchWord 32 0x15000000).faults.flag = false ∧ decode 0x15000000 = .illegalOpcode) ∧
      ((encReady.withFetchWord 32 0x00000001).faults.flag = false ∧ decode 0x00000001 = .reservedField) :=
  ⟨⟨rfl, rfl, rfl, fun i h => by
    have : decode 0x15000000 = .illegalOpcode := by decide +kernel
    rw [this] at h; cases h⟩, ⟨rfl, by decide +kernel⟩, rfl, by decide +kernel⟩

theorem witness_HostActionsReachTheBlock :
    (State.reset.port = none ∧ State.reset.host = [] ∧ State.reset.coder.inMark = false) ∧
      (∀ e : HostEvent, { State.reset with host := [e] }.port = none ∧ { State.reset with host := [e] }.host = [e] ∧
        { State.reset with host := [e] }.coder.inMark = false) ∧
      (∀ e : HostEvent, { State.reset with host := [e], port := some 0x18000000, holding := true }.holding = true ∧
        { State.reset with host := [e], port := some 0x18000000, holding := true }.port ≠ none) :=
  ⟨⟨rfl, rfl, rfl⟩, fun _ => ⟨rfl, rfl, rfl⟩, fun _ => ⟨rfl, fun h => by cases h⟩⟩

theorem witness_HoldingCommandHasChangedNothing :
    State.reset.holding = false ∧ ModelOk State.reset.model ∧ CoderInv State.reset.coder ∧
      ∃ t, exec .rcDecInit State.reset = .next t ∧ t.holding = true :=
  ⟨rfl, ⟨rfl, fun h => by cases h⟩, ready_coder .idle [], exec_next (by decide +kernel)⟩

theorem witness_HaltedBlockIgnoresCommands :
    halted.faults.flag = true ∧ runsHalted .stepEnc = false :=
  ⟨rfl, rfl⟩

theorem witness_EveryCommandAnswersAndFaultsArePrecise :
    State.reset.faults.flag = false ∧ ∃ t, exec .rcEncSym State.reset = .next t ∧ t.faults.flag = true :=
  ⟨rfl, exec_next (by decide +kernel)⟩

theorem witness_OnlyResetLeavesTheHaltedState :
    halted.faults.flag = true ∧ (∃ t, step (halted.withFetchWord 32 0x01000000) = .next t ∧ t.faults.flag = false) ∧
      (∃ t, step (halted.withFetchWord 32 0x02000009) = .next t ∧ t.faults = halted.faults) ∧
      ∃ t, step { halted with host := [.resetInput] } = .next t ∧ t.faults.flag = false :=
  ⟨rfl, step_next (by decide +kernel), step_next (by decide +kernel),
    step_next (by decide +kernel)⟩

theorem witness_WrongModeFaults :
    State.reset.faults.flag = false ∧ needsEnc .stepEnc = true ∧ State.reset.coder.mode ≠ .enc ∧
      needsDec (.rcDecRaw 64) = true ∧ State.reset.coder.mode ≠ .dec :=
  by decide

theorem witness_UnconfiguredUnitFaults :
    State.reset.faults.flag = false ∧ (needsModel .qsmEnc = true ∧ State.reset.model.valid = false ∧ ModeFits .qsmEnc State.reset) ∧
      (needsFront .predict = true ∧ State.reset.front.valid = false ∧ ModeFits .predict State.reset) ∧
      (ModeFits .stepEnc { encReady with front := Front.reset } ∧ needsFront .stepEnc = true ∧
        { encReady with front := Front.reset }.front.valid = false) :=
  ⟨rfl, ⟨rfl, rfl, by simp [ModeFits, needsEnc, needsDec]⟩, ⟨rfl, rfl, by simp [ModeFits, needsEnc, needsDec]⟩,
    ⟨fun _ => rfl, fun h => by cases h⟩, rfl, rfl⟩

theorem witness_InconsistentConfigurationFaults :
    ModeFits .qsmInit encReady ∧
      2 ^ { Csrs.reset with qsmS := 129, qsmBits := 7 }.qsmBits.toNat < { Csrs.reset with qsmS := 129 }.qsmS.toNat ∧
      { Csrs.reset with qsmPeriod := 5 }.qsmPeriod.toNat < (Csrs.reset.qsmS.toNat >>> 4 ||| 2) ∧
      ModeFits .resEnc encReady ∧ ModeFits .resDec decReady ∧ ModeFits .stepEnc encReady ∧ ModeFits .stepDec decReady ∧
      encReady.model.valid = true ∧ encReady.front.valid = true ∧
      uniform65.s.toNat ≠ 2 * { encReady.cfg with w := .w64 }.w.bits + 1 ∧
      { freshFront Csrs.reset with w := .w64 }.w ≠ encReady.cfg.w :=
  ⟨by simp [ModeFits, needsEnc, needsDec], by decide +kernel, by decide +kernel, ⟨fun _ => rfl, fun h => by cases h⟩,
    ⟨fun h => (by cases h), fun _ => rfl⟩, ⟨fun _ => rfl, fun h => by cases h⟩, ⟨fun h => (by cases h), fun _ => rfl⟩,
    rfl, rfl, by decide +kernel, by decide +kernel⟩

theorem witness_OperandsOutOfRangeFault :
    encReady.faults.flag = false ∧ encReady.coder.mode = .enc ∧ (64 < 65 ∨ 2 ^ 65 ≤ (0 : W64).toNat) ∧
      2 ^ 12 ≤ (4096 : W64).toNat ∧ decReady.coder.mode = .dec ∧ encReady.model.valid = true ∧
      encReady.model.s.toNat ≤ (65 : W64).toNat ∧ 2 ^ encReady.model.bits.toNat ≤ (128 : W64).toNat ∧
      2 ^ encReady.cfg.w.bits ≤ (0x100000000 : W64).toNat ∧ encReady.front.valid = true ∧
      2 ^ encReady.front.w.bits ≤ (0x100000000 : W64).toNat ∧ encReady.model.s.toNat = 2 * encReady.cfg.w.bits + 1 ∧
      decReady.model.s.toNat = 2 * decReady.cfg.w.bits + 1 ∧ encReady.front.w = encReady.cfg.w :=
  by decide

theorem witness_CsrAccessesThatFault :
    (0x06 ∉ [0x00, 0x01, 0x02, 0x03, 0x04, 0x05, 0x08, 0x09, 0x0A, 0x0B, 0x10, 0x11, 0x12, 0x13, 0x14, 0x18, 0x19,
        0x1A, 0x1B, 0x1C, 0x1D, 0x1E, 0x20, 0x21, 0x22, 0x23, 0x24, 0x25, 0x28, 0x29, 0x30, 0x31, 0x32]) ∧
      (0x08 ∉ [0x00, 0x01, 0x02, 0x03, 0x04, 0x05, 0x28, 0x30]) ∧ ((48 : W64) ≠ 32 ∧ (48 : W64) ≠ 64) ∧
      ((0 : W64).toNat < 1 ∧ 2 ^ 32 - 2 < (0xFFFFFFFF : W64).toNat ∧ 65536 < (65537 : W64).toNat ∧
        (6 : W64).toNat < 7 ∧ 16 < (17 : W64).toNat ∧ 2 ^ 32 - 1 < (0x100000000 : W64).toNat) ∧
      State.reset.model.valid = false ∧ State.reset.front.valid = false ∧
      (encReady.front.valid = true ∧ encReady.front.mask.toNat < (8 : W32).toNat) ∧
      (encReady.model.valid = true ∧ encReady.model.s.toNat ≤ (65 : W32).toNat ∧
        encReady.model.s.toNat < (66 : W32).toNat) ∧ halted.faults.flag = true :=
  by decide

theorem witness_CsrReadGivesTheRegister :
    encReady.model.valid = true ∧ encReady.front.valid = true ∧ (7 : W32).toNat ≤ encReady.front.mask.toNat ∧
      encReady.model.symf[64]? = some 1 ∧ 64 < encReady.model.s.toNat ∧ encReady.model.cumf[65]? = some 128 ∧
      65 ≤ encReady.model.s.toNat :=
  by decide

theorem witness_CsrWriteSetsTheRegister :
    encReady.faults.flag = false ∧ (32 : W64).toNat = Width.w32.bits ∧ (64 : W64).toNat = Width.w64.bits ∧
      1 ≤ (1 : W64).toNat ∧ (0xFFFFFFFE : W64).toNat ≤ 2 ^ 32 - 2 ∧ (65536 : W64).toNat ≤ 65536 ∧
      7 ≤ (7 : W64).toNat ∧ (16 : W64).toNat ≤ 16 ∧ (0xFFFFFFFF : W64).toNat < 2 ^ 32 :=
  by decide

theorem witness_MapCommandsGiveTheClosedForms :
    encReady.faults.flag = false ∧ (0xFFFFFFFF : W64).toNat < 2 ^ encReady.cfg.w.bits :=
  by decide

theorem witness_MapIsAnOrderedBijection :
    ((0 : BitVec 32).msb = false ∧ (1 : BitVec 32).msb = false ∧ (0 : BitVec 32).toNat < (1 : BitVec 32).toNat) ∧
      ((0x80000000 : BitVec 32).msb = true ∧ (0x80000001 : BitVec 32).msb = true ∧
        (0x80000000 : BitVec 32).toNat < (0x80000001 : BitVec 32).toNat) :=
  by decide

theorem witness_FrontInitBuildsTheRing :
    encReady.faults.flag = false ∧ slotsNeeded Csrs.reset ≤ { Config.defaults with frontMaxLog := 0 }.frontMaxSlots ∧
      { Config.defaults with frontMaxLog := 0 }.frontMaxSlots < slotsNeeded { Csrs.reset with nx := 2 } :=
  by decide

theorem witness_FrontAtReadsTheNeighbourSlot :
    encReady.faults.flag = false ∧ encReady.front.valid = true ∧ FrontInv encReady.front :=
  ⟨rfl, rfl, ready_front⟩

theorem witness_PredictGivesTheLorenzoSum :
    encReady.faults.flag = false ∧ encReady.front.valid = true ∧ FrontInv encReady.front :=
  ⟨rfl, rfl, ready_front⟩

theorem witness_FrontPushWritesOneSlot :
    encReady.faults.flag = false ∧ encReady.front.valid = true ∧ FrontInv encReady.front ∧
      (0xFFFFFFFF : W64).toNat < 2 ^ encReady.front.w.bits :=
  ⟨rfl, rfl, ready_front, by decide +kernel⟩

theorem witness_FrontAdvancePushesZeroMappings :
    encReady.faults.flag = false ∧ encReady.front.valid = true ∧ FrontInv encReady.front ∧
      7 = true.toNat + encReady.front.dy.toNat * true.toNat + encReady.front.dz.toNat * true.toNat ∧
      0 = false.toNat + encReady.front.dy.toNat * false.toNat + encReady.front.dz.toNat * false.toNat :=
  ⟨rfl, rfl, ready_front, by decide +kernel, by decide +kernel⟩

/-- Commands that push: by FRONT_PUSH, by FRONT_ADVANCE, by STEP_ENC and, after RC_DEC_INIT, by STEP_DEC. -/
def somePushes : List (Instr × W64 × W64) :=
  [(.frontPush, 5, 0), (.frontAdvance false true false, 0, 0), (.stepEnc, 0x3F800000, 0), (.rcDecInit, 0, 0),
    (.stepDec, 0, 0)]

theorem witness_NeighbourIsThePushThatLongAgo :
    decReady.faults.flag = false ∧ (∀ c ∈ somePushes, c.1 ≠ .frontInit ∧ c.1 ≠ .reset) ∧
      ∃ s, exec .frontInit { decReady with coder := { decReady.coder with mode := .enc } } = .next s ∧ s.faults.flag = false ∧
        (runPushes somePushes s).map (fun r => (r.1.take 4, r.1.length, r.2.faults.flag)) =
          some ([5, 0x80000000, 0x80000000, 0xBF800000], 5, false) ∧
        2 = false.toNat + s.front.dy.toNat * true.toNat + s.front.dz.toNat * false.toNat ∧
        7 = true.toNat + s.front.dy.toNat * true.toNat + s.front.dz.toNat * true.toNat ∧ 8 ≤ s.front.mask.toNat + 1 :=
  ⟨rfl, by simp [somePushes], exec_next (by decide +kernel)⟩

/-- From the interval `[0, 2^15)` a normalization moves two bytes. -/
theorem two_bytes_moved : BytesMoved 0 (2 ^ 15) 2 := by
  refine ⟨_, _, 2, by decide, fun i hi => ?_, ?_, .inl ⟨?_, rfl, rfl, rfl⟩⟩
  · have : i = 0 ∨ i = 1 := by omega
    obtain rfl | rfl := this <;> rfl
  · exact (by decide : topByte (shifted 0 2) ≠ topByte ((shifted 0 2 + shifted (2 ^ 15) 2) % 2 ^ 32))
  · decide

/-- A decoder whose next narrowing by half leaves `[0, 2^15)`. -/
def narrow (mode : RcMode) (range : W32) (input : List Byte) : State :=
  { ready mode input with coder := { (ready mode input).coder with range := range } }

theorem narrow_coder (mode : RcMode) (input : List Byte) : CoderInv (narrow mode 0x10000 input).coder := by
  constructor
  · exact (by decide : 2 ^ 16 ≤ (0x10000 : W32).toNat)
  · exact (by decide : (0 : W32).toNat + (0x10000 : W32).toNat ≤ 2 ^ 32)

theorem witness_NormalizationFollowsTheProcedure :
    (∀ m ∈ [RcMode.enc, RcMode.dec], ∃ c : Coder, c.mode = m ∧ 1 ≤ c.range.toNat ∧
        c.low.toNat + c.range.toNat ≤ 2 ^ 32) ∧
      (narrow .dec 0x8000 [7]).coder.range.toNat = 2 ^ 15 ∧ BytesMoved 0 (2 ^ 15) 2 ∧
      InputReady (narrow .dec 0x8000 [7, 8]).coder 2 ∧ ¬ InputReady (narrow .dec 0x8000 [7]).coder 2 :=
  ⟨fun m _ => ⟨{ Coder.reset with mode := m, low := 0xFFFFFFFF, range := 1 }, rfl, (by decide : 1 ≤ (1 : W32).toNat),
    (by decide : (0xFFFFFFFF : W32).toNat + (1 : W32).toNat ≤ 2 ^ 32)⟩, rfl, two_bytes_moved, .inl (by decide),
    fun h => by obtain h | h := h <;> revert h <;> decide⟩

theorem witness_NormalizationRestoresTheInvariants :
    ∃ c : Coder, 1 ≤ c.range.toNat ∧ c.low.toNat + c.range.toNat ≤ 2 ^ 32 ∧ (rcNormalize c).isSome = true :=
  ⟨{ Coder.reset with mode := .enc, low := 0x12FFFF00, range := 0x100 }, by decide +kernel⟩

theorem witness_InitCommandsStartTheCoder :
    encReady.faults.flag = false ∧ ¬ InputReady encReady.coder 4 ∧ InputReady decReady.coder 4 ∧
      InputReady { Coder.reset with instream := [1, 2, 3], inMark := true } 4 :=
  ⟨rfl, fun h => by obtain h | h := h <;> revert h <;> decide, .inl (by decide +kernel), .inr rfl⟩

theorem witness_RcEncBitSelectsAHalf :
    encReady.faults.flag = false ∧ encReady.coder.mode = .enc ∧ CoderInv encReady.coder :=
  ⟨rfl, rfl, ready_coder _ _⟩

theorem witness_RcEncRawCodesSixteenBitChunks :
    encReady.faults.flag = false ∧ encReady.coder.mode = .enc ∧ CoderInv encReady.coder ∧ (0 : W64).toNat < 2 ^ 0 ∧
      (0xFFFF : W64).toNat < 2 ^ 16 ∧ (0x1FFFF : W64).toNat < 2 ^ 17 ∧ (0xFFFFFFFFFFFFFFFF : W64).toNat < 2 ^ 64 :=
  ⟨rfl, rfl, ready_coder _ _, by decide +kernel⟩

theorem witness_RcEncSymNarrowsByTheModel :
    encReady.faults.flag = false ∧ encReady.coder.mode = .enc ∧ CoderInv encReady.coder ∧ encReady.model.valid = true ∧
      ModelInv encReady.model ∧ (64 : W64).toNat < encReady.model.s.toNat :=
  ⟨rfl, rfl, ready_coder _ _, rfl, uniform65_inv, by decide +kernel⟩

theorem witness_RcFinishFlushesLow :
    encReady.faults.flag = false ∧ encReady.coder.mode = .enc :=
  ⟨rfl, rfl⟩

theorem witness_RcDecBitGivesTheClampedQuotient :
    (narrow .dec 0x10000 [7]).faults.flag = false ∧ (narrow .dec 0x10000 [7]).coder.mode = .dec ∧
      (narrow .dec 0x10000 [7]).coder.eofErr = false ∧ CoderInv (narrow .dec 0x10000 [7]).coder ∧
      0 = min (quotientNat (narrow .dec 0x10000 [7]).coder (2 ^ 15)) 1 ∧ BytesMoved 0 (2 ^ 15) 2 ∧
      InputReady (narrow .dec 0x10000 [7, 8]).coder 2 ∧ ¬ InputReady (narrow .dec 0x10000 [7]).coder 2 ∧
      (∃ t, exec .rcDecBit (narrow .dec 0x10000 [7, 8]) = .next t ∧ t.holding = false ∧ t.coder.instream = []) ∧
      ∃ t, exec .rcDecBit (narrow .dec 0x10000 [7]) = .next t ∧ t.holding = true :=
  ⟨rfl, rfl, rfl, narrow_coder _ _, by decide, two_bytes_moved, .inl (by decide), fun h => by obtain h | h := h <;> revert h <;> decide,
    exec_next (by decide +kernel), exec_next (by decide +kernel)⟩

theorem witness_RcDecRawJoinsSixteenBitChunks :
    (narrow .dec 0x10000 [7]).faults.flag = false ∧ (narrow .dec 0x10000 [7]).coder.mode = .dec ∧
      (narrow .dec 0x10000 [7]).coder.eofErr = false ∧ CoderInv (narrow .dec 0x10000 [7]).coder ∧
      (∃ t, exec (.rcDecRaw 1) (narrow .dec 0x10000 [7]) = .next t ∧ t.holding = true) ∧
      (∃ t, exec (.rcDecRaw 64) decReady = .next t ∧ t.holding = false) ∧ InputReady decReady.coder 20 ∧
      (∃ t, exec (.rcDecRaw 16) (ready .dec [0]) = .next t ∧ t.holding = true) ∧
      (∃ t, exec (.rcDecRaw 16) (ready .dec [0, 0, 0]) = .next t ∧ t.holding = false) ∧
      ∃ t, exec (.rcDecRaw 32) (ready .dec [0, 0, 0]) = .next t ∧ t.holding = true :=
  ⟨rfl, rfl, rfl, narrow_coder _ _, exec_next (by decide +kernel), exec_next (by decide +kernel), .inl (by decide),
    exec_next (by decide +kernel), exec_next (by decide +kernel), exec_next (by decide +kernel)⟩

theorem witness_RcDecSymFindsTheSymbol :
    (narrow .dec 0x10000 [7]).faults.flag = false ∧ (narrow .dec 0x10000 [7]).coder.mode = .dec ∧
      (narrow .dec 0x10000 [7]).coder.eofErr = false ∧ CoderInv (narrow .dec 0x10000 [7]).coder ∧
      (narrow .dec 0x10000 [7]).model.valid = true ∧ ModelInv (narrow .dec 0x10000 [7]).model ∧
      (∃ t, exec .rcDecSym (narrow .dec 0x10000 [7, 8]) = .next t ∧ t.holding = false) ∧
      ∃ t, exec .rcDecSym (narrow .dec 0x10000 [7]) = .next t ∧ t.holding = true :=
  ⟨rfl, rfl, rfl, narrow_coder _ _, rfl, uniform65_inv, exec_next (by decide +kernel), exec_next (by decide +kernel)⟩

theorem witness_DecodesAfterTheEndReturnZero :
    { decReady with coder := { decReady.coder with eofErr := true } }.faults.flag = false ∧
      { decReady with coder := { decReady.coder with eofErr := true } }.coder.mode = .dec ∧
      { decReady with coder := { decReady.coder with eofErr := true } }.coder.eofErr = true ∧
      decReady.model.valid = true ∧ decReady.model.s.toNat = 2 * decReady.cfg.w.bits + 1 ∧
      (0xFFFFFFFF : W64).toNat < 2 ^ decReady.cfg.w.bits :=
  ⟨rfl, rfl, rfl, rfl, by decide +kernel, by decide +kernel⟩

/-- A configured block that has these bytes of input and the end mark behind them. -/
def atEnd (input : List Byte) : State :=
  { ready .idle input with coder := { (ready .idle input).coder with inMark := true } }

/-- Items of every kind for the range coder's round trip. -/
def someOps : List CoderOp := [.bit true, .raw 12 0x5A5, .sym 32, .raw 64 0x0123456789ABCDEF, .sym 64, .raw 0 0]

/-- The host's encoder side: init, the items, finish. -/
def encoderSide (s : State) : Option State :=
  match exec .rcEncInit s with
  | .next t =>
    match encodeAll someOps t with
    | some u => nextState (exec .rcFinish u)
    | none => none
  | .fault _ => none
  | .refused _ => none

/-- The bytes the encoder side emits. -/
def someBytes : List Byte := [0xAD, 0x2C, 0x13, 0x49, 0x81, 0xAB, 0xBD, 0x67, 0x79, 0x23, 0x5B, 0xC2, 0x00, 0x00]

theorem witness_MirrorDecodesReturnTheEncodedValues :
    encReady.faults.flag = false ∧ encReady.model.valid = true ∧ ModelInv encReady.model ∧
      (atEnd someBytes).model = encReady.model ∧ (∀ op ∈ someOps, op.Legal encReady.model.s.toNat) ∧
      (encoderSide encReady).map (·.coder.outstream) =
        some (encReady.coder.outstream ++ (atEnd someBytes).coder.instream) ∧
      (atEnd someBytes).coder.inMark = true ∧ (atEnd someBytes).faults.flag = false :=
  ⟨rfl, rfl, uniform65_inv, rfl, by simp [someOps, CoderOp.Legal, encReady, ready, uniform65], by decide +kernel, rfl,
    rfl⟩

theorem witness_QsmInitBuildsTheUniformModel :
    State.reset.faults.flag = false ∧ CsrsLegal State.reset.cfg ∧ State.reset.model.search.length = 129 ∧
      State.reset.cfg.qsmS.toNat ≤ 2 ^ State.reset.cfg.qsmBits.toNat ∧
      rescaleInit State.reset.cfg.qsmS.toNat ≤ State.reset.cfg.qsmPeriod.toNat :=
  ⟨rfl, by constructor <;> decide, rfl, by decide +kernel, by decide +kernel⟩

theorem witness_QsmResetRestoresTheInitialModel :
    encReady.faults.flag = false ∧ encReady.model.valid = true ∧ ModelInv encReady.model ∧ CsrsLegal encReady.cfg ∧
      encReady.model.search.length = 129 ∧
      after .qsmInit encReady (fun t => (t.faults.flag, t.model.s, t.model.bits, t.model.period)) =
        some (false, encReady.model.s, encReady.model.bits, encReady.model.period) :=
  ⟨rfl, rfl, uniform65_inv, ready_cfg, ready_model.search_length, by decide +kernel⟩

theorem witness_QsmEncLooksUpThenUpdates :
    encReady.faults.flag = false ∧ encReady.model.valid = true ∧ ModelInv encReady.model ∧
      (64 : W64).toNat < encReady.model.s.toNat :=
  ⟨rfl, rfl, uniform65_inv, by decide +kernel⟩

theorem witness_QsmDecFindsTheOneSymbol :
    encReady.faults.flag = false ∧ encReady.model.valid = true ∧ ModelInv encReady.model ∧
      (127 : W64).toNat < 2 ^ encReady.model.bits.toNat :=
  ⟨rfl, rfl, uniform65_inv, by decide +kernel⟩

theorem witness_ResEncCodesClassThenRawBits :
    encReady.faults.flag = false ∧ encReady.coder.mode = .enc ∧ CoderInv encReady.coder ∧ encReady.model.valid = true ∧
      ModelInv encReady.model ∧ encReady.model.s.toNat = 2 * encReady.cfg.w.bits + 1 ∧
      (0xFFFFFFFF : W64).toNat < 2 ^ encReady.cfg.w.bits ∧ (0xFFFFFFFF ≠ 0 ∧ 31 = Nat.log2 0xFFFFFFFF ∧
        (0 : W64).toNat + 0xFFFFFFFF = (0xFFFFFFFF : W64).toNat ∧ 64 = encReady.cfg.w.bits + 1 + 31 ∧
        0 = encReady.cfg.w.bits - 1 - 31) ∧ (1 ≠ 0 ∧ 0 = Nat.log2 1) :=
  ⟨rfl, rfl, ready_coder _ _, rfl, uniform65_inv, by decide +kernel⟩

theorem witness_ResDecAppliesTheResidual :
    decReady.faults.flag = false ∧ decReady.coder.mode = .dec ∧ decReady.coder.eofErr = false ∧ CoderInv decReady.coder ∧
      decReady.model.valid = true ∧ ModelInv decReady.model ∧ InputReady decReady.coder 25 ∧
      decReady.model.s.toNat = 2 * decReady.cfg.w.bits + 1 ∧ (0xFFFFFFFF : W64).toNat < 2 ^ decReady.cfg.w.bits ∧
      (∃ t, exec .rcDecSym (narrow .dec 0x10000 [7]) = .next t ∧ t.holding = true) ∧
      (∃ t, exec .rcDecSym (narrow .dec 0x10000 [0, 0]) = .next t ∧ t.holding = false ∧ t.dout0 = 0) ∧
      ∃ t, exec .resDec (narrow .dec 0x10000 [0, 0]) = .next t ∧ t.holding = true :=
  ⟨rfl, rfl, rfl, ready_coder _ _, rfl, uniform65_inv, .inl (by decide), by decide, by decide, exec_next (by decide +kernel),
    exec_next (by decide +kernel), exec_next (by decide +kernel)⟩

theorem witness_StepEncChainsTheUnits :
    encReady.faults.flag = false ∧ encReady.coder.mode = .enc ∧ CoderInv encReady.coder ∧ encReady.model.valid = true ∧
      encReady.front.valid = true ∧ ModelInv encReady.model ∧ FrontInv encReady.front ∧
      encReady.model.s.toNat = 2 * encReady.cfg.w.bits + 1 ∧ encReady.front.w = encReady.cfg.w ∧
      (0xFFFFFFFF : W64).toNat < 2 ^ encReady.cfg.w.bits :=
  ⟨rfl, rfl, ready_coder _ _, rfl, rfl, uniform65_inv, ready_front, by decide +kernel⟩

theorem witness_StepDecChainsTheUnits :
    decReady.faults.flag = false ∧ decReady.coder.mode = .dec ∧ decReady.coder.eofErr = false ∧ CoderInv decReady.coder ∧
      decReady.model.valid = true ∧ decReady.front.valid = true ∧ ModelInv decReady.model ∧ FrontInv decReady.front ∧
      InputReady decReady.coder 25 ∧ decReady.model.s.toNat = 2 * decReady.cfg.w.bits + 1 ∧
      decReady.front.w = decReady.cfg.w ∧ ∃ t, exec .stepDec (narrow .dec 0x10000 [0, 0]) = .next t ∧ t.holding = true :=
  ⟨rfl, rfl, rfl, ready_coder _ _, rfl, rfl, uniform65_inv, ready_front, .inl (by decide), by decide, by decide, exec_next (by decide +kernel)⟩

/-- Commands of every kind for the block's round trip. -/
def someSteps : List BlockOp :=
  [.both .qsmInit 0 0, .both .frontInit 0 0, advance false false true, .sample 0x3F800000, .both .frontPush 9 0,
    .item (.sym 64), .both .qsmEnc 3 0, .residual 5 3, .both .qsmReset 0 0, .item (.raw 20 0x12345),
    .both (.csrWrite 0x01) 2 0, .item (.bit true), .both .qsmDec 77 0, .sample 0xFFFFFFFF]

/-- The state after the run and before its RC_FINISH. -/
def runSide (s : State) : Option State :=
  match exec .rcEncInit s with
  | .next t => encodeBlock someSteps t
  | .fault _ => none
  | .refused _ => none

/-- The bytes the run and its RC_FINISH emit. -/
def runBytes : List Byte := [0xF7, 0xFF, 0xFF, 0xFE, 0x13, 0xDC, 0x60, 0x22, 0xAE, 0xF7, 0xE0, 0x13, 0x58, 0x40, 0x00, 0x00, 0x00]

theorem witness_MirrorBlockRunReturnsTheSamples :
    encReady.faults.flag = false ∧ ModelOk encReady.model ∧ (∀ op ∈ someSteps, op.Mirrored) ∧ CsrsLegal encReady.cfg ∧
      (atEnd runBytes).model = encReady.model ∧ (atEnd runBytes).front = encReady.front ∧
      (atEnd runBytes).cfg = encReady.cfg ∧ (atEnd runBytes).params = encReady.params ∧
      (runSide encReady).map (·.faults.flag) = some false ∧
      ((runSide encReady).bind fun u => nextState (exec .rcFinish u)).map (·.coder.outstream) =
        some (encReady.coder.outstream ++ (atEnd runBytes).coder.instream) ∧
      (atEnd runBytes).coder.inMark = true ∧ (atEnd runBytes).faults.flag = false :=
  ⟨rfl, ready_model, by simp [someSteps, advance, BlockOp.Mirrored, needsEnc, needsDec], ready_cfg, rfl, rfl, rfl, rfl,
    by decide +kernel, by decide +kernel, rfl, rfl⟩

theorem witness_ScheduleMakesTheNeighboursCausal :
    encReady.faults.flag = false ∧ encReady.coder.mode = .enc ∧ CoderInv encReady.coder ∧ encReady.model.valid = true ∧
      ModelInv encReady.model ∧ encReady.model.s.toNat = 2 * encReady.cfg.w.bits + 1 ∧
      slotsNeeded encReady.cfg ≤ encReady.params.frontMaxSlots ∧
      (∀ rows ∈ ([[[0xFFFFFFFF]], [[0]]] : List (List (List W64))), rows.length = encReady.cfg.ny.toNat ∧
        ∀ row ∈ rows, row.length = encReady.cfg.nx.toNat ∧ ∀ v ∈ row, v.toNat < 2 ^ encReady.cfg.w.bits) ∧
      0 < encReady.cfg.nx.toNat ∧ 0 < encReady.cfg.ny.toNat ∧ 1 < ([[[0xFFFFFFFF]], [[0]]] : List (List (List W64))).length :=
  ⟨rfl, rfl, ready_coder _ _, rfl, uniform65_inv, by decide, by decide +kernel,
    by simp [encReady, ready, Csrs.reset, Width.bits], by decide⟩

theorem witness_StepKeepsTheRegistersLegal :
    CsrsLegal (encReady.withFetchWord 32 0x03000003).cfg ∧
      FaultRegsOk (encReady.withFetchWord 32 0x03000003).faults ∧
      ∃ t, step (encReady.withFetchWord 32 0x03000003) = .next t ∧ t.faults.flag = true :=
  ⟨ready_cfg, ⟨rfl, rfl⟩, step_next (by decide +kernel)⟩

theorem witness_StepKeepsTheModelInvariants :
    CsrsLegal encReady.cfg ∧ ModelOk encReady.model ∧
      ∃ t, step (encReady.withFetchWord 32 0x22000000) = .next t ∧ t.model.left = 8 :=
  ⟨ready_cfg, ready_model, step_next (by decide +kernel)⟩

theorem witness_StepKeepsTheCoderInvariants :
    CoderInv encReady.coder ∧ ModelOk encReady.model ∧
      ∃ t, step (encReady.withFetchWord 32 0x11000001) = .next t ∧ t.coder.low = 0x7FFFFFFF :=
  ⟨ready_coder _ _, ready_model, step_next (by decide +kernel)⟩

theorem witness_StepKeepsTheFrontInvariants :
    FrontOk encReady.front ∧ ∃ t, step (encReady.withFetchWord 32 0x42000000) = .next t ∧ t.front.ring = [(0, 0)] :=
  ⟨fun _ => ready_front, step_next (by decide +kernel)⟩

theorem witness_OnlyInitsFinishAndResetSetTheMode :
    (∃ t, exec .rcFinish encReady = .next t ∧ t.coder.mode ≠ encReady.coder.mode) ∧
      ∃ t, exec .rcEncInit { encReady with coder := { encReady.coder with eofErr := true, corrupt := true } } = .next t ∧
        t.coder.eofErr = false ∧ t.coder.corrupt = false :=
  ⟨exec_next (by decide +kernel), exec_next (by decide +kernel)⟩

theorem witness_StreamsKeepTheirOrder :
    ∃ t, exec .rcFinish encReady = .next t ∧ Instr.rcFinish ≠ .reset ∧ t.coder.outstream = [0, 0, 0, 0] :=
  exec_next (by decide +kernel)

theorem witness_OperandsAndResultsAreWrittenAsListed :
    ∃ t, exec .qsmEnc { encReady with din0 := 5 } = .next t ∧ t.dout0 ≠ encReady.dout0 ∧ t.dout1 ≠ encReady.dout1 :=
  exec_next (by decide +kernel)

theorem witness_UnitsChangeOnlyByTheirCommands :
    (∃ t, exec (.csrWrite 0x01) { encReady with din0 := 8 } = .next t ∧ t.cfg ≠ encReady.cfg) ∧
      (∃ t, exec .qsmInit State.reset = .next t ∧ t.model.valid ≠ State.reset.model.valid) ∧
      (∃ t, exec .frontInit { encReady with front := Front.reset } = .next t ∧ t.front ≠ Front.reset) ∧
      (∃ t, exec .qsmEnc encReady = .next t ∧ t.model ≠ encReady.model) ∧
      ∃ t, exec (.rcEncBit true) encReady = .next t ∧ t.coder ≠ encReady.coder :=
  ⟨exec_next (by decide +kernel), exec_next (by decide +kernel), exec_next (by decide +kernel),
    exec_next (by decide +kernel), exec_next (by decide +kernel)⟩

end Sys2Proof.Tests
end

section
/-! PROOFS. What a command can do: one relation that says, command by command, the state a completed command ends in,
and the inversion of `exec` into it. Everything said of every command goes through `exec_answers`. -/

namespace Sys2Proof.Proofs

open Sys2Proof.Machine Sys2Proof.Safety Sys2Proof.Laws

/-! ### The state a completed command ends in -/

/-- Command `i` runs from `s` to its end at `t`, without a fault and without a hold. -/
inductive Completes (s : State) : Instr → State → Prop
  | nop : Completes s .nop s
  | reset : Completes s .reset (resetBlock s)
  | csrRead {c : Nat} {v : W64} (h : csrValue c s = .ok v) : Completes s (.csrRead c) { s with dout0 := v }
  | csrWrite {c : Nat} {k : Csrs} (h : csrWritten c s.din0 s.cfg = .ok k) :
      Completes s (.csrWrite c) { s with cfg := k }
  | rcEncInit : Completes s .rcEncInit { s with coder := { freshCoder .enc s.coder with bytesOut := 0 } }
  | rcEncBit {b : Bool} {c : Coder} (h : rcEncShift (BitVec.ofNat 32 b.toNat) 1 s.coder = some c) :
      Completes s (.rcEncBit b) { s with coder := c }
  | rcEncRaw {n : Nat} {c : Coder} (h : rcEncRaw s.din0 n s.coder = some c) :
      Completes s (.rcEncRaw n) { s with coder := c }
  | rcEncSym {c : Coder} {m : Model} (h : rcEncSym s.din0.toNat s.coder s.model = some (c, m)) :
      Completes s .rcEncSym { s with coder := c, model := m }
  | rcFinish {c : Coder} (h : rcShift 4 s.coder = some c) :
      Completes s .rcFinish { s with coder := { c with mode := .done } }
  | rcDecInit {c : Coder} (h : rcShift 4 { freshCoder .dec s.coder with bytesIn := 0 } = some c) :
      Completes s .rcDecInit { s with coder := c }
  | rcDecBit {q : W32} {c : Coder} (h : rcDecShift 1 s.coder = some (q, c)) :
      Completes s .rcDecBit { s with coder := c, dout0 := zext q }
  | rcDecRaw {n : Nat} {v : W64} {c : Coder} (h : rcDecRaw n s.coder = some (v, c)) :
      Completes s (.rcDecRaw n) { s with coder := c, dout0 := v }
  | rcDecSym {sym : Nat} {c : Coder} {m : Model} (h : rcDecSym s.coder s.model = some (sym, c, m)) :
      Completes s .rcDecSym { s with coder := c, model := m, dout0 := BitVec.ofNat 64 sym }
  | qsmInit : Completes s .qsmInit { s with model := { qsmReset (qsmLatch s.cfg s.model) with valid := true } }
  | qsmReset : Completes s .qsmReset { s with model := qsmReset s.model }
  | qsmEnc {r : Lookup} (h : r = qsmEncodeLookup s.din0.toNat s.model) :
      Completes s .qsmEnc { s with model := r.model, dout0 := s.din0, dout1 := pack r.freq r.cum }
  | qsmDec {r : Lookup} (h : r = qsmDecodeLookup (s.din0.setWidth 32) s.model) :
      Completes s .qsmDec { s with model := r.model, dout0 := BitVec.ofNat 64 r.sym, dout1 := pack r.freq r.cum }
  | mapFwd : Completes s .mapFwd { s with dout0 := mapForwardW s.cfg.w s.din0 }
  | mapInv : Completes s .mapInv { s with dout0 := mapInverseW s.cfg.w s.din0 }
  | frontInit : Completes s .frontInit { s with front := freshFront s.cfg }
  | frontAt {x y z : Bool} : Completes s (.frontAt x y z) { s with dout0 := neighbour s.front x y z }
  | frontPush : Completes s .frontPush { s with front := frontPushValue s.din0 s.front }
  | frontAdvance {x y z : Bool} : Completes s (.frontAdvance x y z)
      { s with front := frontPushZeros (neighbourOffset s.front x y z) s.front }
  | predict : Completes s .predict { s with dout0 := lorenzo s.front }
  | resEnc {c : Coder} {m : Model}
      (h : resEncode s.params s.cfg.w s.din0 s.din1 s.coder s.model = some (c, m)) :
      Completes s .resEnc { s with coder := c, model := m }
  | resDec {a : W64} {c : Coder} {m : Model}
      (h : resDecode s.params s.cfg.w s.din1 s.coder s.model = some (a, c, m)) :
      Completes s .resDec { s with coder := c, model := m, dout0 := a }
  | stepEnc {a p : W64} {c : Coder} {m : Model} (ha : a = mapForwardW s.cfg.w s.din0) (hp : p = lorenzo s.front)
      (h : resEncode s.params s.cfg.w a p s.coder s.model = some (c, m)) :
      Completes s .stepEnc
        { s with coder := c, model := m, front := frontPushValue a s.front, dout0 := a, dout1 := p }
  | stepDec {a p : W64} {c : Coder} {m : Model} (hp : p = lorenzo s.front)
      (h : resDecode s.params s.cfg.w p s.coder s.model = some (a, c, m)) :
      Completes s .stepDec { s with
        coder := c, model := m, front := frontPushValue a s.front, dout0 := mapInverseW s.cfg.w a, dout1 := p }

/-- The four ways a command ends (60_exceptions.md R1101, R1104; 20_memory.md R203): it is ignored, it faults, it holds,
or it completes. -/
inductive Answers (i : Instr) (s : State) : State → Prop
  | ignored (h : s.faults.flag = true) : Answers i s s
  | faults (h : s.faults.flag = false) (cause : Cause) : Answers i s (faulted i (causeCode cause) s)
  | holds (h : s.faults.flag = false) : Answers i s { s with holding := true }
  | completes {t : State} (h : Completes s i t) : Answers i s t

/-! ### The inversion of exec -/

theorem withCoder_eq_some {s t : State} {o : Option Coder} :
    withCoder s o = some t ↔ ∃ c, o = some c ∧ t = { s with coder := c } := by
  cases o <;> simp [eq_comm]

theorem withCoderModel_eq_some {s t : State} {o : Option (Coder × Model)} :
    withCoderModel s o = some t ↔ ∃ c m, o = some (c, m) ∧ t = { s with coder := c, model := m } := by
  obtain _ | ⟨c, m⟩ := o <;> simp [and_assoc, eq_comm]

/-- A command run under its checks answers as soon as its effect, where it has one, completes it. -/
theorem command_answers {i : Instr} {s t : State} {checks : List Check} {effect : State → Option State}
    (h : command i s checks effect = .next t) (he : effect s = some t → Completes s i t) : Answers i s t := by
  obtain ⟨hf, rfl⟩ | ⟨hf, c, -, rfl⟩ | ⟨hf, -, -, rfl⟩ | ⟨-, -, hs⟩ := command_cases h
  · exact .ignored hf
  · exact .faults hf c
  · exact .holds hf
  · exact .completes (he hs)

/-- The fault action of a command's own word is an answer: ignored while halted, else the fault. -/
theorem raiseFault_answers (i : Instr) (c : Cause) (s : State) : Answers i s (raiseFault (encode i) c s) := by
  obtain ⟨hf, hr⟩ | ⟨hf, hr⟩ := raiseFault_cases (encode i) c s
  · rw [hr]; exact .ignored hf
  · rw [hr]; exact .faults hf c

theorem execCsrRead_answers {c : Nat} {s t : State} (h : execCsrRead c s = .next t) : Answers (.csrRead c) s t := by
  unfold execCsrRead at h
  split at h
  · next hv => cases h; exact .completes (.csrRead hv)
  · cases h; exact raiseFault_answers ..

theorem execCsrWrite_answers {c : Nat} {s t : State} (h : execCsrWrite c s = .next t) : Answers (.csrWrite c) s t := by
  unfold execCsrWrite at h
  split at h
  · next hf => cases h; exact .ignored hf
  · split at h
    · next hk => cases h; exact .completes (.csrWrite hk)
    · cases h; exact raiseFault_answers ..

theorem execRcFinish_answers {s t : State} (h : execRcFinish s = .next t) : Answers .rcFinish s t :=
  command_answers h fun he => by
    split at he
    · cases he
    · next hc => cases he; exact .rcFinish hc

theorem execRcDecBit_answers {s t : State} (h : execRcDecBit s = .next t) : Answers .rcDecBit s t :=
  command_answers h fun he => by
    split at he
    · cases he
    · next hc => cases he; exact .rcDecBit hc

theorem execRcDecRaw_answers {n : Nat} {s t : State} (h : execRcDecRaw n s = .next t) : Answers (.rcDecRaw n) s t :=
  command_answers h fun he => by
    split at he
    · cases he
    · next hc => cases he; exact .rcDecRaw hc

theorem execRcDecSym_answers {s t : State} (h : execRcDecSym s = .next t) : Answers .rcDecSym s t :=
  command_answers h fun he => by
    split at he
    · cases he
    · next hc => cases he; exact .rcDecSym hc

theorem execResDec_answers {s t : State} (h : execResDec s = .next t) : Answers .resDec s t :=
  command_answers h fun he => by
    split at he
    · cases he
    · next hc => cases he; exact .resDec hc

theorem execStepEnc_answers {s t : State} (h : execStepEnc s = .next t) : Answers .stepEnc s t :=
  command_answers h fun he => by
    dsimp only at he
    split at he
    · cases he
    · next hc => cases he; exact .stepEnc rfl rfl hc

theorem execStepDec_answers {s t : State} (h : execStepDec s = .next t) : Answers .stepDec s t :=
  command_answers h fun he => by
    dsimp only at he
    split at he
    · cases he
    · next hc => cases he; exact .stepDec rfl hc

/-- The commands that write the coder alone, from the coder alone. -/
theorem withCoder_completes {i : Instr} {s t : State} {o : Option Coder}
    (hi : ∀ c, o = some c → Completes s i { s with coder := c }) (h : withCoder s o = some t) : Completes s i t := by
  obtain ⟨c, hc, rfl⟩ := withCoder_eq_some.mp h
  exact hi c hc

/-- The commands that write the coder and the model alone. -/
theorem withCoderModel_completes {i : Instr} {s t : State} {o : Option (Coder × Model)}
    (hi : ∀ c m, o = some (c, m) → Completes s i { s with coder := c, model := m })
    (h : withCoderModel s o = some t) : Completes s i t := by
  obtain ⟨c, m, hc, rfl⟩ := withCoderModel_eq_some.mp h
  exact hi c m hc

/-- Everything a command can do. -/
theorem exec_answers {i : Instr} {s t : State} (h : exec i s = .next t) : Answers i s t := by
  unfold exec at h
  cases i with
  | nop => cases h; exact .completes .nop
  | reset => cases h; exact .completes .reset
  | csrRead c => exact execCsrRead_answers h
  | csrWrite c => exact execCsrWrite_answers h
  | rcEncInit => exact command_answers h fun he => by cases he; exact .rcEncInit
  | rcEncBit b => exact command_answers h (withCoder_completes fun _ => .rcEncBit)
  | rcEncRaw n => exact command_answers h (withCoder_completes fun _ => .rcEncRaw)
  | rcEncSym => exact command_answers h (withCoderModel_completes fun _ _ => .rcEncSym)
  | rcFinish => exact execRcFinish_answers h
  | rcDecInit => exact command_answers h (withCoder_completes fun _ => .rcDecInit)
  | rcDecBit => exact execRcDecBit_answers h
  | rcDecRaw n => exact execRcDecRaw_answers h
  | rcDecSym => exact execRcDecSym_answers h
  | qsmInit => exact command_answers h fun he => by cases he; exact .qsmInit
  | qsmReset => exact command_answers h fun he => by cases he; exact .qsmReset
  | qsmEnc => exact command_answers h fun he => by cases he; exact .qsmEnc rfl
  | qsmDec => exact command_answers h fun he => by cases he; exact .qsmDec rfl
  | mapFwd => exact command_answers h fun he => by cases he; exact .mapFwd
  | mapInv => exact command_answers h fun he => by cases he; exact .mapInv
  | frontInit => exact command_answers h fun he => by cases he; exact .frontInit
  | frontAt x y z => exact command_answers h fun he => by cases he; exact .frontAt
  | frontPush => exact command_answers h fun he => by cases he; exact .frontPush
  | frontAdvance x y z => exact command_answers h fun he => by cases he; exact .frontAdvance
  | predict => exact command_answers h fun he => by cases he; exact .predict
  | resEnc => exact command_answers h (withCoderModel_completes fun _ _ => .resEnc)
  | resDec => exact execResDec_answers h
  | stepEnc => exact execStepEnc_answers h
  | stepDec => exact execStepDec_answers h

/-- A command that does not complete has changed the fault registers or the hold, and nothing else. -/
theorem exec_frame {i : Instr} {s t : State} (h : exec i s = .next t) :
    (∃ r b, t = { s with faults := r, holding := b }) ∨ Completes s i t := by
  cases exec_answers h with
  | ignored => exact .inl ⟨s.faults, s.holding, rfl⟩
  | faults => exact .inl ⟨_, s.holding, rfl⟩
  | holds => exact .inl ⟨s.faults, true, rfl⟩
  | completes hc => exact .inr hc

/-! ### What a completed command leaves unchanged -/

/-- A completed command keeps DIN0, DIN1 (10_state.md R102), the parameters, the host's plans and the port. -/
theorem Completes.inputs {i : Instr} {s t : State} (h : Completes s i t) :
    t.din0 = s.din0 ∧ t.din1 = s.din1 ∧ t.params = s.params ∧ t.host = s.host ∧ t.port = s.port := by
  cases h <;> exact ⟨rfl, rfl, rfl, rfl, rfl⟩

/-- Only RESET clears the fault registers; no completed command sets them. -/
theorem Completes.faults_cases {i : Instr} {s t : State} (h : Completes s i t) :
    (i = .reset ∧ t.faults = FaultRegs.reset) ∨ t.faults = s.faults := by
  cases h with
  | reset => exact .inl ⟨rfl, rfl⟩
  | _ => exact .inr rfl

/-- The RW CSRs after a completed command: reset, written, or as before (10_state.md R122). -/
theorem Completes.cfg_cases {i : Instr} {s t : State} (h : Completes s i t) :
    (i = .reset ∧ t.cfg = Csrs.reset) ∨ (∃ c, i = .csrWrite c ∧ csrWritten c s.din0 s.cfg = .ok t.cfg) ∨
      t.cfg = s.cfg := by
  cases h with
  | reset => exact .inl ⟨rfl, rfl⟩
  | csrWrite hk => exact .inr (.inl ⟨_, rfl, hk⟩)
  | _ => exact .inr (.inr rfl)

/-- The commands that write DOUT1 (30_encoding.md R303). -/
theorem Completes.dout1_cases {i : Instr} {s t : State} (h : Completes s i t) :
    i ∈ [.reset, .qsmEnc, .qsmDec, .stepEnc, .stepDec] ∨ t.dout1 = s.dout1 := by
  cases h with
  | reset | qsmEnc | qsmDec | stepEnc | stepDec => exact .inl (by decide)
  | _ => exact .inr rfl

/-- The commands that write DOUT0 (30_encoding.md R303). -/
theorem Completes.dout0_cases {i : Instr} {s t : State} (h : Completes s i t) :
    ((∃ c, i = .csrRead c) ∨ (∃ n, i = .rcDecRaw n) ∨ (∃ x y z, i = .frontAt x y z) ∨
      i ∈ [.reset, .rcDecBit, .rcDecSym, .qsmEnc, .qsmDec, .mapFwd, .mapInv, .predict, .resDec, .stepEnc, .stepDec]) ∨
      t.dout0 = s.dout0 := by
  cases h with
  | csrRead => exact .inl (.inl ⟨_, rfl⟩)
  | rcDecRaw => exact .inl (.inr (.inl ⟨_, rfl⟩))
  | frontAt => exact .inl (.inr (.inr (.inl ⟨_, _, _, rfl⟩)))
  | reset | rcDecBit | rcDecSym | qsmEnc | qsmDec | mapFwd | mapInv | predict | resDec | stepEnc | stepDec =>
    exact .inl (.inr (.inr (.inr (by decide))))
  | _ => exact .inr rfl

/-- The commands that write the coder (10_state.md R129). -/
theorem Completes.coder_cases {i : Instr} {s t : State} (h : Completes s i t) :
    i = .reset ∨ (i = .rcEncInit ∨ i = .rcDecInit ∨ needsEnc i = true ∨ needsDec i = true) ∨ t.coder = s.coder := by
  cases h with
  | reset => exact .inl rfl
  | rcEncInit => exact .inr (.inl (.inl rfl))
  | rcDecInit => exact .inr (.inl (.inr (.inl rfl)))
  | rcEncBit | rcEncRaw | rcEncSym | rcFinish | resEnc | stepEnc => exact .inr (.inl (.inr (.inr (.inl rfl))))
  | rcDecBit | rcDecRaw | rcDecSym | resDec | stepDec => exact .inr (.inl (.inr (.inr (.inr rfl))))
  | _ => exact .inr (.inr rfl)

/-- The commands that write the model (10_state.md R127). -/
theorem Completes.model_cases {i : Instr} {s t : State} (h : Completes s i t) :
    i = .reset ∨ (i = .qsmInit ∨ needsModel i = true) ∨ t.model = s.model := by
  cases h with
  | reset => exact .inl rfl
  | qsmInit => exact .inr (.inl (.inl rfl))
  | qsmReset | qsmEnc | qsmDec | rcEncSym | rcDecSym | resEnc | resDec | stepEnc | stepDec =>
    exact .inr (.inl (.inr rfl))
  | _ => exact .inr (.inr rfl)

/-- The commands that write the front (10_state.md R127). -/
theorem Completes.front_cases {i : Instr} {s t : State} (h : Completes s i t) :
    i = .reset ∨ (i ∈ [.frontInit, .frontPush, .stepEnc, .stepDec] ∨ ∃ x y z, i = .frontAdvance x y z) ∨
      t.front = s.front := by
  cases h with
  | reset => exact .inl rfl
  | frontInit | frontPush | stepEnc | stepDec => exact .inr (.inl (.inl (by decide)))
  | frontAdvance => exact .inr (.inl (.inr ⟨_, _, _, rfl⟩))
  | _ => exact .inr (.inr rfl)

end Sys2Proof.Proofs
end

section
/-! PROOFS. What the procedures of the coder, the model and the front leave unchanged: the mode and the two sticky flags
(10_state.md R104, R108, R109), the model's latched parameters (R112), the front's geometry (R118). -/

namespace Sys2Proof.Proofs

open Sys2Proof.Machine Sys2Proof.Safety Sys2Proof.Laws

/-! ### The coder's mode and flags -/

/-- `RC_MODE` is kept, and a set `EOF_ERR` or `CORRUPT` stays set. -/
structure FlagsKept (c c' : Coder) : Prop where
  mode : c'.mode = c.mode
  eofErr : c.eofErr = true → c'.eofErr = true
  corrupt : c.corrupt = true → c'.corrupt = true

theorem FlagsKept.refl (c : Coder) : FlagsKept c c := ⟨rfl, id, id⟩

theorem FlagsKept.trans {a b c : Coder} (h : FlagsKept a b) (h' : FlagsKept b c) : FlagsKept a c :=
  ⟨h'.mode.trans h.mode, h'.eofErr ∘ h.eofErr, h'.corrupt ∘ h.corrupt⟩

/-- A change of other fields before does not matter. -/
theorem FlagsKept.after {c d c' : Coder} (h : FlagsKept d c') (mode : d.mode = c.mode)
    (eofErr : c.eofErr = true → d.eofErr = true) (corrupt : c.corrupt = true → d.corrupt = true) : FlagsKept c c' :=
  .trans ⟨mode, eofErr, corrupt⟩ h

theorem getByte_flagsKept {c c' : Coder} {b : Byte} (h : getByte c = some (b, c')) : FlagsKept c c' := by
  obtain ⟨_, _, -, hg⟩ | ⟨-, -, hg⟩ | ⟨-, -, hg⟩ := getByte_cases c <;> rw [hg] at h <;> cases h
  · exact ⟨rfl, id, id⟩
  · exact ⟨rfl, fun _ => rfl, id⟩

theorem rcShiftByte_flagsKept {c c' : Coder} (h : rcShiftByte c = some c') : FlagsKept c c' := by
  by_cases hm : c.mode = .enc
  · rw [rcShiftByte_enc hm] at h
    cases h
    exact ⟨rfl, id, id⟩
  · rw [rcShiftByte_dec hm, Option.map_eq_some_iff] at h
    obtain ⟨⟨b, d⟩, hg, rfl⟩ := h
    obtain ⟨mode, eofErr, corrupt⟩ := getByte_flagsKept hg
    exact ⟨mode, eofErr, corrupt⟩

theorem rcShift_flagsKept {n : Nat} {c c' : Coder} (h : rcShift n c = some c') : FlagsKept c c' := by
  induction n generalizing c with
  | zero => cases h; exact .refl _
  | succ n ih =>
    unfold rcShift at h
    split at h
    · cases h
    · next d hd => exact (rcShiftByte_flagsKept hd).trans (ih h)

theorem rcNormalizeLoop_flagsKept {fuel : Nat} {c c' : Coder} (h : rcNormalizeLoop fuel c = some c') :
    FlagsKept c c' := by
  induction fuel generalizing c with
  | zero => cases h; exact .refl _
  | succ fuel ih =>
    unfold rcNormalizeLoop at h
    split at h
    · split at h
      · cases h
      · next d hd => exact (rcShift_flagsKept hd).trans ((ih h).after rfl id id)
    · cases h; exact .refl _

theorem rcFudge_flagsKept {c c' : Coder} (h : rcFudge c = some c') : FlagsKept c c' := by
  unfold rcFudge at h
  split at h
  · split at h
    · cases h
    · next d hd =>
      cases h
      obtain ⟨mode, eofErr, corrupt⟩ := rcShift_flagsKept hd
      exact ⟨mode, eofErr, corrupt⟩
  · cases h; exact .refl _

theorem rcNormalize_flagsKept {c c' : Coder} (h : rcNormalize c = some c') : FlagsKept c c' := by
  unfold rcNormalize at h
  split at h
  · cases h
  · next d hd => exact (rcNormalizeLoop_flagsKept hd).trans (rcFudge_flagsKept h)

/-- A narrowing writes `LOW` and `RANGE`, and may set `CORRUPT`; the normalization after it keeps the flags. -/
theorem rcNormalize_narrowed_flagsKept {c c' : Coder} {low range : W32} {bad : Bool}
    (h : rcNormalize { c with range := range, corrupt := c.corrupt || bad, low := low } = some c') : FlagsKept c c' :=
  (rcNormalize_flagsKept h).after rfl id fun hc => by simp [hc]

theorem rcEncShift_flagsKept {v : W32} {n : Nat} {c c' : Coder} (h : rcEncShift v n c = some c') : FlagsKept c c' :=
  (rcNormalize_flagsKept h).after rfl id id

theorem rcDecShift_flagsKept {n : Nat} {q : W32} {c c' : Coder} (h : rcDecShift n c = some (q, c')) :
    FlagsKept c c' := by
  unfold rcDecShift at h
  split at h
  · cases h; exact .refl _
  · dsimp only at h
    split at h
    · cases h
    · next hd => cases h; exact rcNormalize_narrowed_flagsKept hd

theorem rcEncRawLoop_flagsKept {fuel n : Nat} {v : W64} {c c' : Coder} (h : rcEncRawLoop fuel v n c = some c') :
    FlagsKept c c' := by
  induction fuel generalizing v n c with
  | zero => exact rcEncShift_flagsKept h
  | succ fuel ih =>
    unfold rcEncRawLoop at h
    split at h
    · split at h
      · cases h
      · next d hd => exact (rcEncShift_flagsKept hd).trans (ih h)
    · exact rcEncShift_flagsKept h

theorem rcDecRawLoop_flagsKept {fuel n : Nat} {v : W64} {c c' : Coder} (h : rcDecRawLoop fuel n c = some (v, c')) :
    FlagsKept c c' := by
  induction fuel generalizing v n c c' with
  | zero =>
    unfold rcDecRawLoop at h
    split at h
    · cases h
    · next hd => cases h; exact rcDecShift_flagsKept hd
  | succ fuel ih =>
    unfold rcDecRawLoop at h
    split at h
    · split at h
      · cases h
      · next hd =>
        split at h
        · cases h
        · next hr => cases h; exact (rcDecShift_flagsKept hd).trans (ih hr)
    · split at h
      · cases h
      · next hd => cases h; exact rcDecShift_flagsKept hd

/-! ### The model's parameters -/

/-- The latched parameters and the valid bit are kept. -/
structure ParamsKept (m m' : Model) : Prop where
  s : m'.s = m.s
  bits : m'.bits = m.bits
  period : m'.period = m.period
  valid : m'.valid = m.valid

theorem ParamsKept.refl (m : Model) : ParamsKept m m := ⟨rfl, rfl, rfl, rfl⟩

theorem qsmTick_paramsKept (sym : Nat) (m : Model) : ParamsKept m (qsmTick sym m) := by
  constructor <;> simp

theorem qsmReset_paramsKept (m : Model) : ParamsKept m (qsmReset m) := by
  constructor <;> simp

/-! ### Symbols and residuals, which move the coder and the model together -/

theorem rcEncSym_kept {sym : Nat} {c c' : Coder} {m m' : Model} (h : rcEncSym sym c m = some (c', m')) :
    FlagsKept c c' ∧ ParamsKept m m' := by
  unfold rcEncSym at h
  dsimp only at h
  split at h
  · cases h
  · next hd => cases h; exact ⟨(rcNormalize_flagsKept hd).after rfl id id, qsmTick_paramsKept ..⟩

theorem rcDecSym_kept {sym : Nat} {c c' : Coder} {m m' : Model} (h : rcDecSym c m = some (sym, c', m')) :
    FlagsKept c c' ∧ ParamsKept m m' := by
  unfold rcDecSym at h
  split at h
  · cases h; exact ⟨.refl _, .refl _⟩
  · dsimp only at h
    split at h
    · cases h
    · next hd => cases h; exact ⟨rcNormalize_narrowed_flagsKept hd, qsmTick_paramsKept ..⟩

theorem resEncodeMagnitude_kept {p : Params} {sym : Nat} {d : W64} {c c' : Coder} {m m' : Model}
    (h : resEncodeMagnitude p sym d c m = some (c', m')) : FlagsKept c c' ∧ ParamsKept m m' := by
  unfold resEncodeMagnitude at h
  dsimp only at h
  split at h
  · cases h
  · next hs =>
    obtain ⟨hc, hm⟩ := rcEncSym_kept hs
    split at h
    · split at h
      · cases h
      · next hr => cases h; exact ⟨hc.trans (rcEncRawLoop_flagsKept hr), hm⟩
    · cases h; exact ⟨hc, hm⟩

theorem resEncode_kept {params : Params} {w : Width} {a p : W64} {c c' : Coder} {m m' : Model}
    (h : resEncode params w a p c m = some (c', m')) : FlagsKept c c' ∧ ParamsKept m m' := by
  unfold resEncode at h
  split at h
  · exact rcEncSym_kept h
  · split at h <;> exact resEncodeMagnitude_kept h

/-- The raw step of a residual's decode, where it runs. -/
theorem rawStep_flagsKept {b : Bool} {k : Nat} {v : W64} {c c' : Coder}
    (h : (if b then rcDecRaw k c else some (0, c)) = some (v, c')) : FlagsKept c c' := by
  split at h
  · exact rcDecRawLoop_flagsKept h
  · cases h; exact .refl _

theorem resDecode_kept {params : Params} {w : Width} {p a : W64} {c c' : Coder} {m m' : Model}
    (h : resDecode params w p c m = some (a, c', m')) : FlagsKept c c' ∧ ParamsKept m m' := by
  unfold resDecode at h
  split at h
  · cases h
  · next hs =>
    obtain ⟨hc, hm⟩ := rcDecSym_kept hs
    split at h
    · cases h; exact ⟨hc, hm⟩
    · dsimp only at h
      split at h
      · cases h
      · next hr => cases h; exact ⟨hc.trans (rawStep_flagsKept hr), hm⟩

/-! ### The front's geometry -/

/-- Pushes write FRONT_IDX and the ring only (44_front.md R802, R805). -/
theorem frontPushZeros_geometry (n : Nat) (f : Front) :
    frontPushZeros n f = { f with idx := (frontPushZeros n f).idx, ring := (frontPushZeros n f).ring } := by
  induction n generalizing f with
  | zero => rfl
  | succ n ih => exact ih (frontPushValue f.zero f)

/-! ### The same of a completed command -/

/-- The commands that write RC_MODE or clear a flag (10_state.md R104, R108, R109). -/
theorem Completes.flags_cases {i : Instr} {s t : State} (h : Completes s i t) :
    i = .reset ∨ i = .rcEncInit ∨ i = .rcDecInit ∨ i = .rcFinish ∨ FlagsKept s.coder t.coder := by
  cases h with
  | reset => exact .inl rfl
  | rcEncInit => exact .inr (.inl rfl)
  | rcDecInit => exact .inr (.inr (.inl rfl))
  | rcFinish => exact .inr (.inr (.inr (.inl rfl)))
  | rcEncBit hc => exact .inr (.inr (.inr (.inr (rcEncShift_flagsKept hc))))
  | rcEncRaw hc => exact .inr (.inr (.inr (.inr (rcEncRawLoop_flagsKept hc))))
  | rcEncSym hc => exact .inr (.inr (.inr (.inr (rcEncSym_kept hc).1)))
  | rcDecBit hc => exact .inr (.inr (.inr (.inr (rcDecShift_flagsKept hc))))
  | rcDecRaw hc => exact .inr (.inr (.inr (.inr (rcDecRawLoop_flagsKept hc))))
  | rcDecSym hc => exact .inr (.inr (.inr (.inr (rcDecSym_kept hc).1)))
  | resEnc hc | stepEnc _ _ hc => exact .inr (.inr (.inr (.inr (resEncode_kept hc).1)))
  | resDec hc | stepDec _ hc => exact .inr (.inr (.inr (.inr (resDecode_kept hc).1)))
  | _ => exact .inr (.inr (.inr (.inr (.refl _))))

/-- The command that writes the latched parameters (10_state.md R112). -/
theorem Completes.params_cases {i : Instr} {s t : State} (h : Completes s i t) :
    i = .reset ∨ i = .qsmInit ∨ ParamsKept s.model t.model := by
  cases h with
  | reset => exact .inl rfl
  | qsmInit => exact .inr (.inl rfl)
  | qsmReset => exact .inr (.inr (qsmReset_paramsKept _))
  | qsmEnc hr | qsmDec hr => subst hr; exact .inr (.inr (qsmTick_paramsKept ..))
  | rcEncSym hc => exact .inr (.inr (rcEncSym_kept hc).2)
  | rcDecSym hc => exact .inr (.inr (rcDecSym_kept hc).2)
  | resEnc hc | stepEnc _ _ hc => exact .inr (.inr (resEncode_kept hc).2)
  | resDec hc | stepDec _ hc => exact .inr (.inr (resDecode_kept hc).2)
  | _ => exact .inr (.inr (.refl _))

/-- The command that writes the front's geometry (10_state.md R118). -/
theorem Completes.geometry_cases {i : Instr} {s t : State} (h : Completes s i t) :
    i = .reset ∨ i = .frontInit ∨ t.front = { s.front with idx := t.front.idx, ring := t.front.ring } := by
  cases h with
  | reset => exact .inl rfl
  | frontInit => exact .inr (.inl rfl)
  | frontAdvance => exact .inr (.inr (frontPushZeros_geometry ..))
  | _ => exact .inr (.inr rfl)

end Sys2Proof.Proofs
end

section
/-! PROOFS. The halted state, the legal registers, and which command writes what: O12, O52, O57, O59, O60. -/

namespace Sys2Proof.Proofs

open Sys2Proof.Machine Sys2Proof.Safety Sys2Proof.Laws

/-! ### The one word of RESET -/

theorem decodeN_eq_instr {i j : Instr} {imm : Nat} : decodeN i imm = .instr j ↔ imm = 0 ∧ i = j := by
  unfold decodeN; split <;> simp_all

theorem decodeB_eq_instr {k : Bool → Instr} {j : Instr} {imm : Nat} :
    decodeB k imm = .instr j ↔ imm < 2 ∧ k (imm.testBit 0) = j := by
  unfold decodeB; split <;> simp_all

theorem decodeR_eq_instr {k : Nat → Instr} {j : Instr} {imm : Nat} :
    decodeR k imm = .instr j ↔ imm < 128 ∧ k imm = j := by
  unfold decodeR; split <;> simp_all

theorem decodeX_eq_instr {k : Bool → Bool → Bool → Instr} {j : Instr} {imm : Nat} :
    decodeX k imm = .instr j ↔ imm < 8 ∧ k (imm.testBit 2) (imm.testBit 1) (imm.testBit 0) = j := by
  unfold decodeX; split <;> simp_all

theorem decodeC_eq_instr {k : Nat → Instr} {j : Instr} {imm : Nat} :
    decodeC k imm = .instr j ↔ imm < 256 ∧ k imm = j := by
  unfold decodeC; split <;> simp_all

/-- A word is its opcode byte and its immediate. -/
theorem toNat_eq_bitFields (w : W32) : w.toNat = bitField w 31 24 * 2 ^ 24 + bitField w 23 0 := by
  unfold bitField; omega

/-- Only the word 0x01000000 is RESET (30_encoding.md R304). -/
theorem eq_of_decode_reset {w : W32} (h : decode w = .instr .reset) : w = 0x01000000 := by
  obtain ⟨hopcode, himm⟩ : bitField w 31 24 = 1 ∧ bitField w 23 0 = 0 := by
    unfold decode at h
    split at h <;>
      simp_all [decodeN_eq_instr, decodeB_eq_instr, decodeR_eq_instr, decodeX_eq_instr, decodeC_eq_instr]
  apply BitVec.eq_of_toNat_eq
  rw [toNat_eq_bitFields, hopcode, himm]
  rfl

/-! ### The fault registers (10_state.md R124) -/

theorem causeCode_range (c : Cause) : 1 ≤ (causeCode c).toNat ∧ (causeCode c).toNat ≤ 9 := by
  cases c <;> decide

theorem FaultRegsOk_raised (c : Cause) (w : W32) : FaultRegsOk { flag := true, cause := causeCode c, cmd := w } := by
  simpa [FaultRegsOk] using causeCode_range c

theorem FaultRegsOk_reset : FaultRegsOk FaultRegs.reset := ⟨rfl, rfl⟩

/-- A command on a halted block leaves the fault registers, or it is RESET (60_exceptions.md R1104, R1109). -/
theorem exec_faults_of_halted {i : Instr} {s t : State} (hf : s.faults.flag = true) (h : exec i s = .next t) :
    t.faults = s.faults ∨ (i = .reset ∧ t.faults = FaultRegs.reset) := by
  cases exec_answers h with
  | ignored => exact .inl rfl
  | faults hr => simp [hf] at hr
  | holds => exact .inl rfl
  | completes hc => exact hc.faults_cases.symm

theorem exec_keeps_faultRegsOk {i : Instr} {s t : State} (h : exec i s = .next t) (hs : FaultRegsOk s.faults) :
    FaultRegsOk t.faults := by
  cases exec_answers h with
  | ignored => exact hs
  | faults _ c => exact FaultRegsOk_raised c _
  | holds => exact hs
  | completes hc =>
    obtain ⟨-, hr⟩ | hk := hc.faults_cases
    · exact hr ▸ FaultRegsOk_reset
    · exact hk ▸ hs

theorem raiseFault_keeps_faultRegsOk {w : W32} {c : Cause} {s : State} (hs : FaultRegsOk s.faults) :
    FaultRegsOk (raiseFault w c s).faults := by
  obtain ⟨-, hr⟩ | ⟨-, hr⟩ := raiseFault_cases w c s <;> rw [hr]
  · exact hs
  · exact FaultRegsOk_raised c w

/-- What a host action makes of the CSRs and the fault registers: the reset input resets both, no other writes one. -/
theorem hostStep_registers {s t : State} (h : hostStep s = .next t) :
    (t.cfg = s.cfg ∧ t.faults = s.faults) ∨
      ((∃ rest, s.host = .resetInput :: rest) ∧ t.cfg = Csrs.reset ∧ t.faults = FaultRegs.reset) := by
  obtain rfl | ⟨_, _, -, -, rfl⟩ | ⟨_, -, -, rfl⟩ | ⟨rest, hh, rfl⟩ | ⟨_, _, _, _, -, -, rfl⟩ := hostStep_cases h
  · exact .inl ⟨rfl, rfl⟩
  · exact .inl ⟨rfl, rfl⟩
  · exact .inl ⟨rfl, rfl⟩
  · exact .inr ⟨⟨rest, hh⟩, rfl, rfl⟩
  · exact .inl ⟨rfl, rfl⟩

/-- Settles O12: by the three kinds of step; the only word that runs RESET is 0x01000000. -/
theorem onlyResetLeavesTheHaltedState : Obligations.OnlyResetLeavesTheHaltedState := by
  intro s t hf h
  obtain ⟨-, hh⟩ | ⟨w, c, -, -, rfl⟩ | ⟨w, i, u, hw, hd, hu, rfl⟩ := step_cases h
  · obtain ⟨-, hk⟩ | ⟨hrest, -, hr⟩ := hostStep_registers hh
    · exact .inl hk
    · exact .inr ⟨hr, .inr hrest⟩
  · simp [raiseFault, hf]
  · rw [settlePort_faults]
    obtain hk | ⟨rfl, hr⟩ := exec_faults_of_halted hf hu
    · exact .inl hk
    · exact .inr ⟨hr, .inl (eq_of_decode_reset hd ▸ (fetch_eq_some.mp hw).2)⟩

/-! ### The legal CSRs (10_state.md R122) -/

theorem CsrsLegal_reset : CsrsLegal Csrs.reset := by
  constructor <;> decide

/-- A bounded write that is accepted had a legal value. -/
theorem boundedCsr_eq_ok {lo hi : Nat} {v : W64} {k k' : Csrs} :
    boundedCsr lo hi v k = .ok k' ↔ (lo ≤ v.toNat ∧ v.toNat ≤ hi) ∧ k = k' := by
  unfold boundedCsr; split <;> simp_all

theorem writeWidth_eq_ok {v : W64} {k k' : Csrs} :
    writeWidth v k = .ok k' ↔ ∃ w : Width, v.toNat = w.bits ∧ k' = { k with w := w } := by
  unfold writeWidth
  constructor
  · intro h
    split at h
    · next hv => cases h; exact ⟨.w32, congrArg BitVec.toNat hv, rfl⟩
    · split at h
      · next hv => cases h; exact ⟨.w64, congrArg BitVec.toNat hv, rfl⟩
      · cases h
  · rintro ⟨w, hv, rfl⟩
    obtain rfl : v = BitVec.ofNat 64 w.bits := by simp [← hv]
    cases w <;> rfl

/-- Every write that is accepted keeps the CSRs legal, each by its own bounds. -/
theorem csrWritten_keeps_legal {c : Nat} {v : W64} {k k' : Csrs} (h : csrWritten c v k = .ok k') (hk : CsrsLegal k) :
    CsrsLegal k' := by
  unfold csrWritten at h
  split at h
  · obtain ⟨w, -, rfl⟩ := writeWidth_eq_ok.mp h; exact { hk with }
  · obtain ⟨hv, rfl⟩ := boundedCsr_eq_ok.mp h; exact { hk with nx := hv }
  · obtain ⟨hv, rfl⟩ := boundedCsr_eq_ok.mp h; exact { hk with ny := hv }
  · obtain ⟨hv, rfl⟩ := boundedCsr_eq_ok.mp h; exact { hk with qsmS := hv }
  · obtain ⟨hv, rfl⟩ := boundedCsr_eq_ok.mp h; exact { hk with qsmBits := hv }
  · obtain ⟨hv, rfl⟩ := boundedCsr_eq_ok.mp h; exact { hk with qsmPeriod := hv }
  · obtain ⟨-, rfl⟩ := boundedCsr_eq_ok.mp h; exact { hk with }
  · obtain ⟨-, rfl⟩ := boundedCsr_eq_ok.mp h; exact { hk with }
  · cases h

theorem exec_keeps_csrsLegal {i : Instr} {s t : State} (h : exec i s = .next t) (hs : CsrsLegal s.cfg) :
    CsrsLegal t.cfg := by
  obtain ⟨_, _, rfl⟩ | hc := exec_frame h
  · exact hs
  · obtain ⟨-, hr⟩ | ⟨_, -, hw⟩ | hk := hc.cfg_cases
    · exact hr ▸ CsrsLegal_reset
    · exact csrWritten_keeps_legal hw hs
    · exact hk ▸ hs

/-- Settles O52: by the three kinds of step. -/
theorem stepKeepsTheRegistersLegal : Obligations.StepKeepsTheRegistersLegal := by
  intro s t h
  obtain ⟨-, hh⟩ | ⟨w, c, -, -, rfl⟩ | ⟨w, i, u, -, -, hu, rfl⟩ := step_cases h
  · obtain ⟨hk, hf⟩ | ⟨-, hk, hf⟩ := hostStep_registers hh <;> rw [hk, hf]
    · exact ⟨id, id⟩
    · exact ⟨fun _ => CsrsLegal_reset, fun _ => FaultRegsOk_reset⟩
  · rw [settlePort_cfg, settlePort_faults, raiseFault_cfg]
    exact ⟨id, raiseFault_keeps_faultRegsOk⟩
  · rw [settlePort_cfg, settlePort_faults]
    exact ⟨exec_keeps_csrsLegal hu, exec_keeps_faultRegsOk hu⟩

/-! ### Which command writes what -/

/-- Settles O57: RC_MODE and the flags are kept but by RESET, the two init commands and RC_FINISH. -/
theorem onlyInitsFinishAndResetSetTheMode : Obligations.OnlyInitsFinishAndResetSetTheMode := by
  intro i s t h
  obtain ⟨_, _, rfl⟩ | hc := exec_frame h
  · simp +contextual
  obtain rfl | rfl | rfl | rfl | hk := hc.flags_cases
  · cases hc
    simp [Coder.reset]
  · cases hc
    simp
  · cases hc with
    | rcDecInit hd => simp [(rcShift_flagsKept hd).mode]
  · cases hc with
    | rcFinish hd => simp +contextual [(rcShift_flagsKept hd).eofErr, (rcShift_flagsKept hd).corrupt]
  · simp +contextual [hk.mode, hk.eofErr, hk.corrupt]

/-- Settles O59: from what a completed command leaves unchanged; one that does not complete writes no operand and no
result. -/
theorem operandsAndResultsAreWrittenAsListed : Obligations.OperandsAndResultsAreWrittenAsListed := by
  intro i s t h
  obtain ⟨_, _, rfl⟩ | hc := exec_frame h
  · simp
  obtain ⟨hdin0, hdin1, hparams, hhost, hport⟩ := hc.inputs
  exact ⟨hdin0, hdin1, hparams, hhost, hport, hc.dout0_cases.resolve_right, hc.dout1_cases.resolve_right⟩

/-- Settles O60: each unit by the cases of its own lemma. -/
theorem unitsChangeOnlyByTheirCommands : Obligations.UnitsChangeOnlyByTheirCommands := by
  intro i s t h hr
  obtain ⟨_, _, rfl⟩ | hc := exec_frame h
  · simp
  refine ⟨fun hne => ?cfg, fun hne => ?params, fun hne => ?model, fun hne => ?geometry, fun hne => ?front,
    fun hne => ?coder⟩
  case cfg =>
    obtain ⟨rfl, -⟩ | ⟨c, hi, -⟩ | hk := hc.cfg_cases
    · exact absurd rfl hr
    · exact ⟨c, hi⟩
    · exact absurd hk hne
  case params =>
    obtain hi | hi | ⟨hs, hbits, hperiod, hvalid⟩ := hc.params_cases
    · exact absurd hi hr
    · exact hi
    · exact absurd (by rw [hs, hbits, hperiod, hvalid]) hne
  case model => exact (hc.model_cases.resolve_left hr).resolve_right hne
  case geometry => exact (hc.geometry_cases.resolve_left hr).resolve_right hne
  case front => exact (hc.front_cases.resolve_left hr).resolve_right hne
  case coder => exact (hc.coder_cases.resolve_left hr).resolve_right hne

end Sys2Proof.Proofs
end

section
/-! PROOFS. The CSR space: what CSR_READ and CSR_WRITE do with each answer of the CSR map, and O17, O19, O20, O21. -/

namespace Sys2Proof.Proofs

open Sys2Proof.Machine Sys2Proof.Safety Sys2Proof.Laws

/-! ### The two commands, by the answer of the CSR map (46_control.md R1002, R1003) -/

theorem exec_csrRead_ok {c : Nat} {s : State} {v : W64} (h : csrValue c s = .ok v) :
    exec (.csrRead c) s = .next { s with dout0 := v } := by
  simp only [exec, execCsrRead, h]

theorem exec_csrRead_error {c : Nat} {s : State} {cause : Cause} (h : csrValue c s = .error cause) :
    exec (.csrRead c) s = .next (faultedOnce (.csrRead c) (causeCode cause) s) := by
  simp only [exec, execCsrRead, h, raiseFault_eq_faultedOnce]

theorem exec_csrWrite_ok {c : Nat} {s : State} {k : Csrs} (hf : s.faults.flag = false)
    (h : csrWritten c s.din0 s.cfg = .ok k) : exec (.csrWrite c) s = .next { s with cfg := k } := by
  simp only [exec, execCsrWrite, hf, h, Bool.false_eq_true, if_false]

theorem exec_csrWrite_error {c : Nat} {s : State} {cause : Cause} (h : csrWritten c s.din0 s.cfg = .error cause) :
    exec (.csrWrite c) s = .next (faultedOnce (.csrWrite c) (causeCode cause) s) := by
  cases hf : s.faults.flag with
  | true => simp [exec, execCsrWrite, hf]
  | false => simp [exec, execCsrWrite, hf, h, raiseFault_eq_faultedOnce]

/-- A table of CSRs and their values, read off the CSR map. -/
theorem exec_csrRead_of_table {s : State} {table : List (Nat × W64)} (h : ∀ e ∈ table, csrValue e.1 s = .ok e.2)
    (c : Nat) (v : W64) (hm : (c, v) ∈ table) : exec (.csrRead c) s = .next { s with dout0 := v } :=
  exec_csrRead_ok (h (c, v) hm)

/-! ### The CSR map (10_state.md R122, R123) -/

theorem csrValue_unmapped {c : Nat} (s : State)
    (h : c ∉ [0x00, 0x01, 0x02, 0x03, 0x04, 0x05, 0x08, 0x09, 0x0A, 0x0B, 0x10, 0x11, 0x12, 0x13, 0x14, 0x18, 0x19,
      0x1A, 0x1B, 0x1C, 0x1D, 0x1E, 0x20, 0x21, 0x22, 0x23, 0x24, 0x25, 0x28, 0x29, 0x30, 0x31, 0x32]) :
    csrValue c s = .error .csrAccess := by
  unfold csrValue
  split <;> simp at h ⊢

theorem csrWritten_unmapped {c : Nat} (v : W64) (k : Csrs)
    (h : c ∉ [0x00, 0x01, 0x02, 0x03, 0x04, 0x05, 0x28, 0x30]) : csrWritten c v k = .error .csrAccess := by
  unfold csrWritten
  split <;> simp at h ⊢

theorem boundedCsr_error {lo hi : Nat} {v : W64} (k : Csrs) (h : v.toNat < lo ∨ hi < v.toNat) :
    boundedCsr lo hi v k = .error .csrValue :=
  if_neg (by omega)

theorem writeWidth_error {v : W64} (k : Csrs) (h32 : v ≠ 32) (h64 : v ≠ 64) : writeWidth v k = .error .csrValue := by
  rw [writeWidth, if_neg h32, if_neg h64]

/-- A CSR with a range of legal values refuses every other value. -/
theorem csrWritten_out_of_range {c lo hi : Nat} {v : W64} (k : Csrs)
    (hc : (c, lo, hi) ∈ [(0x01, 1, 2 ^ 32 - 2), (0x02, 1, 2 ^ 32 - 2), (0x03, 1, 65536), (0x04, 7, 16),
      (0x05, 1, 65536), (0x28, 0, 2 ^ 32 - 1), (0x30, 0, 2 ^ 32 - 1)])
    (h : v.toNat < lo ∨ hi < v.toNat) : csrWritten c v k = .error .csrValue := by
  simp only [List.mem_cons, Prod.mk.injEq, List.not_mem_nil, or_false] at hc
  obtain ⟨rfl, rfl, rfl⟩ | ⟨rfl, rfl, rfl⟩ | ⟨rfl, rfl, rfl⟩ | ⟨rfl, rfl, rfl⟩ | ⟨rfl, rfl, rfl⟩ | ⟨rfl, rfl, rfl⟩ |
    ⟨rfl, rfl, rfl⟩ := hc <;> exact boundedCsr_error _ h

/-- Before QSM_INIT every CSR of the model is not configured, the indirect ones whatever their selector (R123). -/
theorem csrValue_unconfigured_model {c : Nat} {s : State} (h : s.model.valid = false)
    (hc : c ∈ [0x18, 0x19, 0x1A, 0x1B, 0x1C, 0x1D, 0x1E, 0x31, 0x32]) : csrValue c s = .error .notConfigured := by
  fin_cases hc <;> exact if_neg (by simp [h])

/-- Before FRONT_INIT every CSR of the front is not configured, the indirect one whatever its selector (R123). -/
theorem csrValue_unconfigured_front {c : Nat} {s : State} (h : s.front.valid = false)
    (hc : c ∈ [0x20, 0x21, 0x22, 0x23, 0x24, 0x25, 0x29]) : csrValue c s = .error .notConfigured := by
  fin_cases hc <;> exact if_neg (by simp [h])

/-- Settles O17: each clause is the CSR map's fault, recorded by the command. -/
theorem csrAccessesThatFault : Obligations.CsrAccessesThatFault := by
  intro s
  refine ⟨fun c hc => ?_, fun c hc => ?_, fun h32 h64 => ?_, fun c lo hi hc hv => ?_, fun c hc hm => ?_,
    fun c hc hf => ?_, fun hf hsel => ?_, fun hm hsel => ?_, fun hm hsel => ?_⟩
  · exact exec_csrRead_error (csrValue_unmapped s hc)
  · exact exec_csrWrite_error (csrWritten_unmapped _ _ hc)
  · exact exec_csrWrite_error (cause := .csrValue) (writeWidth_error _ h32 h64)
  · exact exec_csrWrite_error (csrWritten_out_of_range _ hc hv)
  · exact exec_csrRead_error (csrValue_unconfigured_model hm hc)
  · exact exec_csrRead_error (csrValue_unconfigured_front hf hc)
  · exact exec_csrRead_error (cause := .operandRange) (by simp [csrValue, indirectCsr, hf, hsel])
  · exact exec_csrRead_error (cause := .operandRange) (by simp [csrValue, indirectCsr, hm, hsel])
  · exact exec_csrRead_error (cause := .operandRange) (by simp [csrValue, indirectCsr, hm, hsel])

/-! ### Reads -/

theorem truncW_eq_ofNat (w : Width) (x : W64) : truncW w x = BitVec.ofNat 64 (x.toNat % 2 ^ w.bits) := by
  apply BitVec.eq_of_toNat_eq
  simp [truncW, zext, lowBits]

/-- Settles O19: the tables of direct CSRs against the CSR map, then the three indirect ones. -/
theorem csrReadGivesTheRegister : Obligations.CsrReadGivesTheRegister := by
  intro s
  refine ⟨?direct, fun hm => ?model, fun hf => ?front, fun hf hsel => ?frontBuf, fun hm v hv hsel => ?symf,
    fun hm v hv hsel => ?cumf⟩
  case direct => exact exec_csrRead_of_table fun e he => by fin_cases he <;> rfl
  case model => exact exec_csrRead_of_table fun e he => by fin_cases he <;> exact if_pos hm
  case front => 
    rw [← truncW_eq_ofNat]
    exact exec_csrRead_of_table fun e he => by fin_cases he <;> exact if_pos hf
  case frontBuf => exact exec_csrRead_ok (by simp [csrValue, indirectCsr, hf, hsel])
  case symf => exact exec_csrRead_ok (by simp [csrValue, indirectCsr, hm, hsel, tableAt_of_some hv, zext])
  case cumf => exact exec_csrRead_ok (by simp [csrValue, indirectCsr, hm, hsel, cumfAt, tableAt_of_some hv, zext])

/-- A flag put into a bit above a value adds the bit's weight (10_state.md R126). -/
theorem toNat_or_flagBit {x : W64} (b : Bool) {k : Nat} (hk : k < 64) (hx : x.toNat < 2 ^ k) :
    (x ||| flagBit b k).toNat = x.toNat + 2 ^ k * b.toNat := by
  cases b with
  | false => simp [flagBit]
  | true =>
    have hbit : (flagBit true k).toNat = 2 ^ k := by
      simpa [flagBit, Nat.shiftLeft_eq] using Nat.mod_eq_of_lt (Nat.pow_lt_pow_right (by decide : 1 < 2) hk)
    calc (x ||| flagBit true k).toNat = 2 ^ k * 1 ||| x.toNat := by rw [BitVec.toNat_or, hbit, Nat.or_comm, Nat.mul_one]
      _ = 2 ^ k * 1 + x.toNat := (Nat.two_pow_add_eq_or_of_lt hx 1).symm
      _ = x.toNat + 2 ^ k * true.toNat := Nat.add_comm ..

/-- With a flag put into bit `k`, the value stays below the next bit. -/
theorem or_flagBit_lt {x : W64} (b : Bool) {k : Nat} (hk : k < 64) (hx : x.toNat < 2 ^ k) :
    (x ||| flagBit b k).toNat < 2 ^ (k + 1) := by
  rw [toNat_or_flagBit b hk hx, Nat.pow_succ]
  cases b <;> simp <;> omega

/-- STATUS as a number: the mode in the two lowest bits, then one bit for each flag (10_state.md R126). -/
theorem statusWord_toNat (s : State) :
    (statusWord s).toNat = (modeCode s.coder.mode).toNat + 4 * s.coder.eofErr.toNat + 8 * s.coder.corrupt.toNat
      + 16 * s.faults.flag.toNat + 32 * s.model.valid.toNat + 64 * s.front.valid.toNat := by
  have hmode : (modeCode s.coder.mode).toNat < 2 ^ 2 := by cases s.coder.mode <;> decide
  have heof := or_flagBit_lt s.coder.eofErr (k := 2) (by decide) hmode
  have hcorrupt := or_flagBit_lt s.coder.corrupt (k := 3) (by decide) heof
  have hfault := or_flagBit_lt s.faults.flag (k := 4) (by decide) hcorrupt
  have hmodel := or_flagBit_lt s.model.valid (k := 5) (by decide) hfault
  rw [statusWord, toNat_or_flagBit _ (by decide) hmodel, toNat_or_flagBit _ (by decide) hfault,
    toNat_or_flagBit _ (by decide) hcorrupt, toNat_or_flagBit _ (by decide) heof, toNat_or_flagBit _ (by decide) hmode]
  norm_num

/-- Settles O20: STATUS is read in every state, and its word is the sum of its fields. -/
theorem statusShowsTheFlags : Obligations.StatusShowsTheFlags := by
  refine ⟨fun s => ⟨statusWord s, exec_csrRead_ok rfl, ?_⟩, exec_csrRead_ok rfl⟩
  rw [statusWord_toNat]
  cases s.coder.mode <;> rfl

/-! ### Writes -/

theorem boundedCsr_ok {lo hi : Nat} {v : W64} (k : Csrs) (hlo : lo ≤ v.toNat) (hhi : v.toNat ≤ hi) :
    boundedCsr lo hi v k = .ok k :=
  boundedCsr_eq_ok.mpr ⟨⟨hlo, hhi⟩, rfl⟩

/-- Settles O21: every legal value is accepted by its CSR's bounds, and the CSRs written are the next state's. -/
theorem csrWriteSetsTheRegister : Obligations.CsrWriteSetsTheRegister := by
  intro s hf
  refine ⟨fun w hw => ?width, fun hlo hhi => ⟨?nx, ?ny⟩, fun hlo hhi => ⟨?qsmS, ?period⟩, fun hlo hhi => ?bits,
    fun hhi => ⟨?frontSel, ?qsmSel⟩⟩
  case width => exact exec_csrWrite_ok hf (writeWidth_eq_ok.mpr ⟨w, hw, rfl⟩)
  case nx | ny | qsmS | period | bits => exact exec_csrWrite_ok hf (boundedCsr_ok _ hlo hhi)
  case frontSel | qsmSel =>
    rw [BitVec.ofNat_toNat]
    exact exec_csrWrite_ok hf (boundedCsr_ok _ (Nat.zero_le _) (Nat.le_sub_one_of_lt hhi))

end Sys2Proof.Proofs
end

section
/-! PROOFS. How the coder's procedures move the byte streams (20_memory.md R201 to R203): one relation that follows a
procedure byte by byte to its end or its hold, and what that says of the streams and of the bytes it needs. -/

namespace Sys2Proof.Proofs

open Sys2Proof.Machine Sys2Proof.Safety Sys2Proof.Laws

/-! ### The run of a procedure -/

/-- From the coder `c` a procedure that moves at most `k` bytes ends in the coder of `o`, or holds if `o` is `none`. It
shifts a byte (41_range_coder.md R501) or writes `LOW`, `RANGE` and `CORRUPT`. -/
inductive Runs : Nat → Coder → Option Coder → Prop
  | ends {k : Nat} {c : Coder} : Runs k c (some c)
  | holds {k : Nat} {c : Coder} (h : rcShiftByte c = none) : Runs (k + 1) c none
  | shift {k : Nat} {c d : Coder} {o : Option Coder} (h : rcShiftByte c = some d) (hd : Runs k d o) : Runs (k + 1) c o
  | narrow {k : Nat} {c : Coder} {o : Option Coder} {low range : W32} {corrupt : Bool}
      (hd : Runs k { c with low := low, range := range, corrupt := corrupt } o) : Runs k c o

theorem Runs.mono {j k : Nat} {c : Coder} {o : Option Coder} (h : Runs j c o) (hjk : j ≤ k) : Runs k c o := by
  induction h generalizing k with
  | ends => exact .ends
  | holds hb => obtain ⟨k, rfl⟩ := Nat.exists_eq_add_of_le' (Nat.le_of_add_left_le hjk); exact .holds hb
  | shift hb _ ih =>
    obtain ⟨k, rfl⟩ := Nat.exists_eq_add_of_le' (Nat.le_of_add_left_le hjk)
    exact .shift hb (ih (by omega))
  | narrow _ ih => exact .narrow (ih hjk)

/-- One procedure after another: the bytes add up. -/
theorem Runs.trans {j k : Nat} {c d : Coder} {o : Option Coder} (h : Runs j c (some d)) (hd : Runs k d o) :
    Runs (j + k) c o := by
  generalize ho : some d = o' at h
  induction h with
  | ends => cases ho; exact hd.mono (by omega)
  | holds => cases ho
  | shift hb _ ih => rw [Nat.succ_add]; exact .shift hb (ih ho)
  | narrow _ ih => exact .narrow (ih ho)

/-! ### The procedures of the coder -/

theorem rcShift_runs (n : Nat) (c : Coder) : Runs n c (rcShift n c) := by
  induction n generalizing c with
  | zero => exact .ends
  | succ n ih =>
    unfold rcShift
    split
    · next hb => exact .holds hb
    · next hb => exact .shift hb (ih _)

theorem rcNormalizeLoop_runs (fuel : Nat) (c : Coder) : Runs fuel c (rcNormalizeLoop fuel c) := by
  induction fuel generalizing c with
  | zero => exact .ends
  | succ fuel ih =>
    have hs := rcShift_runs 1 c
    unfold rcNormalizeLoop
    split
    · split
      · next hn => exact (hn ▸ hs).mono (by omega)
      · next hn => exact ((hn ▸ hs).trans (.narrow (ih _))).mono (by omega)
    · exact .ends

theorem rcFudge_runs (c : Coder) : Runs 2 c (rcFudge c) := by
  have hs := rcShift_runs 2 c
  unfold rcFudge
  split
  · split
    · next hn => exact hn ▸ hs
    · next hn => exact (hn ▸ hs).trans (k := 0) (.narrow .ends)
  · exact .ends

/-- A normalization moves at most 5 bytes (41_range_coder.md R503). -/
theorem rcNormalize_runs (c : Coder) : Runs 5 c (rcNormalize c) := by
  have hs := rcNormalizeLoop_runs 3 c
  unfold rcNormalize
  split
  · next hn => exact (hn ▸ hs).mono (by omega)
  · next hn => exact (hn ▸ hs).trans (rcFudge_runs _)

theorem rcEncShift_runs (v : W32) (n : Nat) (c : Coder) : Runs 5 c (rcEncShift v n c) :=
  .narrow (rcNormalize_runs _)

theorem rcDecShift_runs (n : Nat) (c : Coder) : Runs 5 c ((rcDecShift n c).map Prod.snd) := by
  unfold rcDecShift
  split
  · exact .ends
  · dsimp only
    split
    all_goals next hn => exact .narrow (hn ▸ rcNormalize_runs _)

theorem rcEncRawLoop_runs (fuel : Nat) (v : W64) (n : Nat) (c : Coder) :
    Runs (5 * (fuel + 1)) c (rcEncRawLoop fuel v n c) := by
  induction fuel generalizing v n c with
  | zero => exact rcEncShift_runs ..
  | succ fuel ih =>
    unfold rcEncRawLoop
    split
    · have hs := rcEncShift_runs ((v &&& 0xFFFF).setWidth 32) 16 c
      split
      · next hn => exact (hn ▸ hs).mono (by omega)
      · next hn => exact ((hn ▸ hs).trans (ih ..)).mono (by omega)
    · exact (rcEncShift_runs ..).mono (by omega)

/-- A raw decode of at most `k + 1` chunks of 16 bits (41_range_coder.md R507) normalizes once for each. -/
theorem rcDecRawLoop_runs {k n : Nat} (fuel : Nat) (hn : n ≤ 16 * (k + 1)) (c : Coder) :
    Runs (5 * (k + 1)) c ((rcDecRawLoop fuel n c).map Prod.snd) := by
  have last : Runs (5 * (k + 1)) c ((rcDecShift n c).map Prod.snd) := (rcDecShift_runs n c).mono (by omega)
  induction fuel generalizing k n c with
  | zero =>
    unfold rcDecRawLoop
    split
    all_goals next hd => rw [hd] at last; exact last
  | succ fuel ih =>
    unfold rcDecRawLoop
    split
    · next h16 =>
      obtain ⟨k, rfl⟩ := Nat.exists_eq_add_of_le' (show 1 ≤ k by omega)
      have hs := rcDecShift_runs 16 c
      split
      · next hd => exact (hd ▸ hs).mono (by omega)
      · next d hd =>
        have hr := ih (k := k) (n := n - 16) (by omega) d ((rcDecShift_runs ..).mono (by omega))
        split
        all_goals next hl => exact (Runs.trans (hd ▸ hs) (hl ▸ hr)).mono (by omega)
    · split
      all_goals next hd => rw [hd] at last; exact last

/-! ### Symbols and residuals -/

theorem rcEncSym_runs (sym : Nat) (c : Coder) (m : Model) : Runs 5 c ((rcEncSym sym c m).map Prod.fst) := by
  unfold rcEncSym
  dsimp only
  split
  all_goals next hn => exact .narrow (hn ▸ rcNormalize_runs _)

theorem rcDecSym_runs (c : Coder) (m : Model) : Runs 5 c ((rcDecSym c m).map (·.2.1)) := by
  unfold rcDecSym
  split
  · exact .ends
  · dsimp only
    split
    all_goals next hn => exact .narrow (hn ▸ rcNormalize_runs _)

theorem resEncodeMagnitude_runs (p : Params) (sym : Nat) (d : W64) (c : Coder) (m : Model) :
    Runs (5 + 5 * (bsr d / 16 + 1)) c ((resEncodeMagnitude p sym d c m).map Prod.fst) := by
  have hs := rcEncSym_runs sym c m
  unfold resEncodeMagnitude
  dsimp only
  split
  · next hn => exact (hn ▸ hs).mono (by omega)
  · next e _ hn =>
    rw [hn] at hs
    have hr : Runs _ e (rcEncRaw (d - (1#64 <<< bsr d)) (bsr d) e) := rcEncRawLoop_runs ..
    split
    · split
      all_goals next hl => rw [hl] at hr; exact hs.trans hr
    · exact hs.trans .ends

theorem resEncode_runs (params : Params) (w : Width) (a p : W64) (c : Coder) (m : Model) :
    ∃ k, Runs k c ((resEncode params w a p c m).map Prod.fst) := by
  unfold resEncode
  split
  · exact ⟨_, rcEncSym_runs ..⟩
  · split <;> exact ⟨_, resEncodeMagnitude_runs ..⟩

/-- A residual's decode takes its symbol, then a raw field as wide as the symbol's class (43_residual.md R702). -/
theorem resDecode_runs {params : Params} {w : Width} {p : W64} {c : Coder} {m : Model} {k : Nat}
    (hclass : ∀ r, rcDecSym c m = some r → residualClass w r.1 ≤ 16 * (k + 1)) :
    Runs (5 + 5 * (k + 1)) c ((resDecode params w p c m).map (·.2.1)) := by
  have hs := rcDecSym_runs c m
  unfold resDecode
  split
  · next hn => exact (hn ▸ hs).mono (by omega)
  · next sym d _ hn =>
    rw [hn] at hs
    split
    · exact hs.trans .ends
    · dsimp only
      have hr : Runs (5 * (k + 1)) d
          ((if rawStepRuns params (residualClass w sym) then rcDecRaw (residualClass w sym) d
            else some (0, d)).map Prod.snd) := by
        split
        · exact rcDecRawLoop_runs _ (hclass _ hn) d
        · exact .ends
      split
      all_goals next hl => rw [hl] at hr; exact hs.trans hr

theorem resDecode_runs_some (params : Params) (w : Width) (p : W64) (c : Coder) (m : Model) :
    ∃ k, Runs k c ((resDecode params w p c m).map (·.2.1)) := by
  cases hs : rcDecSym c m with
  | none => exact ⟨_, resDecode_runs (k := 0) (by simp [hs])⟩
  | some r =>
    refine ⟨_, resDecode_runs (k := residualClass w r.1) fun r' hr' => ?_⟩
    cases hs.symm.trans hr'
    omega

/-! ### What a run does to the streams -/

/-- From `c` to `c'` OUTSTREAM has grown at its end and INSTREAM has lost at most `k` bytes at its head, the one in mode
ENC only and the other in every other mode only; the end mark is kept (20_memory.md R201 to R203). -/
structure StreamsMoved (k : Nat) (c c' : Coder) : Prop where
  appended : ∃ out, c'.outstream = c.outstream ++ out ∧ (c.mode ≠ .enc → out = [])
  taken : ∃ n ≤ k, c'.instream = c.instream.drop n ∧ (c.mode = .enc → n = 0)
  inMark : c'.inMark = c.inMark

theorem StreamsMoved.refl (k : Nat) (c : Coder) : StreamsMoved k c c :=
  ⟨⟨[], by simp⟩, ⟨0, by simp⟩, rfl⟩

theorem StreamsMoved.trans {j k : Nat} {c d e : Coder} (h : StreamsMoved j c d) (hmode : d.mode = c.mode)
    (h' : StreamsMoved k d e) : StreamsMoved (j + k) c e := by
  obtain ⟨⟨out, ho, hout⟩, ⟨n, hn, hi, hin⟩, hm⟩ := h
  obtain ⟨⟨out', ho', hout'⟩, ⟨n', hn', hi', hin'⟩, hm'⟩ := h'
  rw [hmode] at hout' hin'
  exact
    { appended := ⟨out ++ out', by rw [ho', ho, List.append_assoc], fun hc => by rw [hout hc, hout' hc]; rfl⟩
      taken := ⟨n + n', by omega, by rw [hi', hi, List.drop_drop], fun hc => by rw [hin hc, hin' hc]⟩
      inMark := hm'.trans hm }

theorem getByte_streamsMoved {c d : Coder} {b : Byte} (hmode : c.mode ≠ .enc) (h : getByte c = some (b, d)) :
    StreamsMoved 1 c d := by
  obtain ⟨_, rest, hi, hg⟩ | ⟨-, -, hg⟩ | ⟨-, -, hg⟩ := getByte_cases c <;> rw [hg] at h <;> cases h
  · exact ⟨⟨[], by simp⟩, ⟨1, Nat.le_refl 1, by simp [hi], fun hc => absurd hc hmode⟩, rfl⟩
  · exact ⟨⟨[], by simp⟩, ⟨0, by simp⟩, rfl⟩

theorem rcShiftByte_streamsMoved {c d : Coder} (h : rcShiftByte c = some d) : StreamsMoved 1 c d := by
  by_cases hm : c.mode = .enc
  · rw [rcShiftByte_enc hm] at h
    cases h
    exact ⟨⟨_, rfl, fun hc => absurd hm hc⟩, ⟨0, by simp⟩, rfl⟩
  · rw [rcShiftByte_dec hm, Option.map_eq_some_iff] at h
    obtain ⟨⟨b, e⟩, hg, rfl⟩ := h
    obtain ⟨happended, htaken, hmark⟩ := getByte_streamsMoved hm hg
    exact ⟨happended, htaken, hmark⟩

/-- A run that ends at `d` has moved the streams in order. -/
theorem Runs.streamsMoved {k : Nat} {c d : Coder} {o : Option Coder} (h : Runs k c o) (ho : o = some d) :
    StreamsMoved k c d := by
  induction h with
  | ends => cases ho; exact .refl ..
  | holds => cases ho
  | shift hb _ ih =>
    rw [Nat.add_comm]
    exact (rcShiftByte_streamsMoved hb).trans (rcShiftByte_flagsKept hb).mode (ih ho)
  | narrow _ ih =>
    obtain ⟨happended, htaken, hmark⟩ := ih ho
    exact ⟨happended, htaken, hmark⟩

/-! ### When a run holds -/

theorem rcShiftByte_eq_none {c : Coder} (h : rcShiftByte c = none) :
    c.mode ≠ .enc ∧ c.instream = [] ∧ c.inMark = false := by
  by_cases hm : c.mode = .enc
  · rw [rcShiftByte_enc hm] at h
    cases h
  · rw [rcShiftByte_dec hm, Option.map_eq_none_iff] at h
    obtain ⟨_, _, -, hg⟩ | ⟨-, -, hg⟩ | ⟨hi, hmark, -⟩ := getByte_cases c
    · rw [hg] at h; cases h
    · rw [hg] at h; cases h
    · exact ⟨hm, hi, hmark⟩

/-- A run holds outside mode ENC only, and only where the bytes it needs and the end mark are missing. -/
theorem Runs.hold_cases {k : Nat} {c : Coder} {o : Option Coder} (h : Runs k c o) (ho : o = none) :
    c.mode ≠ .enc ∧ ¬ InputReady c k := by
  induction h with
  | ends => cases ho
  | holds hb =>
    obtain ⟨hmode, hi, hmark⟩ := rcShiftByte_eq_none hb
    exact ⟨hmode, not_InputReady.mpr ⟨by simp [hi], hmark⟩⟩
  | shift hb _ ih =>
    obtain ⟨hmode, hready⟩ := ih ho
    obtain ⟨-, ⟨n, hn, hi, -⟩, hmark⟩ := rcShiftByte_streamsMoved hb
    rw [not_InputReady, hi, hmark, List.length_drop] at hready
    exact ⟨(rcShiftByte_flagsKept hb).mode ▸ hmode, not_InputReady.mpr ⟨by omega, hready.2⟩⟩
  | narrow _ ih => exact ih ho

/-- In mode ENC, or with its bytes or the end mark at hand, a procedure comes to its end. -/
theorem Runs.completes {k : Nat} {c : Coder} {o : Option Coder} (h : Runs k c o)
    (hc : c.mode = .enc ∨ InputReady c k) : ∃ d, o = some d := by
  refine Option.ne_none_iff_exists'.mp fun ho => ?_
  obtain ⟨hmode, hready⟩ := h.hold_cases ho
  exact absurd hc (not_or.mpr ⟨hmode, hready⟩)

/-- The same of a procedure that gives more than a coder. -/
theorem Runs.completes_of_map {α : Type} {coder : α → Coder} {k : Nat} {c : Coder} {o : Option α}
    (h : Runs k c (o.map coder)) (hc : c.mode = .enc ∨ InputReady c k) : ∃ a, o = some a := by
  obtain ⟨d, hd⟩ := h.completes hc
  obtain ⟨a, ha, -⟩ := Option.map_eq_some_iff.mp hd
  exact ⟨a, ha⟩

end Sys2Proof.Proofs
end

section
/-! PROOFS. The port, the streams and the hold: O6, O9, O58. -/

namespace Sys2Proof.Proofs

open Sys2Proof.Machine Sys2Proof.Safety Sys2Proof.Laws

/-- Settles O6: the command fetched is the one in the port, and its step ends as `settlePort` says. -/
theorem stepRunsTheDecodedCommand : Obligations.StepRunsTheDecodedCommand := by
  intro s w i hport hholding hdecode
  have hfetch : fetch s = some w := fetch_eq_some.mpr ⟨hholding, hport⟩
  simp only [step, hfetch, hdecode]
  cases exec i s <;> rfl

/-! ### The mode a command runs in (41_range_coder.md R500) -/

/-- A command whose first check is on the mode faults or is ignored, or the mode is the one it needs. -/
theorem command_needMode {i : Instr} {s t : State} {m : RcMode} {rest : List Check} {effect : State → Option State}
    (h : command i s (needMode m s :: rest) effect = .next t) :
    (∃ r, t = { s with faults := r }) ∨ s.coder.mode = m := by
  have passed : firstFault (needMode m s :: rest) = none → s.coder.mode = m := fun hc => by
    simpa [needMode] using firstFault_eq_none.mp hc _ List.mem_cons_self
  obtain ⟨-, rfl⟩ | ⟨-, _, -, rfl⟩ | ⟨-, hc, -⟩ | ⟨-, hc, -⟩ := command_cases h
  · exact .inl ⟨_, rfl⟩
  · exact .inl ⟨_, rfl⟩
  · exact .inr (passed hc)
  · exact .inr (passed hc)

/-- A command that does more than write the fault registers has the mode it needs. -/
theorem exec_modeFits {i : Instr} {s t : State} (h : exec i s = .next t) :
    (∃ r, t = { s with faults := r }) ∨ ModeFits i s := by
  unfold exec at h
  cases i with
  | rcEncBit | rcEncRaw | rcEncSym | rcFinish | resEnc | stepEnc =>
    exact (command_needMode h).imp_right fun hm => ⟨fun _ => hm, nofun⟩
  | rcDecBit | rcDecRaw | rcDecSym | resDec | stepDec =>
    exact (command_needMode h).imp_right fun hm => ⟨nofun, fun _ => hm⟩
  | _ => exact .inr ⟨nofun, nofun⟩

/-! ### The order of the streams (20_memory.md R201 to R203, R211) -/

/-- Command `i` has kept the order and the ownership of the streams (R201 to R203, R211) between `c` and `c'`. -/
def StreamsFollow (i : Instr) (c c' : Coder) : Prop :=
  (∃ out, c'.outstream = c.outstream ++ out ∧ (needsEnc i = false → out = [])) ∧
  (∃ n, c'.instream = c.instream.drop n ∧ (takesInput i = false → n = 0)) ∧
  c'.inMark = c.inMark

theorem StreamsFollow.refl (i : Instr) (c : Coder) : StreamsFollow i c c :=
  ⟨⟨[], by simp⟩, ⟨0, by simp⟩, rfl⟩

/-- A procedure's moves are a command's, if the command is an encode command in mode ENC or takes input in another. -/
theorem StreamsMoved.follow {i : Instr} {k : Nat} {c c' : Coder} (h : StreamsMoved k c c')
    (henc : needsEnc i = false → c.mode ≠ .enc) (hdec : takesInput i = false → c.mode = .enc) :
    StreamsFollow i c c' := by
  obtain ⟨⟨out, ho, hout⟩, ⟨n, -, hi, hn⟩, hmark⟩ := h
  exact ⟨⟨out, ho, hout ∘ henc⟩, ⟨n, hi, hn ∘ hdec⟩, hmark⟩

/-- The run of an encode command in its mode. -/
theorem Runs.follow_enc {i : Instr} {k : Nat} {c d : Coder} {o : Option Coder} (h : Runs k c o) (ho : o = some d)
    (hi : needsEnc i = true) (hmode : c.mode = .enc) : StreamsFollow i c d :=
  (h.streamsMoved ho).follow (fun hn => by simp [hi] at hn) fun _ => hmode

/-- The run of a decode command in its mode. -/
theorem Runs.follow_dec {i : Instr} {k : Nat} {c d : Coder} {o : Option Coder} (h : Runs k c o) (ho : o = some d)
    (hi : takesInput i = true) (hmode : c.mode = .dec) : StreamsFollow i c d :=
  (h.streamsMoved ho).follow (fun _ => by simp [hmode]) fun hn => by simp [hi] at hn

/-- A completed command but RESET, in the mode it needs, keeps the order of the streams. -/
theorem Completes.streamsFollow {i : Instr} {s t : State} (h : Completes s i t) (hr : i ≠ .reset)
    (hm : ModeFits i s) : StreamsFollow i s.coder t.coder := by
  obtain ⟨henc, hdec⟩ := hm
  cases h with
  | reset => exact absurd rfl hr
  | rcEncInit => exact .refl .rcEncInit s.coder
  | rcEncBit hc => exact (rcEncShift_runs ..).follow_enc hc rfl (henc rfl)
  | rcEncRaw hc => exact (rcEncRawLoop_runs ..).follow_enc hc rfl (henc rfl)
  | rcEncSym hc => exact (rcEncSym_runs ..).follow_enc (congrArg (Option.map _) hc) rfl (henc rfl)
  | rcFinish hc =>
    have moved : StreamsFollow .rcFinish s.coder _ := (rcShift_runs ..).follow_enc hc rfl (henc rfl)
    exact moved
  | resEnc hc | stepEnc _ _ hc =>
    obtain ⟨k, hk⟩ := resEncode_runs ..
    exact hk.follow_enc (congrArg (Option.map _) hc) rfl (henc rfl)
  | rcDecInit hc =>
    have moved : StreamsFollow .rcDecInit { freshCoder .dec s.coder with bytesIn := 0 } _ :=
      (rcShift_runs ..).follow_dec hc rfl rfl
    exact moved
  | rcDecBit hc => exact (rcDecShift_runs ..).follow_dec (congrArg (Option.map _) hc) rfl (hdec rfl)
  | @rcDecRaw n _ _ hc =>
    exact (rcDecRawLoop_runs (k := n) _ (by omega) _).follow_dec (congrArg (Option.map _) hc) rfl (hdec rfl)
  | rcDecSym hc => exact (rcDecSym_runs ..).follow_dec (congrArg (Option.map _) hc) rfl (hdec rfl)
  | resDec hc | stepDec _ hc =>
    obtain ⟨k, hk⟩ := resDecode_runs_some ..
    exact hk.follow_dec (congrArg (Option.map _) hc) rfl (hdec rfl)
  | _ => exact .refl ..

/-- Settles O58: a command that does not complete moves no byte; one that completes has the mode it needs. -/
theorem streamsKeepTheirOrder : Obligations.StreamsKeepTheirOrder := by
  intro i s t h hr
  obtain ⟨_, _, rfl⟩ | hc := exec_frame h
  · exact StreamsFollow.refl i s.coder
  obtain ⟨r, rfl⟩ | hm := exec_modeFits h
  · exact StreamsFollow.refl i s.coder
  · exact hc.streamsFollow hr hm

/-! ### The class of a decoded symbol (42_qsmodel.md R611, 43_residual.md R702) -/

theorem clampQuotient_lt (q : W32) {limit : Nat} (hpos : 0 < limit) (hle : limit ≤ 2 ^ 32) :
    (clampQuotient q limit).1.toNat < limit := by
  unfold clampQuotient
  split
  · rw [BitVec.toNat_ofNat, Nat.mod_eq_of_lt (by omega)]; omega
  · next h => exact Nat.lt_of_not_le h

theorem symbolSearch_lt {m : Model} {l : W32} {bound fuel lo hi : Nat} (hlo : lo < bound) (hhi : hi ≤ bound) :
    symbolSearch m l fuel lo hi < bound := by
  induction fuel generalizing lo hi with
  | zero => exact hlo
  | succ fuel ih =>
    unfold symbolSearch
    split
    · dsimp only
      split
      · exact ih hlo (by omega)
      · exact ih (by omega) hhi
    · exact hlo

/-- A query below the total frequency finds a symbol of the alphabet. -/
theorem querySymbol_lt {m : Model} {l : W32} (hm : ModelInv m) (hl : l.toNat < 2 ^ m.bits.toNat) :
    querySymbol m l < m.s.toNat := by
  obtain ⟨hbits, -⟩ := hm.bits
  have hj : (l >>> searchShift m).toNat < 128 := by
    rw [BitVec.toNat_ushiftRight, Nat.shiftRight_eq_div_pow]
    apply Nat.div_lt_of_lt_mul
    calc l.toNat < 2 ^ m.bits.toNat := hl
      _ = 2 ^ searchShift m * 128 := by
        rw [show (128 : Nat) = 2 ^ 7 from rfl, ← Nat.pow_add, searchShift, Nat.sub_add_cancel hbits]
  have entry : ∀ j, j ≤ 128 → searchAt m j < m.s.toNat := fun j hle => by
    obtain ⟨hs, -⟩ := hm.alphabet
    obtain hlt | rfl := Nat.lt_or_eq_of_le hle
    · exact (hm.search.bucket j hlt).1
    · rw [hm.search.sentinel]; omega
  exact symbolSearch_lt (entry _ (by omega)) (entry _ (by omega))

/-- A decoded symbol is one of the alphabet. -/
theorem rcDecSym_sym_lt {c : Coder} {m : Model} {r : Nat × Coder × Model} (hm : ModelInv m)
    (h : rcDecSym c m = some r) : r.1 < m.s.toNat := by
  unfold rcDecSym at h
  split at h
  · cases h; exact hm.alphabet.1
  · dsimp only at h
    split at h
    · cases h
    · cases h
      exact querySymbol_lt hm (clampQuotient_lt _ (Nat.two_pow_pos _) (Nat.pow_le_pow_right (by omega) (by omega)))

/-- The raw field of a residual is at most 64 bits wide, where the model has the residual coder's alphabet. -/
theorem residualClass_le {w : Width} {sym : Nat} (h : sym < residualAlphabet w) : residualClass w sym ≤ 64 := by
  have hw : w.bits ≤ 64 := by cases w <;> decide
  unfold residualAlphabet at h
  unfold residualClass
  split <;> omega

/-- A residual's decode moves at most 25 bytes: 5 for the symbol, and 5 for each of the raw field's four chunks. -/
theorem resDecode_runs_25 {w : Width} {m : Model} (hm : ModelInv m) (hs : m.s.toNat = residualAlphabet w)
    (params : Params) (p : W64) (c : Coder) : Runs 25 c ((resDecode params w p c m).map (·.2.1)) :=
  resDecode_runs (k := 3) fun _ hr => residualClass_le (hs ▸ rcDecSym_sym_lt hm hr)

/-! ### The hold (20_memory.md R203, R210) -/

/-- No completed command leaves a hold. -/
theorem Completes.holding {i : Instr} {s t : State} (h : Completes s i t) (hs : s.holding = false) :
    t.holding = false := by
  cases h with
  | reset => rfl
  | _ => exact hs

/-- A command that holds has changed nothing. -/
theorem eq_of_exec_holding {i : Instr} {s t : State} (hs : s.holding = false) (h : exec i s = .next t)
    (ht : t.holding = true) : t = { s with holding := true } := by
  cases exec_answers h with
  | ignored | faults => exact absurd hs (by simpa [faulted] using ht)
  | holds => rfl
  | completes hc => simp [hc.holding hs] at ht

/-- A command does not hold if its effect, once its checks are passed, has an end. -/
theorem command_not_holding {i : Instr} {s t : State} {checks : List Check} {effect : State → Option State}
    (hs : s.holding = false) (h : command i s checks effect = .next t)
    (he : (∀ c ∈ checks, c.1 = false) → (effect s).map State.holding = some false) : t.holding = false := by
  obtain ⟨-, rfl⟩ | ⟨-, _, -, rfl⟩ | ⟨-, hc, hn, -⟩ | ⟨-, hc, hn⟩ := command_cases h
  · exact hs
  · exact hs
  · simpa [hn] using he (firstFault_eq_none.mp hc)
  · simpa [hn] using he (firstFault_eq_none.mp hc)

theorem withCoder_not_holding {s : State} {o : Option Coder} {c : Coder} (hs : s.holding = false) (ho : o = some c) :
    (withCoder s o).map State.holding = some false := by
  simp [ho, hs]

theorem withCoderModel_not_holding {s : State} {o : Option (Coder × Model)} {r : Coder × Model}
    (hs : s.holding = false) (ho : o = some r) : (withCoderModel s o).map State.holding = some false := by
  obtain ⟨c, m⟩ := r
  simp [ho, hs]

/-- No encode command holds: in its mode no byte is taken. -/
theorem exec_not_holding_enc {i : Instr} {s t : State} (hs : s.holding = false) (h : exec i s = .next t)
    (hi : needsEnc i = true) (hmode : s.coder.mode = .enc) : t.holding = false := by
  unfold exec at h
  cases i with
  | rcEncBit b =>
    obtain ⟨c, hc⟩ := (rcEncShift_runs (BitVec.ofNat 32 b.toNat) 1 s.coder).completes (.inl hmode)
    exact command_not_holding hs h fun _ => withCoder_not_holding hs hc
  | rcEncRaw n =>
    obtain ⟨c, hc⟩ := (rcEncRawLoop_runs (n / 16) s.din0 n s.coder).completes (.inl hmode)
    exact command_not_holding hs h fun _ => withCoder_not_holding hs hc
  | rcEncSym =>
    obtain ⟨r, hc⟩ := (rcEncSym_runs s.din0.toNat s.coder s.model).completes_of_map (.inl hmode)
    exact command_not_holding hs h fun _ => withCoderModel_not_holding hs hc
  | rcFinish =>
    obtain ⟨c, hc⟩ := (rcShift_runs 4 s.coder).completes (.inl hmode)
    exact command_not_holding hs h fun _ => by simp [hc, hs]
  | resEnc =>
    obtain ⟨k, hk⟩ := resEncode_runs s.params s.cfg.w s.din0 s.din1 s.coder s.model
    obtain ⟨r, hc⟩ := hk.completes_of_map (.inl hmode)
    exact command_not_holding hs h fun _ => withCoderModel_not_holding hs hc
  | stepEnc =>
    obtain ⟨k, hk⟩ := resEncode_runs s.params s.cfg.w (mapForwardW s.cfg.w s.din0) (lorenzo s.front) s.coder s.model
    obtain ⟨⟨c, m⟩, hc⟩ := hk.completes_of_map (.inl hmode)
    exact command_not_holding hs h fun _ => by simp [hc, hs]
  | _ => cases hi

/-- The model is configured, and for the residual coder's alphabet, once a residual command's checks are passed. -/
theorem modelInv_of_checks {s : State} {checks : List Check} (hm : ModelOk s.model)
    (hc : ∀ c ∈ checks, c.1 = false) (hmodel : needModel s ∈ checks) (halphabet : needAlphabet s ∈ checks) :
    ModelInv s.model ∧ s.model.s.toNat = residualAlphabet s.cfg.w :=
  ⟨hm.constructed (by simpa [needModel] using hc _ hmodel), by simpa [needAlphabet] using hc _ halphabet⟩

/-- A command that takes input does not hold with 25 bytes or the end mark at hand. -/
theorem exec_not_holding_dec {i : Instr} {s t : State} (hs : s.holding = false) (hm : ModelOk s.model)
    (h : exec i s = .next t) (hi : takesInput i = true) (hready : InputReady s.coder 25) : t.holding = false := by
  unfold exec at h
  cases i with
  | rcDecInit =>
    have hr : InputReady { freshCoder .dec s.coder with bytesIn := 0 } 4 := InputReady_mono (by omega) hready
    obtain ⟨c, hc⟩ := (rcShift_runs 4 _).completes (.inr hr)
    exact command_not_holding hs h fun _ => withCoder_not_holding hs hc
  | rcDecBit =>
    obtain ⟨⟨q, c⟩, hc⟩ := (rcDecShift_runs 1 s.coder).completes_of_map
      (.inr (InputReady_mono (by omega) hready))
    exact command_not_holding hs h fun _ => by simp [hc, hs]
  | rcDecRaw n =>
    refine command_not_holding hs h fun hchecks => ?_
    have hn : n ≤ 64 := by simpa [needOperand] using hchecks (needOperand (decide (n ≤ 64))) (by simp)
    obtain ⟨⟨v, c⟩, hc⟩ := (rcDecRawLoop_runs (k := 3) (n / 16) hn s.coder).completes_of_map
      (.inr (InputReady_mono (by omega) hready))
    simp [rcDecRaw, hc, hs]
  | rcDecSym =>
    obtain ⟨⟨sym, c, m⟩, hc⟩ := (rcDecSym_runs s.coder s.model).completes_of_map
      (.inr (InputReady_mono (by omega) hready))
    exact command_not_holding hs h fun _ => by simp [hc, hs]
  | resDec =>
    refine command_not_holding hs h fun hchecks => ?_
    obtain ⟨hinv, halphabet⟩ := modelInv_of_checks hm hchecks (by simp) (by simp)
    obtain ⟨⟨a, c, m⟩, hc⟩ := (resDecode_runs_25 hinv halphabet s.params s.din1 s.coder).completes_of_map
      (.inr hready)
    simp [hc, hs]
  | stepDec =>
    refine command_not_holding hs h fun hchecks => ?_
    obtain ⟨hinv, halphabet⟩ := modelInv_of_checks hm hchecks (by simp [stepChecks]) (by simp [stepChecks])
    obtain ⟨⟨a, c, m⟩, hc⟩ := (resDecode_runs_25 hinv halphabet s.params (lorenzo s.front) s.coder).completes_of_map
      (.inr hready)
    simp [hc, hs]
  | _ => cases hi

theorem execCsrRead_holding {c : Nat} {s t : State} (h : execCsrRead c s = .next t) : t.holding = s.holding := by
  unfold execCsrRead at h
  split at h <;> cases h
  · rfl
  · exact raiseFault_holding ..

theorem execCsrWrite_holding {c : Nat} {s t : State} (h : execCsrWrite c s = .next t) : t.holding = s.holding := by
  unfold execCsrWrite at h
  split at h
  · cases h; rfl
  · split at h <;> cases h
    · rfl
    · exact raiseFault_holding ..

/-- A command that works on neither stream does not hold. -/
theorem exec_not_holding_other {i : Instr} {s t : State} (hs : s.holding = false) (h : exec i s = .next t)
    (henc : needsEnc i = false) (hdec : takesInput i = false) : t.holding = false := by
  unfold exec at h
  cases i with
  | nop => cases h; exact hs
  | reset => cases h; rfl
  | csrRead c => exact (execCsrRead_holding h).trans hs
  | csrWrite c => exact (execCsrWrite_holding h).trans hs
  | rcEncBit | rcEncRaw | rcEncSym | rcFinish | resEnc | stepEnc => cases henc
  | rcDecInit | rcDecBit | rcDecRaw | rcDecSym | resDec | stepDec => cases hdec
  | _ => exact command_not_holding hs h fun _ => congrArg some hs

/-- A command holds only if it takes input, and 25 bytes and the end mark are missing. -/
theorem exec_holding {i : Instr} {s t : State} (hs : s.holding = false) (hm : ModelOk s.model)
    (h : exec i s = .next t) (ht : t.holding = true) : takesInput i = true ∧ ¬ InputReady s.coder 25 := by
  obtain ⟨r, rfl⟩ | hmode := exec_modeFits h
  · simp [hs] at ht
  by_contra hn
  suffices t.holding = false by simp [this] at ht
  cases hdec : takesInput i with
  | true => exact exec_not_holding_dec hs hm h hdec (by simpa [hdec] using hn)
  | false =>
    cases henc : needsEnc i with
    | true => exact exec_not_holding_enc hs h henc (hmode.1 henc)
    | false => exact exec_not_holding_other hs h henc hdec

/-- Settles O9: the bytes a command that holds is short of, and what a hold leaves. -/
theorem holdingCommandHasChangedNothing : Obligations.HoldingCommandHasChangedNothing := by
  intro i s t hs hm _ h ht
  obtain ⟨htakes, hready⟩ := exec_holding hs hm h ht
  obtain ⟨hlen, hmark⟩ := not_InputReady.mp hready
  exact ⟨htakes, hmark, hlen, eq_of_exec_holding hs h ht⟩

end Sys2Proof.Proofs
end

section
/-! PROOFS. The encoding: the row a word selects, in terms of its opcode and its immediate, what the decoder makes of
it, and O1 to O5. -/

namespace Sys2Proof.Proofs

open Sys2Proof.Machine Sys2Proof.Safety Sys2Proof.Laws

/-! ### A row of the opcode map: its opcode, its immediate field and its commands (30_encoding.md R301, R304) -/

/-- The opcode of a command's row: bits [31:24] of the row's match. -/
def opcode (i : Instr) : Nat := bitField (tableRow i).1 31 24

/-- The width of a command's immediate, by its format (R301): C, B, R, X, and N, which has none. -/
def immediateBits : Instr → Nat
  | .csrRead _ | .csrWrite _ => 8
  | .rcEncBit _ => 1
  | .rcEncRaw _ | .rcDecRaw _ => 7
  | .frontAt .. | .frontAdvance .. => 3
  | _ => 0

/-- The command of the same row with the immediate `imm`. -/
def withImmediate : Instr → Nat → Instr
  | .csrRead _, imm => .csrRead imm
  | .csrWrite _, imm => .csrWrite imm
  | .rcEncBit _, imm => .rcEncBit (imm.testBit 0)
  | .rcEncRaw _, imm => .rcEncRaw imm
  | .rcDecRaw _, imm => .rcDecRaw imm
  | .frontAt .., imm => .frontAt (imm.testBit 2) (imm.testBit 1) (imm.testBit 0)
  | .frontAdvance .., imm => .frontAdvance (imm.testBit 2) (imm.testBit 1) (imm.testBit 0)
  | i, _ => i

/-- One command of each row of the map. -/
def rowCommands : List Instr :=
  [.nop, .reset, .csrRead 0, .csrWrite 0, .rcEncInit, .rcEncBit false, .rcEncRaw 0, .rcEncSym, .rcFinish, .rcDecInit,
    .rcDecBit, .rcDecRaw 0, .rcDecSym, .qsmInit, .qsmReset, .qsmEnc, .qsmDec, .mapFwd, .mapInv, .frontInit,
    .frontAt false false false, .frontPush, .frontAdvance false false false, .predict, .resEnc, .resDec, .stepEnc,
    .stepDec]

theorem opcode_lt (i : Instr) : opcode i < 256 := Nat.mod_lt _ (by decide)

@[simp] theorem tableRow_withImmediate (i : Instr) (imm : Nat) : tableRow (withImmediate i imm) = tableRow i := by
  cases i <;> rfl

@[simp] theorem immediateBits_withImmediate (i : Instr) (imm : Nat) :
    immediateBits (withImmediate i imm) = immediateBits i := by
  cases i <;> rfl

theorem withImmediate_zero_mem (i : Instr) : withImmediate i 0 ∈ rowCommands := by
  cases i <;> simp [withImmediate, rowCommands]

/-- What is said of a row holds of all its commands once it holds of one command of each row. -/
theorem forall_of_rowCommands {P : W32 × W32 → Nat → Prop} (h : ∀ j ∈ rowCommands, P (tableRow j) (immediateBits j))
    (i : Instr) : P (tableRow i) (immediateBits i) := by
  simpa using h _ (withImmediate_zero_mem i)

theorem immediateBits_le : ∀ i, immediateBits i ≤ 8 :=
  forall_of_rowCommands (P := fun _ k => k ≤ 8) (by decide)

theorem immediate_lt {i : Instr} {imm : Nat} (h : imm < 2 ^ immediateBits i) : imm < 2 ^ 24 :=
  h.trans_le (Nat.pow_le_pow_right (by decide) ((immediateBits_le i).trans (by decide)))

/-- The match column has the opcode alone, the mask column leaves out the immediate's bits. -/
theorem tableRow_eq :
    ∀ i, tableRow i = (commandWord (opcode i) 0, ~~~ BitVec.ofNat 32 (2 ^ immediateBits i - 1)) :=
  forall_of_rowCommands
    (P := fun row k => row = (commandWord (bitField row.1 31 24) 0, ~~~ BitVec.ofNat 32 (2 ^ k - 1))) (by decide)

/-- The bit of format B is its immediate. -/
theorem testBit_toNat {imm : Nat} (h : imm < 2) : (imm.testBit 0).toNat = imm := by
  interval_cases imm <;> rfl

/-- The three bits of format X are its immediate. -/
theorem offsetBits_testBit {imm : Nat} (h : imm < 8) :
    offsetBits (imm.testBit 2) (imm.testBit 1) (imm.testBit 0) = imm := by
  interval_cases imm <;> rfl

/-- The word of a row's command is the row's opcode and the command's immediate. -/
theorem encode_withImmediate {i : Instr} {imm : Nat} (h : imm < 2 ^ immediateBits i) :
    encode (withImmediate i imm) = commandWord (opcode i) imm := by
  cases i with
  | csrRead | csrWrite | rcEncRaw | rcDecRaw => simp [opcode, tableRow, bitField, withImmediate, encode]
  | rcEncBit => rw [withImmediate, encode, testBit_toNat h]; simp [opcode, tableRow, bitField]
  | frontAt | frontAdvance => rw [withImmediate, encode, offsetBits_testBit h]; simp [opcode, tableRow, bitField]
  | _ => obtain rfl : imm = 0 := Nat.lt_one_iff.mp h; rfl

theorem wellFormed_withImmediate {i : Instr} {imm : Nat} (h : imm < 2 ^ immediateBits i) :
    (withImmediate i imm).wellFormed = true := by
  cases i with
  | csrRead | csrWrite | rcEncRaw | rcDecRaw => exact decide_eq_true h
  | _ => rfl

/-- A well-formed command is its row's command for some immediate of the field's width. -/
theorem exists_withImmediate_eq {i : Instr} (h : i.wellFormed = true) :
    ∃ imm < 2 ^ immediateBits i, withImmediate i imm = i := by
  cases i with
  | csrRead imm | csrWrite imm | rcEncRaw imm | rcDecRaw imm => exact ⟨imm, of_decide_eq_true h, rfl⟩
  | rcEncBit b => exact ⟨b.toNat, by revert b; decide⟩
  | frontAt x y z | frontAdvance x y z => exact ⟨offsetBits x y z, by revert x y z; decide⟩
  | _ => exact ⟨0, by decide, rfl⟩

/-! ### The two fields of a word (R301) -/

theorem toNat_commandWord {opc imm : Nat} (ho : opc < 256) (hi : imm < 2 ^ 24) :
    (commandWord opc imm).toNat = opc * 2 ^ 24 + imm := by
  rw [commandWord, BitVec.toNat_ofNat, Nat.mod_eq_of_lt (by omega)]

theorem bitField_commandWord_opcode {opc imm : Nat} (ho : opc < 256) (hi : imm < 2 ^ 24) :
    bitField (commandWord opc imm) 31 24 = opc := by
  rw [bitField, toNat_commandWord ho hi]; omega

theorem bitField_commandWord_immediate {opc imm : Nat} (ho : opc < 256) (hi : imm < 2 ^ 24) :
    bitField (commandWord opc imm) 23 0 = imm := by
  rw [bitField, toNat_commandWord ho hi]; omega

/-- A word is the command word of its own two fields. -/
theorem commandWord_bitFields (w : W32) : commandWord (bitField w 31 24) (bitField w 23 0) = w := by
  rw [commandWord, ← toNat_eq_bitFields, BitVec.ofNat_toNat, BitVec.setWidth_eq]

theorem toNat_shift_opcode (w : W32) : (w >>> 24).toNat = bitField w 31 24 := by
  rw [BitVec.toNat_ushiftRight, Nat.shiftRight_eq_div_pow, bitField]; omega

/-- The opcodes of a row and of a word agree when the match and the word agree above bit 23. -/
theorem shift_opcode_eq_iff (w : W32) (i : Instr) : (tableRow i).1 >>> 24 = w >>> 24 ↔ bitField w 31 24 = opcode i := by
  rw [← BitVec.toNat_inj, toNat_shift_opcode, toNat_shift_opcode, opcode, eq_comm]

/-- A mask that leaves out the lowest `k` bits clears them. -/
theorem and_not_low_eq_shift (w : W32) (k : Nat) : w &&& ~~~ BitVec.ofNat 32 (2 ^ k - 1) = w >>> k <<< k := by
  apply BitVec.eq_of_getLsbD_eq
  intro j hj
  simp only [BitVec.getLsbD_and, BitVec.getLsbD_not, BitVec.getLsbD_ofNat, BitVec.getLsbD_shiftLeft,
    BitVec.getLsbD_ushiftRight, Nat.testBit_two_pow_sub_one, hj, decide_true, Bool.true_and]
  by_cases hjk : j < k
  · simp [hjk]
  · simp [hjk, Nat.add_sub_cancel' (Nat.le_of_not_lt hjk)]

theorem toNat_and_not_low (w : W32) (k : Nat) :
    (w &&& ~~~ BitVec.ofNat 32 (2 ^ k - 1)).toNat = 2 ^ k * (w.toNat / 2 ^ k) := by
  have hle : 2 ^ k * (w.toNat / 2 ^ k) ≤ w.toNat := Nat.mul_div_le ..
  rw [and_not_low_eq_shift, BitVec.toNat_shiftLeft, BitVec.toNat_ushiftRight, Nat.shiftRight_eq_div_pow,
    Nat.shiftLeft_eq, Nat.mul_comm, Nat.mod_eq_of_lt (hle.trans_lt w.isLt)]

/-- A word selects a row exactly when it has the row's opcode and an immediate of the field's width (R301, R304). -/
theorem selects_iff (w : W32) (i : Instr) :
    w &&& (tableRow i).2 = (tableRow i).1 ↔ bitField w 31 24 = opcode i ∧ bitField w 23 0 < 2 ^ immediateBits i := by
  rw [tableRow_eq]
  constructor
  · intro h
    obtain ⟨imm, hi, rfl⟩ : ∃ imm < 2 ^ immediateBits i, w = commandWord (opcode i) imm := by
      have hlt := Nat.mod_lt w.toNat (Nat.two_pow_pos (immediateBits i))
      refine ⟨_, hlt, BitVec.eq_of_toNat_eq ?_⟩
      calc w.toNat = 2 ^ immediateBits i * (w.toNat / 2 ^ immediateBits i) + w.toNat % 2 ^ immediateBits i :=
            (Nat.div_add_mod ..).symm
        _ = (commandWord (opcode i) (w.toNat % 2 ^ immediateBits i)).toNat := by
            rw [← toNat_and_not_low, h, toNat_commandWord (opcode_lt i) (Nat.two_pow_pos 24),
              toNat_commandWord (opcode_lt i) (immediate_lt hlt), Nat.add_zero]
    rw [bitField_commandWord_opcode (opcode_lt i) (immediate_lt hi),
      bitField_commandWord_immediate (opcode_lt i) (immediate_lt hi)]
    exact ⟨rfl, hi⟩
  · rintro ⟨ho, hi⟩
    rw [← commandWord_bitFields w, ho]
    exact commandWord_masked ((immediateBits_le i).trans (by decide)) hi

/-! ### The decoder, by the row (R304, R307, R308) -/

/-- A word with a row's opcode is that row's command with the word's immediate, or it sets a "must be 0" bit. -/
theorem decode_of_opcode {w : W32} {i : Instr} (h : bitField w 31 24 = opcode i) :
    decode w = if bitField w 23 0 < 2 ^ immediateBits i then .instr (withImmediate i (bitField w 23 0))
      else .reservedField := by
  cases i with
  | csrRead | csrWrite | rcEncBit | rcEncRaw | rcDecRaw | frontAt | frontAdvance =>
    dsimp only [opcode, tableRow] at h; simp only [decode, h]; rfl
  | _ => simp only [decode, h, immediateBits, Nat.pow_zero, Nat.lt_one_iff]; rfl

/-- A word whose opcode is in no row is illegal. -/
theorem decode_of_no_opcode {w : W32} (h : ∀ i, bitField w 31 24 ≠ opcode i) : decode w = .illegalOpcode := by
  have hrows : bitField w 31 24 ∉ rowCommands.map opcode := by simpa using fun i _ => (h i).symm
  unfold decode
  split
  case h_29 => rfl
  all_goals
    rename_i heq
    rw [heq] at hrows
    exact absurd (by decide) hrows

/-- A word that decodes to a command has the opcode of a row and an immediate of the field's width, and the command is
that row's. -/
theorem row_of_decode {w : W32} {i : Instr} (h : decode w = .instr i) :
    ∃ row, bitField w 31 24 = opcode row ∧ bitField w 23 0 < 2 ^ immediateBits row ∧
      i = withImmediate row (bitField w 23 0) := by
  by_cases hrow : ∃ row, bitField w 31 24 = opcode row
  · obtain ⟨row, ho⟩ := hrow
    rw [decode_of_opcode ho] at h
    split at h
    · next hi => cases h; exact ⟨row, ho, hi, rfl⟩
    · cases h
  · rw [decode_of_no_opcode (not_exists.mp hrow)] at h
    cases h

/-- A word that selects a row decodes to that row's command. -/
theorem decode_of_selects {w : W32} {i : Instr} (h : w &&& (tableRow i).2 = (tableRow i).1) :
    decode w = .instr (withImmediate i (bitField w 23 0)) := by
  obtain ⟨ho, hi⟩ := (selects_iff w i).mp h
  rw [decode_of_opcode ho, if_pos hi]

/-- A word that decodes to a command selects the command's row. -/
theorem selects_of_decode {w : W32} {i : Instr} (h : decode w = .instr i) :
    w &&& (tableRow i).2 = (tableRow i).1 := by
  obtain ⟨row, ho, hi, rfl⟩ := row_of_decode h
  rw [tableRow_withImmediate]
  exact (selects_iff w row).mpr ⟨ho, hi⟩

theorem decode_eq_illegalOpcode_iff {w : W32} : decode w = .illegalOpcode ↔ ∀ i, bitField w 31 24 ≠ opcode i := by
  refine ⟨fun h i ho => ?_, decode_of_no_opcode⟩
  rw [decode_of_opcode ho] at h
  split at h <;> cases h

theorem decode_eq_reservedField_iff {w : W32} : decode w = .reservedField ↔
    (∃ i, bitField w 31 24 = opcode i) ∧ ∀ i, w &&& (tableRow i).2 ≠ (tableRow i).1 := by
  constructor
  · intro h
    constructor
    · by_contra hno
      rw [decode_of_no_opcode (not_exists.mp hno)] at h
      cases h
    · intro i hs
      rw [decode_of_selects hs] at h
      cases h
  · rintro ⟨⟨i, ho⟩, hno⟩
    rw [decode_of_opcode ho, if_neg fun hi => hno i ((selects_iff w i).mpr ⟨ho, hi⟩)]

/-! ### The statements -/

/-- Settles O1: the word of a well-formed command has the row's opcode and an immediate that fits, and the decoder
gives the row's command with that immediate. -/
theorem decodeOfEncodeGivesTheCommand : Obligations.DecodeOfEncodeGivesTheCommand := by
  intro i hwf
  obtain ⟨imm, hi, heq⟩ := exists_withImmediate_eq hwf
  have hword : encode i = commandWord (opcode i) imm := by rw [← encode_withImmediate hi, heq]
  have ho : bitField (encode i) 31 24 = opcode i := by
    rw [hword, bitField_commandWord_opcode (opcode_lt i) (immediate_lt hi)]
  have himm : bitField (encode i) 23 0 = imm := by
    rw [hword, bitField_commandWord_immediate (opcode_lt i) (immediate_lt hi)]
  rw [decode_of_opcode ho, himm, if_pos hi, heq]

/-- Settles O2: a decoded command is its row's with the word's own immediate, and a word is its two fields. -/
theorem decodedWordIsTheCommandsWord : Obligations.DecodedWordIsTheCommandsWord := by
  intro w i h
  obtain ⟨row, ho, hi, rfl⟩ := row_of_decode h
  refine ⟨wellFormed_withImmediate hi, ?_⟩
  rw [encode_withImmediate hi, ← ho, commandWord_bitFields]

/-- Settles O3: two rows a word selects are one, because both are the row of the command it decodes to. -/
theorem decoderFollowsTheOpcodeMap : Obligations.DecoderFollowsTheOpcodeMap := by
  refine ⟨fun w i => selects_of_decode, fun w i hs => ⟨_, decode_of_selects hs, tableRow_withImmediate i _⟩,
    fun w i j hi hj => ?_⟩
  have hij : withImmediate i (bitField w 23 0) = withImmediate j (bitField w 23 0) :=
    Decoded.instr.inj ((decode_of_selects hi).symm.trans (decode_of_selects hj))
  rw [← tableRow_withImmediate i, hij, tableRow_withImmediate]

/-- Settles O4: by the rows' opcodes. -/
theorem wordsOutsideTheMapAreRejected : Obligations.WordsOutsideTheMapAreRejected := by
  intro w
  simp only [ne_eq, shift_opcode_eq_iff]
  exact ⟨decode_eq_illegalOpcode_iff, decode_eq_reservedField_iff⟩

/-- Settles O5: the decoder is run on each word. -/
theorem writtenWordsDecode : Obligations.WrittenWordsDecode := by
  unfold Obligations.WrittenWordsDecode
  decide

end Sys2Proof.Proofs
end

section
/-! PROOFS. What each host action makes of the block when no command runs: O8. -/

namespace Sys2Proof.Proofs

open Sys2Proof.Machine Sys2Proof.Safety Sys2Proof.Laws

/-! ### Each action of the host (10_state.md R100, 20_memory.md R202, R203) -/

theorem hostStep_done {s : State} (h : s.host = []) : hostStep s = .next s := by
  simp only [hostStep, h]

theorem hostStep_issue {s : State} {rest : List HostEvent} {w : W32} {a b : W64} (h : s.host = .issue w a b :: rest)
    (hp : s.port = none) :
    hostStep s = .next { s with host := rest, port := some w, holding := false, din0 := a, din1 := b } := by
  simp only [hostStep, h, hp]

/-- A command is issued into a free port only (20_memory.md R210). -/
theorem hostStep_issue_waits {s : State} {rest : List HostEvent} {w : W32} {a b : W64}
    (h : s.host = .issue w a b :: rest) (hp : s.port ≠ none) : hostStep s = .next s := by
  obtain ⟨v, hv⟩ := Option.ne_none_iff_exists'.mp hp
  simp only [hostStep, h, hv]

theorem hostStep_supply {s : State} {rest : List HostEvent} {b : Byte} (h : s.host = .supply b :: rest)
    (hm : s.coder.inMark = false) :
    hostStep s = .next { s with
      host := rest, holding := false, coder := { s.coder with instream := s.coder.instream ++ [b] } } := by
  simp only [hostStep, h, hm, Bool.false_eq_true, if_false]

theorem hostStep_endMark {s : State} {rest : List HostEvent} (h : s.host = .endMark :: rest)
    (hm : s.coder.inMark = false) :
    hostStep s = .next { s with host := rest, holding := false, coder := { s.coder with inMark := true } } := by
  simp only [hostStep, h, hm, Bool.false_eq_true, if_false]

theorem hostStep_resetInput {s : State} {rest : List HostEvent} (h : s.host = .resetInput :: rest) :
    hostStep s = .next { resetBlock s with host := rest, port := none } := by
  simp only [hostStep, h]

/-! ### The step -/

/-- With no command in the port, or one that holds, the host acts. -/
theorem step_eq_hostStep {s : State} (h : s.port = none ∨ s.holding = true) : step s = hostStep s := by
  have hfetch : fetch s = none := by
    obtain hp | hh := h
    · cases hh : s.holding <;> simp [fetch, hp, hh]
    · simp [fetch, hh]
  simp only [step, hfetch]

/-- Settles O8: the step is the host's, and each clause one of its actions. -/
theorem hostActionsReachTheBlock : Obligations.HostActionsReachTheBlock := by
  intro s rest hidle
  rw [step_eq_hostStep hidle]
  exact ⟨hostStep_done, fun _ _ _ => hostStep_issue, fun _ _ _ => hostStep_issue_waits, fun _ => hostStep_supply,
    hostStep_endMark, hostStep_resetInput⟩

end Sys2Proof.Proofs
end

section
/-! PROOFS. The checks on operands, which come last in a command's order of checks: O16. -/

namespace Sys2Proof.Proofs

open Sys2Proof.Machine Sys2Proof.Safety Sys2Proof.Laws

/-! ### When a check passes (60_exceptions.md R1102) -/

@[simp] theorem needMode_passes {m : RcMode} {s : State} : (needMode m s).1 = false ↔ s.coder.mode = m := by
  simp [needMode]

@[simp] theorem needModel_passes {s : State} : (needModel s).1 = false ↔ s.model.valid = true := by
  simp [needModel]

@[simp] theorem needFront_passes {s : State} : (needFront s).1 = false ↔ s.front.valid = true := by
  simp [needFront]

@[simp] theorem needAlphabet_passes {s : State} :
    (needAlphabet s).1 = false ↔ s.model.s.toNat = 2 * s.cfg.w.bits + 1 :=
  decide_eq_false_iff_not.trans not_not

@[simp] theorem needFrontWidth_passes {s : State} : (needFrontWidth s).1 = false ↔ s.front.w = s.cfg.w := by
  simp [needFrontWidth]

@[simp] theorem fitsWidth_eq_false {w : Width} {x : W64} : fitsWidth w x = false ↔ 2 ^ w.bits ≤ x.toNat := by
  simp [fitsWidth]

@[simp] theorem fitsRaw_eq_false {n : Nat} {x : W64} : fitsRaw n x = false ↔ 2 ^ n ≤ x.toNat := by
  simp [fitsRaw]

/-! ### The fault (60_exceptions.md R1101, R1103) -/

/-- Once every earlier check has passed, one bad operand faults with OperandRange, whichever it is. -/
theorem firstFault_operands {before : List Check} {oks : List Bool} (hb : ∀ c ∈ before, c.1 = false)
    (ho : ∃ ok ∈ oks, ok = false) : firstFault (before ++ oks.map needOperand) = some .operandRange := by
  induction before with
  | nil =>
    induction oks with
    | nil => simp at ho
    | cons ok oks ih =>
      cases ok with
      | false => rfl
      | true => exact ih (by simpa using ho)
  | cons c before ih =>
    obtain ⟨bad, cause⟩ := c
    obtain rfl : bad = false := hb _ List.mem_cons_self
    exact ih fun c hc => hb c (List.mem_cons_of_mem _ hc)

/-- A command whose other checks have passed faults with OperandRange, code 8, if one of its operands is bad. -/
theorem command_operandRange {i : Instr} {s : State} {checks : List Check} {effect : State → Option State}
    (before : List Check) (oks : List Bool) (hc : checks = before ++ oks.map needOperand) (hf : s.faults.flag = false)
    (hb : ∀ c ∈ before, c.1 = false) (ho : ∃ ok ∈ oks, ok = false) :
    command i s checks effect = .next (faulted i 8 s) :=
  command_faults hf (hc ▸ firstFault_operands hb ho)

/-- Settles O16: clause by clause, the checks before the operands and the operands. -/
theorem operandsOutOfRangeFault : Obligations.OperandsOutOfRangeFault := by
  intro s hf
  unfold exec
  refine ⟨fun n hmode hbad => ?rcEncRaw, fun n hmode hbad => ?rcDecRaw, fun hmode hmodel hbad => ?rcEncSym,
    fun hmodel hbad => ?qsmEnc, fun hmodel hbad => ?qsmDec, fun hbad => ⟨?mapFwd, ?mapInv⟩,
    fun hfront hbad => ?frontPush, fun hmode hmodel halphabet hbad => ?resEnc,
    fun hmode hmodel halphabet hbad => ?resDec, fun hmode hmodel hfront halphabet hwidth hbad => ?stepEnc⟩
  case rcEncRaw =>
    exact command_operandRange [needMode .enc s] [decide (n ≤ 64), fitsRaw n s.din0] rfl hf (by simp [hmode])
      (by simpa using hbad)
  case rcDecRaw =>
    exact command_operandRange [needMode .dec s] [decide (n ≤ 64)] rfl hf (by simp [hmode]) (by simpa using hbad)
  case rcEncSym =>
    exact command_operandRange [needMode .enc s, needModel s] [decide (s.din0.toNat < s.model.s.toNat)] rfl hf
      (by simp [hmode, hmodel]) (by simpa using hbad)
  case qsmEnc =>
    exact command_operandRange [needModel s] [decide (s.din0.toNat < s.model.s.toNat)] rfl hf (by simp [hmodel])
      (by simpa using hbad)
  case qsmDec =>
    exact command_operandRange [needModel s] [decide (s.din0.toNat < 2 ^ s.model.bits.toNat)] rfl hf (by simp [hmodel])
      (by simpa using hbad)
  case mapFwd | mapInv =>
    exact command_operandRange [] [fitsWidth s.cfg.w s.din0] rfl hf (by simp) (by simpa using hbad)
  case frontPush =>
    exact command_operandRange [needFront s] [fitsWidth s.front.w s.din0] rfl hf (by simp [hfront])
      (by simpa using hbad)
  case resEnc =>
    exact command_operandRange [needMode .enc s, needModel s, needAlphabet s]
      [fitsWidth s.cfg.w s.din0, fitsWidth s.cfg.w s.din1] rfl hf (by simp [hmode, hmodel, halphabet])
      (by simpa using hbad)
  case resDec =>
    exact command_operandRange [needMode .dec s, needModel s, needAlphabet s] [fitsWidth s.cfg.w s.din1] rfl hf
      (by simp [hmode, hmodel, halphabet]) (by simpa using hbad)
  case stepEnc =>
    exact command_operandRange [needMode .enc s, needModel s, needFront s, needAlphabet s, needFrontWidth s]
      [fitsWidth s.cfg.w s.din0] rfl hf (by simp [hmode, hmodel, hfront, halphabet, hwidth])
      (by simpa using hbad)

end Sys2Proof.Proofs
end

section
/-! PROOFS. The closed forms of the map between bit patterns and samples, its inverse and its order: O22, O23. -/

namespace Sys2Proof.Proofs

open Sys2Proof.Machine Sys2Proof.Safety Sys2Proof.Laws

/-! ### The mask (40_bitmap.md R401, R402) -/

/-- The shift brings the top bit down to bit 0 and drops the others. -/
theorem ushiftRight_pred_eq {w : Nat} (hw : 0 < w) (r : BitVec w) : r >>> (w - 1) = if r.msb then 1#w else 0#w := by
  have hpow := Nat.two_pow_pred_add_two_pow_pred hw
  have hr := r.isLt
  apply BitVec.eq_of_toNat_eq
  rw [BitVec.toNat_ushiftRight, Nat.shiftRight_eq_div_pow, BitVec.msb_eq_decide]
  by_cases htop : 2 ^ (w - 1) ≤ r.toNat
  · have hone : r.toNat / 2 ^ (w - 1) = 1 := Nat.div_eq_of_lt_le (by omega) (by omega)
    simp [htop, hone, Nat.one_mod_two_pow hw]
  · have hzero : r.toNat / 2 ^ (w - 1) = 0 := Nat.div_eq_of_lt (by omega)
    simp [htop, hzero]

theorem signMask_of_msb_true {w : Nat} (hw : 0 < w) {r : BitVec w} (h : r.msb = true) :
    signMask r = BitVec.intMax w := by
  have hpow := Nat.two_pow_pred_add_two_pow_pred hw
  rw [signMask, ushiftRight_pred_eq hw, if_pos h, BitVec.neg_one_eq_allOnes]
  apply BitVec.eq_of_toNat_eq
  rw [BitVec.toNat_ushiftRight, BitVec.toNat_allOnes, BitVec.toNat_intMax, Nat.shiftRight_one]
  omega

theorem signMask_of_msb_false {w : Nat} (hw : 0 < w) {r : BitVec w} (h : r.msb = false) : signMask r = 0#w := by
  simp [signMask, ushiftRight_pred_eq hw, h]

/-! ### The closed forms -/

/-- R401's closed form on sign 0, with the sign bit set. -/
theorem mapForward_of_msb_false {w : Nat} (hw : 0 < w) {f : BitVec w} (h : f.msb = false) :
    mapForward f = f ||| BitVec.intMin w := by
  rw [mapForward, signMask_of_msb_true hw (by simp [h, hw])]
  apply BitVec.eq_of_getLsbD_eq
  intro i hi
  obtain hlow | rfl : i + 1 < w ∨ w = i + 1 := by omega
  · simp [-BitVec.getLsbD_eq_getElem, BitVec.getLsbD_intMax, BitVec.getLsbD_intMin, hi, hlow, hlow.ne]
  · have hsign : f.getLsbD i = false := BitVec.msb_eq_getLsbD_last f ▸ h
    simp [-BitVec.getLsbD_eq_getElem, BitVec.getLsbD_intMax, BitVec.getLsbD_intMin, hsign]

theorem mapForward_of_msb_true {w : Nat} (hw : 0 < w) {f : BitVec w} (h : f.msb = true) : mapForward f = ~~~f := by
  rw [mapForward, signMask_of_msb_false hw (by simp [h]), BitVec.xor_zero]

/-- R402's closed form on a mapped value of top bit 1, with that bit cleared. -/
theorem mapInverse_of_msb_true {w : Nat} (hw : 0 < w) {u : BitVec w} (h : u.msb = true) :
    mapInverse u = u &&& BitVec.intMax w := by
  rw [mapInverse, signMask_of_msb_true hw h]
  apply BitVec.eq_of_getLsbD_eq
  intro i hi
  obtain hlow | rfl : i + 1 < w ∨ w = i + 1 := by omega
  · simp [-BitVec.getLsbD_eq_getElem, BitVec.getLsbD_intMax, hi, hlow]
  · have hsign : u.getLsbD i = true := BitVec.msb_eq_getLsbD_last u ▸ h
    simp [-BitVec.getLsbD_eq_getElem, BitVec.getLsbD_intMax, hsign]

theorem mapInverse_of_msb_false {w : Nat} (hw : 0 < w) {u : BitVec w} (h : u.msb = false) : mapInverse u = ~~~u := by
  rw [mapInverse, signMask_of_msb_false hw h, BitVec.xor_zero]

/-! ### The closed forms in plain arithmetic -/

theorem mapForward_toNat_of_msb_false {w : Nat} (hw : 0 < w) {f : BitVec w} (h : f.msb = false) :
    (mapForward f).toNat = f.toNat + 2 ^ (w - 1) := by
  have hlt : f.toNat < 2 ^ (w - 1) := by simpa [BitVec.msb_eq_decide] using h
  rw [mapForward_of_msb_false hw h, BitVec.toNat_or, BitVec.toNat_intMin_of_pos hw, Nat.or_comm, Nat.add_comm]
  simpa using (Nat.two_pow_add_eq_or_of_lt hlt 1).symm

theorem mapForward_toNat_of_msb_true {w : Nat} (hw : 0 < w) {f : BitVec w} (h : f.msb = true) :
    (mapForward f).toNat = 2 ^ w - 1 - f.toNat := by
  rw [mapForward_of_msb_true hw h, BitVec.toNat_not]

theorem mapForward_toNat {w : Nat} (hw : 0 < w) (f : BitVec w) :
    (mapForward f).toNat = if f.toNat < 2 ^ (w - 1) then f.toNat + 2 ^ (w - 1) else 2 ^ w - 1 - f.toNat := by
  split
  case isTrue h => exact mapForward_toNat_of_msb_false hw (by simpa [BitVec.msb_eq_decide] using h)
  case isFalse h => exact mapForward_toNat_of_msb_true hw (by simpa [BitVec.msb_eq_decide] using h)

theorem mapInverse_toNat {w : Nat} (hw : 0 < w) (u : BitVec w) :
    (mapInverse u).toNat = if 2 ^ (w - 1) ≤ u.toNat then u.toNat - 2 ^ (w - 1) else 2 ^ w - 1 - u.toNat := by
  have hmsb := BitVec.msb_eq_decide u
  have hpow := Nat.two_pow_pred_add_two_pow_pred hw
  split
  case isTrue h =>
    rw [mapInverse_of_msb_true hw (by simpa [hmsb] using h), BitVec.toNat_and, BitVec.toNat_intMax,
      Nat.and_two_pow_sub_one_eq_mod, Nat.mod_eq_sub_mod h, Nat.mod_eq_of_lt (by omega)]
  case isFalse h => rw [mapInverse_of_msb_false hw (by simpa [hmsb] using h), BitVec.toNat_not]

/-! ### The commands (40_bitmap.md R403, R404) -/

theorem width_bits_pos (w : Width) : 0 < w.bits := by cases w <;> decide

theorem width_bits_le (w : Width) : w.bits ≤ 64 := by cases w <;> decide

theorem lowBits_toNat {w : Width} {x : W64} (h : x.toNat < 2 ^ w.bits) : (lowBits w x).toNat = x.toNat := by
  rw [lowBits, BitVec.toNat_setWidth, Nat.mod_eq_of_lt h]

theorem zext_toNat {w : Width} (x : BitVec w.bits) : (zext x).toNat = x.toNat :=
  BitVec.toNat_setWidth_of_le (width_bits_le w)

theorem firstFault_fitsWidth {w : Width} {x : W64} (h : x.toNat < 2 ^ w.bits) :
    firstFault [needOperand (fitsWidth w x)] = none := by
  simpa [firstFault_eq_none, needOperand, fitsWidth] using h

/-- MAP_FWD asks nothing of the units or of the mode (R403). -/
theorem exec_mapFwd_completes {s : State} (hf : s.faults.flag = false) (h : s.din0.toNat < 2 ^ s.cfg.w.bits) :
    exec .mapFwd s = .next { s with dout0 := mapForwardW s.cfg.w s.din0 } := by
  unfold exec execMapFwd
  exact command_completes hf (firstFault_fitsWidth h) rfl

theorem exec_mapInv_completes {s : State} (hf : s.faults.flag = false) (h : s.din0.toNat < 2 ^ s.cfg.w.bits) :
    exec .mapInv s = .next { s with dout0 := mapInverseW s.cfg.w s.din0 } := by
  unfold exec execMapInv
  exact command_completes hf (firstFault_fitsWidth h) rfl

theorem mapForwardW_toNat {w : Width} {x : W64} (h : x.toNat < 2 ^ w.bits) :
    (mapForwardW w x).toNat =
      if x.toNat < 2 ^ (w.bits - 1) then x.toNat + 2 ^ (w.bits - 1) else 2 ^ w.bits - 1 - x.toNat := by
  rw [mapForwardW, zext_toNat, mapForward_toNat (width_bits_pos w), lowBits_toNat h]

theorem mapInverseW_toNat {w : Width} {x : W64} (h : x.toNat < 2 ^ w.bits) :
    (mapInverseW w x).toNat =
      if 2 ^ (w.bits - 1) ≤ x.toNat then x.toNat - 2 ^ (w.bits - 1) else 2 ^ w.bits - 1 - x.toNat := by
  rw [mapInverseW, zext_toNat, mapInverse_toNat (width_bits_pos w), lowBits_toNat h]

/-- Settles O22: each command completes, and its result is the closed form of an operand that fits. -/
theorem mapCommandsGiveTheClosedForms : Obligations.MapCommandsGiveTheClosedForms := by
  intro s hf hfits
  exact ⟨⟨_, exec_mapFwd_completes hf hfits, mapForwardW_toNat hfits⟩,
    ⟨_, exec_mapInv_completes hf hfits, mapInverseW_toNat hfits⟩⟩

/-! ### The bijection and its order (40_bitmap.md R405) -/

theorem mapInverse_mapForward {w : Nat} (hw : 0 < w) (f : BitVec w) : mapInverse (mapForward f) = f := by
  have hpow := Nat.two_pow_pred_add_two_pow_pred hw
  have hf := f.isLt
  apply BitVec.eq_of_toNat_eq
  rw [mapInverse_toNat hw, mapForward_toNat hw]
  by_cases hsign : f.toNat < 2 ^ (w - 1)
  · rw [if_pos hsign, if_pos (by omega), Nat.add_sub_cancel]
  · rw [if_neg hsign, if_neg (by omega)]
    omega

theorem mapForward_mapInverse {w : Nat} (hw : 0 < w) (u : BitVec w) : mapForward (mapInverse u) = u := by
  have hpow := Nat.two_pow_pred_add_two_pow_pred hw
  have hu := u.isLt
  apply BitVec.eq_of_toNat_eq
  rw [mapForward_toNat hw, mapInverse_toNat hw]
  by_cases htop : 2 ^ (w - 1) ≤ u.toNat
  · rw [if_pos htop, if_pos (by omega), Nat.sub_add_cancel htop]
  · rw [if_neg htop, if_neg (by omega)]
    omega

/-- Settles O23: the two round trips, then the order within each sign and across the signs. -/
theorem mapIsAnOrderedBijection : Obligations.MapIsAnOrderedBijection := by
  intro w
  have hw := width_bits_pos w
  refine ⟨mapInverse_mapForward hw, mapForward_mapInverse hw, fun a b ha hb hab => ?rising,
    fun a b ha hb hab => ?falling, fun a b ha hb => ?across⟩
  case rising =>
    rw [mapForward_toNat_of_msb_false hw ha, mapForward_toNat_of_msb_false hw hb]
    exact Nat.add_lt_add_right hab _
  case falling =>
    have hb' := b.isLt
    rw [mapForward_toNat_of_msb_true hw ha, mapForward_toNat_of_msb_true hw hb]
    omega
  case across =>
    have htop : 2 ^ w.bits ≤ 2 * a.toNat := BitVec.msb_eq_true_iff_two_mul_ge.mp ha
    have hpow := Nat.two_pow_pred_add_two_pow_pred hw
    rw [mapForward_toNat_of_msb_true hw ha, mapForward_toNat_of_msb_false hw hb]
    omega

end Sys2Proof.Proofs
end

section
/-! PROOFS. Normalization in plain arithmetic (41_range_coder.md R501 to R504): that the passes stop, that the interval
left satisfies the coder's invariants, and that a code inside it was inside the interval before. -/

namespace Sys2Proof.Proofs

open Sys2Proof.Machine Sys2Proof.Safety Sys2Proof.Laws

/-! ### Shifts by a byte -/

theorem shifted_zero {x : Nat} (hx : x < 2 ^ 32) : shifted x 0 = x := by
  rw [shifted, Nat.pow_zero, Nat.mul_one, Nat.mod_eq_of_lt hx]

theorem shifted_lt (x i : Nat) : shifted x i < 2 ^ 32 := Nat.mod_lt _ (by decide)

theorem shifted_shifted (x i j : Nat) : shifted (shifted x i) j = shifted x (i + j) := by
  rw [shifted, shifted, shifted, Nat.mod_mul_mod, Nat.mul_assoc, ← Nat.pow_add]

/-! ### The passes of step 1 -/

/-- An interval a narrowing may leave: not empty, and inside the 32-bit values. -/
structure Interval (low range : Nat) : Prop where
  pos : 1 ≤ range
  range_lt : range < 2 ^ 32
  no_wrap : low + range ≤ 2 ^ 32

/-- What `i` passes have made of an interval: the range has grown by `i` bytes, or, where the interval reaches the top,
`low` has. -/
def AfterPasses (i low range : Nat) : Prop :=
  1 ≤ range ∧ (low + range < 2 ^ 32 ∧ 256 ^ i ≤ range ∨ low + range = 2 ^ 32 ∧ 256 ^ i ≤ low)

theorem Interval.afterPasses {low range : Nat} (h : Interval low range) : AfterPasses 0 low range := by
  obtain ⟨hpos, hlt, hsum⟩ := h
  unfold AfterPasses
  omega

theorem AfterPasses.pass {i low range : Nat} (h : AfterPasses i low range) (ha : TopAgree low range) :
    AfterPasses (i + 1) (shifted low 1) (shifted range 1) := by
  have hi : 1 ≤ 256 ^ i := Nat.one_le_pow _ _ (by decide)
  unfold AfterPasses at *
  unfold TopAgree topByte at ha
  simp only [shifted, Nat.pow_succ, Nat.pow_zero, Nat.one_mul] at *
  omega

/-- Three passes leave no fourth (R503). -/
theorem AfterPasses.stops {low range : Nat} (h : AfterPasses 3 low range) : ¬ TopAgree low range := by
  unfold AfterPasses at h
  unfold TopAgree topByte
  omega

theorem AfterPasses.passes {low range k : Nat} (h : Interval low range)
    (ha : ∀ i, i < k → TopAgree (shifted low i) (shifted range i)) :
    AfterPasses k (shifted low k) (shifted range k) := by
  induction k with
  | zero =>
    have hlow : low < 2 ^ 32 := by have := h.pos; have := h.no_wrap; omega
    rw [shifted_zero hlow, shifted_zero h.range_lt]
    exact h.afterPasses
  | succ k ih =>
    have hpass := (ih fun i hi => ha i (by omega)).pass (ha k (by omega))
    rwa [shifted_shifted, shifted_shifted] at hpass

/-- Normalization ends, after at most three passes (R503). -/
theorem Interval.normalizes {low range : Nat} (h : Interval low range) :
    ∃ n low' range', NormalizesTo low range n low' range' := by
  classical
  have hstop : ∃ k, ¬ TopAgree (shifted low k) (shifted range k) := by
    by_contra hall
    exact (AfterPasses.passes (k := 3) h fun i _ => not_exists_not.mp hall i).stops (not_exists_not.mp hall 3)
  have hbefore : ∀ i, i < Nat.find hstop → TopAgree (shifted low i) (shifted range i) := fun i hi =>
    not_not.mp (Nat.find_min hstop hi)
  have hle : Nat.find hstop ≤ 3 := by
    by_contra hgt
    exact (AfterPasses.passes (k := 3) h fun i hi => hbefore i (by omega)).stops (hbefore 3 (by omega))
  obtain hr | hr := Nat.lt_or_ge (shifted range (Nat.find hstop)) (2 ^ 16)
  · exact ⟨_, _, _, _, hle, hbefore, Nat.find_spec hstop, .inr ⟨hr, rfl, rfl, rfl⟩⟩
  · exact ⟨_, _, _, _, hle, hbefore, Nat.find_spec hstop, .inl ⟨hr, rfl, rfl, rfl⟩⟩

/-! ### What a normalization leaves -/

theorem normalizesTo_low_eq {low range n low' range' : Nat} (h : NormalizesTo low range n low' range') :
    low' = shifted low n := by
  obtain ⟨_, _, _, _, ⟨_, _, hl, _⟩ | ⟨_, _, hl, _⟩⟩ := h <;> exact hl

/-- Where the top bytes differ, an interval shorter than `2^16` reaches over the next multiple of `2^16`. -/
theorem reaches_of_not_topAgree {low range : Nat} (hi : 1 ≤ range ∧ low + range ≤ 2 ^ 32) (hr : range < 2 ^ 16)
    (ha : ¬ TopAgree low range) : 2 ^ 16 ≤ low % 2 ^ 16 + range := by
  unfold TopAgree topByte at ha
  by_contra hlt
  have hsame : (low + range) / 2 ^ 16 = low / 2 ^ 16 := by omega
  rw [Nat.mod_eq_of_lt (by omega), show 2 ^ 24 = 2 ^ 16 * 2 ^ 8 from rfl, ← Nat.div_div_eq_div_mul,
    ← Nat.div_div_eq_div_mul, hsame] at ha
  exact ha rfl

theorem AfterPasses.inside {i low range : Nat} (h : AfterPasses i low range) : 1 ≤ range ∧ low + range ≤ 2 ^ 32 := by
  unfold AfterPasses at h
  omega

/-- The fudge's range is what is left above the new `low`, which is not 0. -/
theorem fudge_range {low range : Nat} (h : 2 ^ 16 ≤ low % 2 ^ 16 + range) (hr : range < 2 ^ 16) :
    (2 ^ 32 - shifted low 2) % 2 ^ 32 = (2 ^ 16 - low % 2 ^ 16) * 2 ^ 16 ∧
      shifted low 2 = low % 2 ^ 16 * 2 ^ 16 := by
  unfold shifted
  omega

/-- Every normalization ends in an interval with the coder's invariants (R504). -/
theorem normalizesTo_restores {low range n low' range' : Nat} (h : NormalizesTo low range n low' range')
    (hi : Interval low range) : 2 ^ 16 ≤ range' ∧ range' < 2 ^ 32 ∧ low' + range' ≤ 2 ^ 32 := by
  obtain ⟨k, -, hbefore, hstop, ⟨hr, rfl, rfl, rfl⟩ | ⟨hr, rfl, rfl, rfl⟩⟩ := h
  · exact ⟨hr, shifted_lt _ _, (AfterPasses.passes hi hbefore).inside.2⟩
  · have hreach := reaches_of_not_topAgree (AfterPasses.passes hi hbefore).inside hr hstop
    obtain ⟨hrange, hlow⟩ := fudge_range hreach hr
    rw [← shifted_shifted, hrange, hlow]
    omega

/-! ### The interval before and after -/

/-- The range after a normalization, as far as it was inside the interval before. -/
theorem normalizesTo_range_le {low range n low' range' : Nat} (h : NormalizesTo low range n low' range')
    (hi : Interval low range) : range' ≤ range * 256 ^ n := by
  obtain ⟨k, -, hbefore, hstop, ⟨hr, rfl, rfl, rfl⟩ | ⟨hr, rfl, rfl, rfl⟩⟩ := h
  · exact Nat.mod_le _ _
  · have hreach := reaches_of_not_topAgree (AfterPasses.passes hi hbefore).inside hr hstop
    obtain ⟨hrange, -⟩ := fudge_range hreach hr
    have hk : shifted range k ≤ range * 256 ^ k := Nat.mod_le _ _
    rw [← shifted_shifted, hrange, Nat.pow_add, ← Nat.mul_assoc]
    omega

/-- A code of `4 + n` bytes whose first `n` are the ones shifted out of `low`, and whose last four lie in the interval
after the normalization, began with four bytes in the interval before. -/
theorem normalizesTo_code_within {low range n low' range' out code : Nat}
    (h : NormalizesTo low range n low' range') (hi : Interval low range)
    (hout : low * 256 ^ n = out * 2 ^ 32 + low') (hcode : low' ≤ code ∧ code < low' + range') :
    low ≤ (out * 2 ^ 32 + code) / 256 ^ n ∧ (out * 2 ^ 32 + code) / 256 ^ n < low + range := by
  have hpos : 0 < 256 ^ n := Nat.pow_pos (by decide)
  have hrange := normalizesTo_range_le h hi
  constructor
  · rw [Nat.le_div_iff_mul_le hpos]
    omega
  · rw [Nat.div_lt_iff_lt_mul hpos, Nat.add_mul]
    omega

end Sys2Proof.Proofs
end

section
/-! PROOFS. The coder's procedures in plain arithmetic: what `RC_Shift` and `RC_Normalize` make of the registers and the
streams in either direction (41_range_coder.md R501, R502): O30, O31. -/

namespace Sys2Proof.Proofs

open Sys2Proof.Machine Sys2Proof.Safety Sys2Proof.Laws

/-! ### `LOW` and `RANGE` under a shift -/

theorem shiftLeft_byte_toNat (x : W32) : (x <<< 8).toNat = shifted x.toNat 1 := by
  rw [BitVec.toNat_shiftLeft, Nat.shiftLeft_eq, shifted, Nat.pow_one]

theorem rcShiftByte_low {c d : Coder} (h : rcShiftByte c = some d) : d.low = c.low <<< 8 ∧ d.range = c.range := by
  by_cases hm : c.mode = .enc
  · rw [rcShiftByte_enc hm] at h
    cases h
    exact ⟨rfl, rfl⟩
  · rw [rcShiftByte_dec hm, Option.map_eq_some_iff] at h
    obtain ⟨⟨b, e⟩, hg, rfl⟩ := h
    obtain ⟨_, _, -, hg'⟩ | ⟨-, -, hg'⟩ | ⟨-, -, hg'⟩ := getByte_cases c <;> rw [hg'] at hg <;> cases hg
    · exact ⟨rfl, rfl⟩
    · exact ⟨rfl, rfl⟩

theorem rcShift_low {n : Nat} {c d : Coder} (h : rcShift n c = some d) :
    d.low.toNat = shifted c.low.toNat n ∧ d.range = c.range := by
  induction n generalizing c with
  | zero => cases h; exact ⟨(shifted_zero (BitVec.isLt _)).symm, rfl⟩
  | succ n ih =>
    unfold rcShift at h
    split at h
    · cases h
    · next e he =>
      obtain ⟨hlow, hrange⟩ := rcShiftByte_low he
      obtain ⟨hlow', hrange'⟩ := ih h
      rw [hlow, shiftLeft_byte_toNat, shifted_shifted, Nat.add_comm] at hlow'
      exact ⟨hlow', hrange'.trans hrange⟩

/-! ### `RANGE` takes no part in a shift -/

theorem getByte_range (c : Coder) (r : W32) :
    getByte { c with range := r } = (getByte c).map fun g => (g.1, { g.2 with range := r }) := by
  unfold getByte
  dsimp only
  split
  · rfl
  · split <;> rfl

theorem rcShiftByte_range (c : Coder) (r : W32) :
    rcShiftByte { c with range := r } = (rcShiftByte c).map fun d => { d with range := r } := by
  by_cases hm : c.mode = .enc
  · rw [rcShiftByte_enc hm, rcShiftByte_enc (c := { c with range := r }) hm]
    rfl
  · rw [rcShiftByte_dec hm, rcShiftByte_dec (c := { c with range := r }) hm, getByte_range]
    cases getByte c <;> rfl

theorem rcShift_range (n : Nat) (c : Coder) (r : W32) :
    rcShift n { c with range := r } = (rcShift n c).map fun d => { d with range := r } := by
  induction n generalizing c with
  | zero => rfl
  | succ n ih =>
    rw [rcShift, rcShift, rcShiftByte_range]
    cases rcShiftByte c with
    | none => rfl
    | some d => exact ih d

/-! ### `RC_Normalize` is a shift of `RC_Shift`'s bytes and one write of `RANGE` -/

theorem topBytesAgree_iff (c : Coder) : topBytesAgree c = true ↔ TopAgree c.low.toNat c.range.toNat := by
  unfold topBytesAgree TopAgree topByte
  rw [decide_eq_true_iff, BitVec.ushiftRight_xor_distrib,
    show (0 : W32) = 0#32 from rfl, BitVec.xor_eq_zero_iff, ← BitVec.toNat_inj,
    BitVec.toNat_ushiftRight, BitVec.toNat_ushiftRight, BitVec.toNat_add, Nat.shiftRight_eq_div_pow,
    Nat.shiftRight_eq_div_pow]

/-- R502 step 1, where `k` is the first number of passes after which the top bytes differ. -/
theorem rcNormalizeLoop_eq {fuel k : Nat} {c : Coder} (hk : k ≤ fuel)
    (hbefore : ∀ i, i < k → TopAgree (shifted c.low.toNat i) (shifted c.range.toNat i))
    (hstop : ¬ TopAgree (shifted c.low.toNat k) (shifted c.range.toNat k)) :
    rcNormalizeLoop fuel c =
      (rcShift k c).map fun d => { d with range := BitVec.ofNat 32 (shifted c.range.toNat k) } := by
  induction k generalizing fuel c with
  | zero =>
    rw [shifted_zero c.low.isLt, shifted_zero c.range.isLt, ← topBytesAgree_iff] at hstop
    rw [shifted_zero c.range.isLt, BitVec.ofNat_toNat, BitVec.setWidth_eq, rcShift_zero]
    cases fuel with
    | zero => rfl
    | succ fuel => rw [rcNormalizeLoop, if_neg hstop]; rfl
  | succ k ih =>
    obtain ⟨fuel, rfl⟩ := Nat.exists_eq_add_of_le' (Nat.le_of_add_left_le hk)
    have hagree : topBytesAgree c = true := (topBytesAgree_iff c).mpr (by
      simpa only [shifted_zero c.low.isLt, shifted_zero c.range.isLt] using hbefore 0 (by omega))
    rw [rcNormalizeLoop, if_pos hagree, Nat.add_comm k 1, rcShift_add]
    cases hs : rcShift 1 c with
    | none => rfl
    | some d =>
      obtain ⟨hlow, hrange⟩ := rcShift_low hs
      have hrange' : (d.range <<< 8).toNat = shifted c.range.toNat 1 := by rw [shiftLeft_byte_toNat, hrange]
      have hrest := ih (fuel := fuel) (c := { d with range := d.range <<< 8 }) (by omega)
        (fun i hi => by
          dsimp only
          rw [hlow, hrange', shifted_shifted, shifted_shifted, Nat.add_comm]
          exact hbefore (i + 1) (by omega))
        (by
          dsimp only
          rw [hlow, hrange', shifted_shifted, shifted_shifted, Nat.add_comm]
          exact hstop)
      dsimp only
      rw [hrest, rcShift_range, hrange', shifted_shifted, Option.bind_some]
      cases rcShift k d <;> rfl

theorem rcFudge_eq (c : Coder) :
    rcFudge c = if c.range.toNat < 2 ^ 16 then (rcShift 2 c).map fun d => { d with range := -d.low } else some c := by
  have hiff : c.range >>> 16 = 0 ↔ c.range.toNat < 2 ^ 16 := by
    rw [← BitVec.toNat_inj, BitVec.toNat_ushiftRight, Nat.shiftRight_eq_div_pow]
    exact Nat.div_eq_zero_iff_lt (by decide)
  unfold rcFudge
  simp only [hiff]
  split
  · cases rcShift 2 c <;> rfl
  · rfl

/-- A normalization shifts the bytes `NormalizesTo` counts, and writes the range it names. -/
theorem rcNormalize_eq {c : Coder} {n low' range' : Nat}
    (h : NormalizesTo c.low.toNat c.range.toNat n low' range') :
    rcNormalize c = (rcShift n c).map fun d => { d with range := BitVec.ofNat 32 range' } := by
  obtain ⟨k, hk, hbefore, hstop, hend⟩ := h
  have hmod : (shifted c.range.toNat k) % 2 ^ 32 = shifted c.range.toNat k := Nat.mod_eq_of_lt (shifted_lt _ _)
  rw [rcNormalize, rcNormalizeLoop_eq hk hbefore hstop]
  obtain ⟨hr, rfl, rfl, rfl⟩ | ⟨hr, rfl, rfl, rfl⟩ := hend
  · cases rcShift n c with
    | none => rfl
    | some d =>
      simp only [Option.map_some, rcFudge_eq, BitVec.toNat_ofNat, hmod]
      rw [if_neg (by omega)]
  · rw [rcShift_add]
    cases hs : rcShift k c with
    | none => rfl
    | some d =>
      obtain ⟨hlow, -⟩ := rcShift_low hs
      simp only [Option.map_some, Option.bind_some, rcFudge_eq, BitVec.toNat_ofNat, hmod, if_pos hr, rcShift_range]
      cases hs2 : rcShift 2 d with
      | none => rfl
      | some e =>
        obtain ⟨hlow', -⟩ := rcShift_low hs2
        have hneg : -e.low = BitVec.ofNat 32 ((2 ^ 32 - shifted c.low.toNat (k + 2)) % 2 ^ 32) := by
          apply BitVec.eq_of_toNat_eq
          rw [BitVec.toNat_neg, hlow', hlow, shifted_shifted, BitVec.toNat_ofNat, Nat.mod_mod]
        simp only [Option.map_some, hneg]

/-! ### The encoder's shift -/

theorem topByte_extract (x : W32) : x.extractLsb' 24 8 = BitVec.ofNat 8 (topByte x.toNat) := by
  apply BitVec.eq_of_toNat_eq
  rw [BitVec.extractLsb'_toNat, BitVec.toNat_ofNat, Nat.shiftRight_eq_div_pow, topByte]

/-- The encoder after `n` shifted bytes: they are appended, oldest first, and counted (20_memory.md R201). -/
def emitBytes (n : Nat) (c : Coder) : Coder :=
  { c with
    low := BitVec.ofNat 32 (shifted c.low.toNat n)
    outstream := c.outstream ++ (List.range n).map fun i => BitVec.ofNat 8 (topByte (shifted c.low.toNat i))
    bytesOut := c.bytesOut + BitVec.ofNat 64 n }

theorem emitBytes_zero (c : Coder) : emitBytes 0 c = c := by
  simp [emitBytes, shifted_zero c.low.isLt]

theorem emitBytes_low_shift (n : Nat) (c : Coder) :
    (emitBytes n c).low <<< 8 = BitVec.ofNat 32 (shifted c.low.toNat (n + 1)) := by
  apply BitVec.eq_of_toNat_eq
  rw [shiftLeft_byte_toNat, emitBytes, BitVec.toNat_ofNat, BitVec.toNat_ofNat, Nat.mod_eq_of_lt (shifted_lt _ _),
    Nat.mod_eq_of_lt (shifted_lt _ _), shifted_shifted]

theorem rcShift_enc (n : Nat) {c : Coder} (hm : c.mode = .enc) : rcShift n c = some (emitBytes n c) := by
  induction n with
  | zero => rw [rcShift_zero, emitBytes_zero]
  | succ n ih =>
    rw [rcShift_add, ih, Option.bind_some, rcShift, rcShiftByte_enc (c := emitBytes n c) hm, emitBytes_low_shift]
    dsimp only [putByte]
    rw [rcShift_zero, topByte_extract]
    simp only [emitBytes, BitVec.toNat_ofNat, Nat.mod_eq_of_lt (shifted_lt _ _), List.range_succ, List.map_append,
      List.map_cons, List.map_nil, List.append_assoc, BitVec.ofNat_add, BitVec.add_assoc]
    rfl

/-! ### The decoder's shift -/

theorem bytesValue_append (xs ys : List Byte) :
    bytesValue (xs ++ ys) = bytesValue xs * 256 ^ ys.length + bytesValue ys := by
  have from_value : ∀ (bs : List Byte) (v : Nat),
      bs.foldl (fun v b => v * 256 + b.toNat) v = v * 256 ^ bs.length + bytesValue bs := fun bs => by
    induction bs with
    | nil => simp [bytesValue]
    | cons b bs ih =>
      intro v
      rw [bytesValue, List.foldl_cons, List.foldl_cons, ih, ih (0 * 256 + b.toNat), List.length_cons]
      ring
  rw [bytesValue, List.foldl_append, from_value]
  rfl

theorem bytesValue_cons (b : Byte) (bs : List Byte) :
    bytesValue (b :: bs) = b.toNat * 256 ^ bs.length + bytesValue bs := by
  rw [show b :: bs = [b] ++ bs from rfl, bytesValue_append]
  simp [bytesValue]

/-- The decoder after `n` shifted bytes: they are taken (20_memory.md R203) and enter `CODE` from below. -/
def feedBytes (n : Nat) (c : Coder) : Coder :=
  { takeBytes c n with
    low := BitVec.ofNat 32 (shifted c.low.toNat n)
    code := BitVec.ofNat 32 (c.code.toNat * 256 ^ n + bytesValue (nextBytes c n)) }

theorem nextBytes_eq (c : Coder) (n : Nat) :
    nextBytes c n = c.instream.take n ++ List.replicate (n - c.instream.length) 0 := by
  rw [nextBytes, List.take_append, List.take_replicate, Nat.min_eq_left (Nat.sub_le _ _)]

theorem nextBytes_length (c : Coder) (n : Nat) : (nextBytes c n).length = n := by
  simp [nextBytes]

theorem nextBytes_add (c : Coder) (m n : Nat) :
    nextBytes c (m + n) = nextBytes c m ++ nextBytes (takeBytes c m) n := by
  simp only [nextBytes_eq, takeBytes, List.length_drop, List.take_add]
  obtain hm | hm := Nat.le_total m c.instream.length
  · rw [Nat.sub_eq_zero_of_le hm, List.replicate_zero, List.append_nil, List.append_assoc,
      show m + n - c.instream.length = n - (c.instream.length - m) by omega]
  · rw [List.drop_of_length_le hm, List.take_nil, List.append_nil, List.nil_append, List.append_assoc,
      List.replicate_append_replicate, show m + n - c.instream.length =
        m - c.instream.length + (n - (c.instream.length - m)) by omega]

theorem takeBytes_add (c : Coder) (m n : Nat) : takeBytes c (m + n) = takeBytes (takeBytes c m) n := by
  have hcount : min (m + n) c.instream.length = min m c.instream.length + min n (c.instream.length - m) := by omega
  have hshort : c.instream.length < m + n ↔ c.instream.length < m ∨ c.instream.length - m < n := by omega
  simp only [takeBytes, List.drop_drop, List.length_drop, hcount, hshort, BitVec.ofNat_add, BitVec.add_assoc,
    Bool.decide_or, Bool.or_assoc]

theorem feedBytes_zero (c : Coder) : feedBytes 0 c = c := by
  simp [feedBytes, takeBytes, nextBytes, bytesValue, shifted_zero c.low.isLt]

/-- `CODE` after `m` bytes and then `n` more. -/
theorem code_feed_add (c : Coder) (m n : Nat) :
    BitVec.ofNat 32 (c.code.toNat * 256 ^ (m + n) + bytesValue (nextBytes c (m + n))) =
      BitVec.ofNat 32 ((feedBytes m c).code.toNat * 256 ^ n + bytesValue (nextBytes (takeBytes c m) n)) := by
  simp only [feedBytes, nextBytes_add, bytesValue_append, nextBytes_length, BitVec.ofNat_add, BitVec.ofNat_mul,
    BitVec.ofNat_toNat, BitVec.setWidth_eq, Nat.pow_add]
  ring

theorem low_feed_add (c : Coder) (m n : Nat) :
    BitVec.ofNat 32 (shifted c.low.toNat (m + n)) = BitVec.ofNat 32 (shifted (feedBytes m c).low.toNat n) := by
  rw [feedBytes, BitVec.toNat_ofNat, Nat.mod_eq_of_lt (shifted_lt _ _), shifted_shifted]

theorem feedBytes_add (c : Coder) (m n : Nat) : feedBytes (m + n) c = feedBytes n (feedBytes m c) := by
  rw [feedBytes, code_feed_add, low_feed_add, takeBytes_add]
  rfl

/-- A byte enters `CODE` from below (R501). -/
theorem code_shift (x : W32) (b : Byte) : (x <<< 8) ||| b.setWidth 32 = BitVec.ofNat 32 (x.toNat * 256 + b.toNat) := by
  have hb : b.toNat < 2 ^ 8 := b.isLt
  have hcode : x <<< 8 = BitVec.ofNat 32 (x.toNat <<< 8) := by
    apply BitVec.eq_of_toNat_eq
    rw [BitVec.toNat_shiftLeft, BitVec.toNat_ofNat]
  have hbyte : b.setWidth 32 = BitVec.ofNat 32 b.toNat := by
    apply BitVec.eq_of_toNat_eq
    rw [BitVec.toNat_setWidth, BitVec.toNat_ofNat]
  rw [hcode, hbyte, ← BitVec.ofNat_or, ← Nat.shiftLeft_add_eq_or_of_lt hb, Nat.shiftLeft_eq]


/-! ### When the decoder's shift holds -/

theorem rcShiftByte_feed {c : Coder} (hm : c.mode ≠ .enc) :
    (InputReady c 1 ∧ rcShiftByte c = some (feedBytes 1 c)) ∨ (¬ InputReady c 1 ∧ rcShiftByte c = none) := by
  have hlow : c.low <<< 8 = BitVec.ofNat 32 (shifted c.low.toNat 1) := by
    apply BitVec.eq_of_toNat_eq
    rw [shiftLeft_byte_toNat, BitVec.toNat_ofNat, Nat.mod_eq_of_lt (shifted_lt _ _)]
  rw [rcShiftByte_dec hm]
  obtain ⟨b, rest, hi, hg⟩ | ⟨hi, hmark, hg⟩ | ⟨hi, hmark, hg⟩ := getByte_cases c
  · refine .inl ⟨.inl (by simp [hi]), ?_⟩
    simp only [hg, Option.map_some, code_shift, hlow]
    simp [feedBytes, takeBytes, nextBytes, hi, bytesValue]
  · refine .inl ⟨.inr hmark, ?_⟩
    simp only [hg, Option.map_some, code_shift, hlow]
    simp [feedBytes, takeBytes, nextBytes, hi, bytesValue]
  · refine .inr ⟨not_InputReady.mpr ⟨by simp [hi], hmark⟩, ?_⟩
    rw [hg]
    rfl

theorem inputReady_succ {c : Coder} {n : Nat} :
    InputReady c (1 + n) ↔ InputReady c 1 ∧ InputReady (feedBytes 1 c) n := by
  simp only [InputReady, feedBytes, takeBytes, List.length_drop]
  cases c.inMark with
  | true => simp
  | false => simp only [Bool.false_eq_true, or_false]; omega

theorem rcShift_feed (n : Nat) {c : Coder} (hm : c.mode ≠ .enc) :
    (InputReady c n ∧ rcShift n c = some (feedBytes n c)) ∨ (¬ InputReady c n ∧ rcShift n c = none) := by
  induction n generalizing c with
  | zero => exact .inl ⟨InputReady_zero c, by rw [rcShift_zero, feedBytes_zero]⟩
  | succ n ih =>
    rw [Nat.add_comm, inputReady_succ, feedBytes_add, Nat.add_comm, rcShift]
    obtain ⟨hr, hs⟩ | ⟨hr, hs⟩ := rcShiftByte_feed hm
    · rw [hs]
      simpa only [hr, true_and] using ih (c := feedBytes 1 c) hm
    · exact .inr ⟨fun h => hr h.1, by rw [hs]⟩

/-! ### Normalization in either direction -/

/-- The encoder's normalization comes to its end. -/
theorem rcNormalize_encodes {c : Coder} (hi : Interval c.low.toNat c.range.toNat) (hm : c.mode = .enc) :
    ∃ c', rcNormalize c = some c' ∧ EncodesTo c c.low.toNat c.range.toNat c' := by
  obtain ⟨n, low', range', hn⟩ := hi.normalizes
  refine ⟨_, by rw [rcNormalize_eq hn, rcShift_enc n hm, Option.map_some], n, low', range', hn, ?_⟩
  rw [normalizesTo_low_eq hn, emitBytes]

/-- The decoder's normalization moves as many bytes, and holds exactly if they are missing. -/
theorem rcNormalize_decodes {c : Coder} (hi : Interval c.low.toNat c.range.toNat) (hm : c.mode ≠ .enc) :
    ∃ n, n ≤ 5 ∧ BytesMoved c.low.toNat c.range.toNat n ∧
      (InputReady c n → ∃ c', rcNormalize c = some c' ∧ DecodesTo c c.low.toNat c.range.toNat c') ∧
      (¬ InputReady c n → rcNormalize c = none) := by
  obtain ⟨n, low', range', hn⟩ := hi.normalizes
  have hbytes : BytesMoved c.low.toNat c.range.toNat n := ⟨low', range', hn⟩
  refine ⟨n, BytesMoved_le hbytes, hbytes, ?_⟩
  rw [rcNormalize_eq hn]
  obtain ⟨hr, hs⟩ | ⟨hr, hs⟩ := rcShift_feed n hm
  · refine ⟨fun _ => ⟨_, by rw [hs, Option.map_some], n, low', range', hn, ?_⟩, fun h => absurd hr h⟩
    rw [normalizesTo_low_eq hn, feedBytes]
  · exact ⟨fun h => absurd h hr, fun _ => by rw [hs]; rfl⟩

theorem encodesTo_outstream_length {c c' : Coder} {low range : Nat} (h : EncodesTo c low range c') :
    c'.outstream.length ≤ c.outstream.length + 5 := by
  obtain ⟨n, low', range', hn, rfl⟩ := h
  simpa using BytesMoved_le ⟨low', range', hn⟩

/-- Settles O30: a normalization shifts the bytes `NormalizesTo` counts, and a shift is explicit in either direction. -/
theorem normalizationFollowsTheProcedure : Obligations.NormalizationFollowsTheProcedure := by
  intro c hpos hwrap
  have hi : Interval c.low.toNat c.range.toNat := ⟨hpos, c.range.isLt, hwrap⟩
  refine ⟨fun hm => ?_, fun hm => rcNormalize_decodes hi (by simp [hm])⟩
  obtain ⟨c', hc, he⟩ := rcNormalize_encodes hi hm
  exact ⟨c', hc, he, encodesTo_outstream_length he⟩

/-- A normalization ends in the registers `NormalizesTo` names, whichever direction. -/
theorem rcNormalize_coderInv {c c' : Coder} (hi : Interval c.low.toNat c.range.toNat) (h : rcNormalize c = some c') :
    CoderInv c' := by
  obtain ⟨n, low', range', hn⟩ := hi.normalizes
  obtain ⟨hge, hlt, hwrap⟩ := normalizesTo_restores hn hi
  rw [rcNormalize_eq hn, Option.map_eq_some_iff] at h
  obtain ⟨d, hd, rfl⟩ := h
  obtain ⟨hlow, -⟩ := rcShift_low hd
  rw [← normalizesTo_low_eq hn] at hlow
  have hrange : (BitVec.ofNat 32 range').toNat = range' := by rw [BitVec.toNat_ofNat, Nat.mod_eq_of_lt hlt]
  exact ⟨hrange.symm ▸ hge, by rw [hrange, hlow]; exact hwrap⟩

/-- Settles O31. -/
theorem normalizationRestoresTheInvariants : Obligations.NormalizationRestoresTheInvariants :=
  fun c _ hpos hwrap h => rcNormalize_coderInv ⟨hpos, c.range.isLt, hwrap⟩ h

end Sys2Proof.Proofs
end

section
/-! PROOFS. What each coder command does once its checks are passed: one equation per command, through the procedure it
runs; the mode check that comes first of all (41_range_coder.md R500); the commands that only shift: O13, O32, O36. -/

namespace Sys2Proof.Proofs

open Sys2Proof.Machine Sys2Proof.Safety Sys2Proof.Laws

/-! ### The effect of a command whose checks are passed -/

/-- A block that is not halted and a command whose checks are passed: the effect, or the hold. -/
theorem command_runs {i : Instr} {s : State} {checks : List Check} {effect : State → Option State}
    (h : s.faults.flag = false) (hc : ∀ c ∈ checks, c.1 = false) :
    command i s checks effect = .next (settleEffect s (effect s)) := by
  simp [command, h, firstFault_eq_none.mpr hc]

theorem exec_rcEncInit {s : State} (hf : s.faults.flag = false) :
    exec .rcEncInit s = .next { s with coder := { freshCoder .enc s.coder with bytesOut := 0 } } := by
  unfold exec execRcEncInit
  exact command_runs hf (by simp)

theorem exec_rcDecInit {s : State} (hf : s.faults.flag = false) :
    exec .rcDecInit s =
      .next (settleEffect s (withCoder s (rcShift 4 { freshCoder .dec s.coder with bytesIn := 0 }))) := by
  unfold exec execRcDecInit
  exact command_runs hf (by simp)

theorem exec_rcEncBit {s : State} (b : Bool) (hf : s.faults.flag = false) (hm : s.coder.mode = .enc) :
    exec (.rcEncBit b) s =
      .next (settleEffect s (withCoder s (rcEncShift (BitVec.ofNat 32 b.toNat) 1 s.coder))) := by
  unfold exec execRcEncBit
  exact command_runs hf (by simp [hm])

theorem exec_rcEncRaw {s : State} {n : Nat} (hf : s.faults.flag = false) (hm : s.coder.mode = .enc) (hn : n ≤ 64)
    (hv : s.din0.toNat < 2 ^ n) :
    exec (.rcEncRaw n) s = .next (settleEffect s (withCoder s (rcEncRaw s.din0 n s.coder))) := by
  unfold exec execRcEncRaw
  exact command_runs hf (by simp [hm, needOperand, hn, fitsRaw, hv])

theorem exec_rcEncSym {s : State} (hf : s.faults.flag = false) (hm : s.coder.mode = .enc)
    (hv : s.model.valid = true) (hs : s.din0.toNat < s.model.s.toNat) :
    exec .rcEncSym s = .next (settleEffect s (withCoderModel s (rcEncSym s.din0.toNat s.coder s.model))) := by
  unfold exec execRcEncSym
  exact command_runs hf (by simp [hm, hv, needOperand, hs])

theorem exec_rcFinish {s : State} (hf : s.faults.flag = false) (hm : s.coder.mode = .enc) :
    exec .rcFinish s =
      .next { s with coder := { emitBytes 4 s.coder with mode := .done } } := by
  unfold exec execRcFinish
  exact command_completes hf (firstFault_eq_none.mpr (by simp [hm])) (by rw [rcShift_enc 4 hm])

theorem exec_rcDecBit {s : State} (hf : s.faults.flag = false) (hm : s.coder.mode = .dec) :
    exec .rcDecBit s = .next (settleEffect s
      ((rcDecShift 1 s.coder).map fun r => { s with coder := r.2, dout0 := zext r.1 })) := by
  unfold exec execRcDecBit
  dsimp only
  rw [command_runs hf (by simp [hm])]
  cases rcDecShift 1 s.coder <;> rfl

theorem exec_rcDecRaw {s : State} {n : Nat} (hf : s.faults.flag = false) (hm : s.coder.mode = .dec) (hn : n ≤ 64) :
    exec (.rcDecRaw n) s = .next (settleEffect s
      ((rcDecRaw n s.coder).map fun r => { s with coder := r.2, dout0 := r.1 })) := by
  unfold exec execRcDecRaw
  dsimp only
  rw [command_runs hf (by simp [hm, needOperand, hn])]
  cases rcDecRaw n s.coder <;> rfl

theorem exec_rcDecSym {s : State} (hf : s.faults.flag = false) (hm : s.coder.mode = .dec)
    (hv : s.model.valid = true) :
    exec .rcDecSym s = .next (settleEffect s ((rcDecSym s.coder s.model).map fun r =>
      { s with coder := r.2.1, model := r.2.2, dout0 := BitVec.ofNat 64 r.1 })) := by
  unfold exec execRcDecSym
  dsimp only
  rw [command_runs hf (by simp [hm, hv])]
  cases rcDecSym s.coder s.model <;> rfl

theorem exec_resDec {s : State} (hf : s.faults.flag = false) (hm : s.coder.mode = .dec) (hv : s.model.valid = true)
    (hs : s.model.s.toNat = 2 * s.cfg.w.bits + 1) (hp : s.din1.toNat < 2 ^ s.cfg.w.bits) :
    exec .resDec s = .next (settleEffect s ((resDecode s.params s.cfg.w s.din1 s.coder s.model).map fun r =>
      { s with coder := r.2.1, model := r.2.2, dout0 := r.1 })) := by
  unfold exec execResDec
  dsimp only
  rw [command_runs hf (by simp [hm, hv, hs, needOperand, fitsWidth, hp])]
  cases resDecode s.params s.cfg.w s.din1 s.coder s.model <;> rfl

/-! ### The same where the procedure comes to its end, or holds -/

theorem exec_rcEncBit_completes {s : State} {b : Bool} {c : Coder} (hf : s.faults.flag = false)
    (hm : s.coder.mode = .enc) (hc : rcEncShift (BitVec.ofNat 32 b.toNat) 1 s.coder = some c) :
    exec (.rcEncBit b) s = .next { s with coder := c } := by
  rw [exec_rcEncBit b hf hm, hc]
  rfl

theorem exec_rcEncRaw_completes {s : State} {n : Nat} {c : Coder} (hf : s.faults.flag = false)
    (hm : s.coder.mode = .enc) (hn : n ≤ 64) (hv : s.din0.toNat < 2 ^ n) (hc : rcEncRaw s.din0 n s.coder = some c) :
    exec (.rcEncRaw n) s = .next { s with coder := c } := by
  rw [exec_rcEncRaw hf hm hn hv, hc]
  rfl

theorem exec_rcEncSym_completes {s : State} {c : Coder} {m : Model} (hf : s.faults.flag = false)
    (hm : s.coder.mode = .enc) (hv : s.model.valid = true) (hs : s.din0.toNat < s.model.s.toNat)
    (hc : rcEncSym s.din0.toNat s.coder s.model = some (c, m)) :
    exec .rcEncSym s = .next { s with coder := c, model := m } := by
  rw [exec_rcEncSym hf hm hv hs, hc]
  rfl

theorem exec_rcDecBit_completes {s : State} {q : W32} {c : Coder} (hf : s.faults.flag = false)
    (hm : s.coder.mode = .dec) (hc : rcDecShift 1 s.coder = some (q, c)) :
    exec .rcDecBit s = .next { s with coder := c, dout0 := zext q } := by
  rw [exec_rcDecBit hf hm, hc]
  rfl

theorem exec_rcDecBit_holds {s : State} (hf : s.faults.flag = false) (hm : s.coder.mode = .dec)
    (hc : rcDecShift 1 s.coder = none) : exec .rcDecBit s = .next { s with holding := true } := by
  rw [exec_rcDecBit hf hm, hc]
  rfl

theorem exec_rcDecRaw_completes {s : State} {n : Nat} {v : W64} {c : Coder} (hf : s.faults.flag = false)
    (hm : s.coder.mode = .dec) (hn : n ≤ 64) (hc : rcDecRaw n s.coder = some (v, c)) :
    exec (.rcDecRaw n) s = .next { s with coder := c, dout0 := v } := by
  rw [exec_rcDecRaw hf hm hn, hc]
  rfl

theorem exec_rcDecRaw_holds {s : State} {n : Nat} (hf : s.faults.flag = false)
    (hm : s.coder.mode = .dec) (hn : n ≤ 64) (hc : rcDecRaw n s.coder = none) :
    exec (.rcDecRaw n) s = .next { s with holding := true } := by
  rw [exec_rcDecRaw hf hm hn, hc]
  rfl

theorem exec_rcDecSym_completes {s : State} {sym : Nat} {c : Coder} {m : Model} (hf : s.faults.flag = false)
    (hm : s.coder.mode = .dec) (hv : s.model.valid = true) (hc : rcDecSym s.coder s.model = some (sym, c, m)) :
    exec .rcDecSym s = .next { s with coder := c, model := m, dout0 := BitVec.ofNat 64 sym } := by
  rw [exec_rcDecSym hf hm hv, hc]
  rfl

theorem exec_rcDecSym_holds {s : State} (hf : s.faults.flag = false) (hm : s.coder.mode = .dec)
    (hv : s.model.valid = true) (hc : rcDecSym s.coder s.model = none) :
    exec .rcDecSym s = .next { s with holding := true } := by
  rw [exec_rcDecSym hf hm hv, hc]
  rfl

/-! ### The mode (R500) -/

theorem command_wrongMode {i : Instr} {s : State} {m : RcMode} {rest : List Check} {effect : State → Option State}
    (hf : s.faults.flag = false) (hm : s.coder.mode ≠ m) :
    command i s (needMode m s :: rest) effect = .next (faulted i 5 s) :=
  command_faults (c := .modeError) hf (by simp [needMode, hm])

/-- Settles O13: the mode is the first check of every command that needs one. -/
theorem wrongModeFaults : Obligations.WrongModeFaults := by
  intro i s hf
  refine ⟨fun hi hm => ?enc, fun hi hm => ?dec, fun hi => ?init⟩
  case enc =>
    unfold exec
    cases i with
    | rcEncBit | rcEncRaw | rcEncSym | rcFinish | resEnc | stepEnc => exact command_wrongMode hf hm
    | _ => cases hi
  case dec =>
    unfold exec
    cases i with
    | rcDecBit | rcDecRaw | rcDecSym | resDec | stepDec => exact command_wrongMode hf hm
    | _ => cases hi
  case init =>
    obtain rfl | rfl := hi
    · exact ⟨_, exec_rcEncInit hf, rfl⟩
    · refine ⟨_, exec_rcDecInit hf, ?_⟩
      cases rcShift 4 { freshCoder .dec s.coder with bytesIn := 0 } <;> rfl

/-! ### The commands that only shift -/

/-- RC_DEC_INIT's four bytes: `LOW` stays 0, and `CODE` is the bytes alone. -/
theorem feedBytes_fresh (c : Coder) :
    feedBytes 4 { freshCoder .dec c with bytesIn := 0 } = { c with
      low := 0, range := 0xFFFFFFFF, code := BitVec.ofNat 32 (bytesValue (nextBytes c 4)), corrupt := false,
      mode := .dec, eofErr := decide (c.instream.length < 4), bytesIn := BitVec.ofNat 64 (min 4 c.instream.length),
      instream := c.instream.drop 4 } := by
  have hlow : BitVec.ofNat 32 (shifted (0 : W32).toNat 4) = 0 := by
    rw [show (0 : W32).toNat = 0 from rfl, shifted, Nat.zero_mul]; rfl
  have hcode : BitVec.ofNat 32 ((0 : W32).toNat * 256 ^ 4 + bytesValue (nextBytes c 4)) =
      BitVec.ofNat 32 (bytesValue (nextBytes c 4)) := by
    rw [show (0 : W32).toNat = 0 from rfl, Nat.zero_mul, Nat.zero_add]
  have hcount : (0 : W64) + BitVec.ofNat 64 (min 4 c.instream.length) =
      BitVec.ofNat 64 (min 4 c.instream.length) := BitVec.zero_add _
  have hnext : nextBytes { freshCoder .dec c with bytesIn := 0 } 4 = nextBytes c 4 := rfl
  rw [feedBytes, takeBytes, hnext]
  dsimp only [freshCoder]
  rw [hlow, hcode, hcount, Bool.false_or]
  rfl

/-- Settles O32: RC_DEC_INIT's four shifts start from `LOW = CODE = 0`, where a shift leaves `LOW` alone. -/
theorem initCommandsStartTheCoder : Obligations.InitCommandsStartTheCoder := by
  intro s hf
  refine ⟨exec_rcEncInit hf, ?_⟩
  rw [exec_rcDecInit hf]
  obtain ⟨hr, hs⟩ | ⟨hr, hs⟩ := rcShift_feed 4 (c := { freshCoder .dec s.coder with bytesIn := 0 }) nofun
  · refine ⟨fun _ => ?_, fun h => absurd hr h⟩
    rw [hs, feedBytes_fresh]
    rfl
  · exact ⟨fun h => absurd h hr, fun _ => by rw [hs]; rfl⟩

/-- The top byte after `i` shifts is byte `3 - i` of the value. -/
theorem topByte_shifted {x i j : Nat} (hij : i + j = 3) :
    BitVec.ofNat 8 (topByte (shifted x i)) = BitVec.ofNat 8 (x / 2 ^ (8 * j)) := by
  apply BitVec.eq_of_toNat_eq
  obtain rfl : j = 3 - i := by omega
  have hi : i ≤ 3 := by omega
  rw [BitVec.toNat_ofNat, BitVec.toNat_ofNat, topByte, shifted]
  interval_cases i <;> omega

/-- The four bytes of a flush. -/
def lowBytes (x : Nat) : List Byte :=
  [BitVec.ofNat 8 (x / 2 ^ 24), BitVec.ofNat 8 (x / 2 ^ 16), BitVec.ofNat 8 (x / 2 ^ 8), BitVec.ofNat 8 x]

/-- Four shifts take the bytes of `LOW` from the top and leave 0. -/
theorem emitBytes_four (c : Coder) :
    emitBytes 4 c = { c with
      low := 0, outstream := c.outstream ++ lowBytes c.low.toNat, bytesOut := c.bytesOut + 4 } := by
  have hlow : BitVec.ofNat 32 (shifted c.low.toNat 4) = 0 := by
    apply BitVec.eq_of_toNat_eq
    rw [BitVec.toNat_ofNat, shifted]
    exact (by omega : c.low.toNat * 256 ^ 4 % 2 ^ 32 % 2 ^ 32 = 0)
  have hbytes : (List.range 4).map (fun i => BitVec.ofNat 8 (topByte (shifted c.low.toNat i))) =
      lowBytes c.low.toNat := by
    simp only [List.range_succ, List.range_zero, List.nil_append, List.map_cons, List.map_nil,
      List.cons_append, topByte_shifted (i := 0) (j := 3) rfl, topByte_shifted (i := 1) (j := 2) rfl,
      topByte_shifted (i := 2) (j := 1) rfl, topByte_shifted (i := 3) (j := 0) rfl, lowBytes, Nat.mul_zero,
      Nat.pow_zero, Nat.div_one, Nat.reduceMul]
  rw [emitBytes, hlow, hbytes]
  rfl

/-- Settles O36. -/
theorem rcFinishFlushesLow : Obligations.RcFinishFlushesLow := by
  intro s hf hm
  rw [exec_rcFinish hf hm, emitBytes_four]
  rfl

end Sys2Proof.Proofs
end

section
/-! PROOFS. The narrowings by a part of `2^n` (41_range_coder.md R505 to R507, R532, R533), on which every coded bit,
raw chunk and symbol rests, and the commands for bits and raw fields: O33, O34, O37, O38, O40. -/

namespace Sys2Proof.Proofs

open Sys2Proof.Machine Sys2Proof.Safety Sys2Proof.Laws

/-! ### The narrowed interval -/

/-- The coder narrowed to the parts `v` to `v + f` of the `2^n` parts of its interval (R505, R508). -/
def narrowed (n : Nat) (v f : W32) (c : Coder) : Coder :=
  { c with range := (c.range >>> n) * f, low := c.low + (c.range >>> n) * v }

theorem part_pos {c : Coder} (h : CoderInv c) {n : Nat} (hn : n ≤ 16) : 1 ≤ c.range.toNat / 2 ^ n :=
  Nat.div_pos (Nat.le_trans (Nat.pow_le_pow_right (by decide) hn) h.range_ge) (Nat.two_pow_pos n)

theorem part_interval {c : Coder} (h : CoderInv c) {n v f : Nat} (hn : n ≤ 16) (hf : 1 ≤ f) (hv : v + f ≤ 2 ^ n) :
    Interval (c.low.toNat + c.range.toNat / 2 ^ n * v) (c.range.toNat / 2 ^ n * f) := by
  have hpos : 1 ≤ c.range.toNat / 2 ^ n * f := Nat.mul_pos (part_pos h hn) hf
  have hparts : c.range.toNat / 2 ^ n * v + c.range.toNat / 2 ^ n * f ≤ c.range.toNat := by
    rw [← Nat.mul_add]
    exact (Nat.mul_le_mul_left _ hv).trans (Nat.div_mul_le_self _ _)
  have hlt := c.range.isLt
  have hwrap := h.no_wrap
  exact ⟨hpos, by omega, by omega⟩

theorem part_toNat (x : W32) (n : Nat) : (x >>> n).toNat = x.toNat / 2 ^ n := by
  rw [BitVec.toNat_ushiftRight, Nat.shiftRight_eq_div_pow]

theorem narrowed_toNat {c : Coder} (h : CoderInv c) {n : Nat} {v f : W32} (hn : n ≤ 16) (hf : 1 ≤ f.toNat)
    (hv : v.toNat + f.toNat ≤ 2 ^ n) :
    (narrowed n v f c).low.toNat = c.low.toNat + c.range.toNat / 2 ^ n * v.toNat ∧
      (narrowed n v f c).range.toNat = c.range.toNat / 2 ^ n * f.toNat := by
  obtain ⟨hpos, hlt, hwrap⟩ := part_interval h hn hf hv
  rw [narrowed, BitVec.toNat_add, BitVec.toNat_mul, BitVec.toNat_mul, part_toNat, Nat.add_mod_mod]
  exact ⟨Nat.mod_eq_of_lt (by omega), Nat.mod_eq_of_lt hlt⟩

theorem narrowed_interval {c : Coder} (h : CoderInv c) {n : Nat} {v f : W32} (hn : n ≤ 16) (hf : 1 ≤ f.toNat)
    (hv : v.toNat + f.toNat ≤ 2 ^ n) : Interval (narrowed n v f c).low.toNat (narrowed n v f c).range.toNat := by
  obtain ⟨hlow, hrange⟩ := narrowed_toNat h hn hf hv
  rw [hlow, hrange]
  exact part_interval h hn hf hv

/-- A narrowing and its normalization keep the coder's invariants (R504). -/
theorem narrowed_coderInv {c c' : Coder} (h : CoderInv c) {n : Nat} {v f : W32} (hn : n ≤ 16) (hf : 1 ≤ f.toNat)
    (hv : v.toNat + f.toNat ≤ 2 ^ n) (hc : rcNormalize (narrowed n v f c) = some c') : CoderInv c' :=
  rcNormalize_coderInv (narrowed_interval h hn hf hv) hc

theorem narrowed_encodes {c : Coder} (h : CoderInv c) (hm : c.mode = .enc) {n : Nat} {v f : W32} (hn : n ≤ 16)
    (hf : 1 ≤ f.toNat) (hv : v.toNat + f.toNat ≤ 2 ^ n) :
    ∃ c', rcNormalize (narrowed n v f c) = some c' ∧
      EncodesTo c (c.low.toNat + c.range.toNat / 2 ^ n * v.toNat) (c.range.toNat / 2 ^ n * f.toNat) c' := by
  obtain ⟨c', hc, he⟩ := rcNormalize_encodes (narrowed_interval h hn hf hv) hm
  obtain ⟨hlow, hrange⟩ := narrowed_toNat h hn hf hv
  rw [hlow, hrange] at he
  exact ⟨c', hc, he⟩

theorem narrowed_decodes {c : Coder} (h : CoderInv c) (hm : c.mode = .dec) {n : Nat} {v f : W32} (hn : n ≤ 16)
    (hf : 1 ≤ f.toNat) (hv : v.toNat + f.toNat ≤ 2 ^ n) :
    ∃ k, k ≤ 5 ∧
      BytesMoved (c.low.toNat + c.range.toNat / 2 ^ n * v.toNat) (c.range.toNat / 2 ^ n * f.toNat) k ∧
      (InputReady c k → ∃ c', rcNormalize (narrowed n v f c) = some c' ∧
        DecodesTo c (c.low.toNat + c.range.toNat / 2 ^ n * v.toNat) (c.range.toNat / 2 ^ n * f.toNat) c') ∧
      (¬ InputReady c k → rcNormalize (narrowed n v f c) = none) := by
  obtain ⟨k, hk, hbytes, hready, hhold⟩ := rcNormalize_decodes (narrowed_interval h hn hf hv)
    (show c.mode ≠ .enc by simp [hm])
  obtain ⟨hlow, hrange⟩ := narrowed_toNat h hn hf hv
  rw [hlow, hrange] at hbytes hready
  exact ⟨k, hk, hbytes, hready, hhold⟩

/-! ### The quotient (R506, R532) -/

/-- The clamped quotient of the code by a `2^n`-th of the range, and whether it had to be clamped. -/
def partQuotient (n : Nat) (c : Coder) : W32 × Bool := clampQuotient (quot (c.code - c.low) (c.range >>> n)) (2 ^ n)

theorem quot_toNat {a b : W32} (hb : 1 ≤ b.toNat) : (quot a b).toNat = a.toNat / b.toNat := by
  have hne : b ≠ 0 := by
    rintro rfl
    exact absurd hb (by decide)
  rw [quot, if_neg hne, BitVec.toNat_udiv]

theorem partQuotient_eq {c : Coder} (h : CoderInv c) {n : Nat} (hn : n ≤ 16) :
    (partQuotient n c).1.toNat = min (quotientNat c (c.range.toNat / 2 ^ n)) (2 ^ n - 1) ∧
      (partQuotient n c).2 = decide (2 ^ n ≤ quotientNat c (c.range.toNat / 2 ^ n)) := by
  have hpos : 1 ≤ 2 ^ n := Nat.one_le_two_pow
  have hle : 2 ^ n ≤ 2 ^ 16 := Nat.pow_le_pow_right (by decide) hn
  have hq : (quot (c.code - c.low) (c.range >>> n)).toNat = quotientNat c (c.range.toNat / 2 ^ n) := by
    have hlow := c.low.isLt
    rw [quot_toNat (by rw [part_toNat]; exact part_pos h hn), part_toNat, BitVec.toNat_sub, quotientNat,
      show 2 ^ 32 - c.low.toNat + c.code.toNat = c.code.toNat + 2 ^ 32 - c.low.toNat by omega]
  unfold partQuotient clampQuotient
  rw [hq]
  split
  · next hge =>
    rw [BitVec.toNat_ofNat, Nat.mod_eq_of_lt (by omega)]
    exact ⟨by omega, by simp [hge]⟩
  · next hlt =>
    rw [hq]
    exact ⟨by omega, by simp [hlt]⟩

theorem partQuotient_lt (c : Coder) {n : Nat} (hn : n ≤ 32) : (partQuotient n c).1.toNat < 2 ^ n :=
  clampQuotient_lt _ (Nat.two_pow_pos n) (Nat.pow_le_pow_right (by decide) hn)

/-! ### `RC_EncShift` and `RC_DecShift` are narrowings by one part -/

theorem rcEncShift_eq (v : W32) (n : Nat) (c : Coder) : rcEncShift v n c = rcNormalize (narrowed n v 1 c) := by
  rw [rcEncShift, narrowed, show (1 : W32) = 1#32 from rfl, BitVec.mul_one]

theorem rcDecShift_eq {n : Nat} {c : Coder} (he : c.eofErr = false) :
    rcDecShift n c =
      (rcNormalize (narrowed n (partQuotient n c).1 1 { c with corrupt := c.corrupt || (partQuotient n c).2 })).map
        fun d => ((partQuotient n c).1, d) := by
  rw [rcDecShift, if_neg (by simp [he]), narrowed, show (1 : W32) = 1#32 from rfl, BitVec.mul_one]
  dsimp only [partQuotient]
  cases rcNormalize _ <;> rfl

theorem one_toNat : (1 : W32).toNat = 1 := rfl

theorem rcEncShift_encodes {c : Coder} (h : CoderInv c) (hm : c.mode = .enc) {n : Nat} {v : W32} (hn : n ≤ 16)
    (hv : v.toNat < 2 ^ n) :
    ∃ c', rcEncShift v n c = some c' ∧
      EncodesTo c (c.low.toNat + c.range.toNat / 2 ^ n * v.toNat) (c.range.toNat / 2 ^ n) c' := by
  obtain ⟨c', hc, he⟩ := narrowed_encodes h hm (v := v) (f := 1) hn (Nat.le_refl 1) hv
  rw [one_toNat, Nat.mul_one] at he
  exact ⟨c', by rw [rcEncShift_eq, hc], he⟩

/-- What `RC_DecShift` gives, and when it holds (R506, R532). -/
theorem rcDecShift_decodes {c : Coder} (h : CoderInv c) (hm : c.mode = .dec) (he : c.eofErr = false) {n : Nat}
    (hn : n ≤ 16) :
    ∃ (q : W32) (k : Nat), q.toNat = min (quotientNat c (c.range.toNat / 2 ^ n)) (2 ^ n - 1) ∧ k ≤ 5 ∧
      BytesMoved (c.low.toNat + c.range.toNat / 2 ^ n * q.toNat) (c.range.toNat / 2 ^ n) k ∧
      (InputReady c k → ∃ c', rcDecShift n c = some (q, c') ∧
        DecodesTo { c with corrupt := c.corrupt || decide (2 ^ n ≤ quotientNat c (c.range.toNat / 2 ^ n)) }
          (c.low.toNat + c.range.toNat / 2 ^ n * q.toNat) (c.range.toNat / 2 ^ n) c') ∧
      (¬ InputReady c k → rcDecShift n c = none) := by
  obtain ⟨hq, hbad⟩ := partQuotient_eq h hn
  have hinv : CoderInv { c with corrupt := c.corrupt || (partQuotient n c).2 } := ⟨h.range_ge, h.no_wrap⟩
  obtain ⟨k, hk, hbytes, hready, hhold⟩ := narrowed_decodes hinv hm (v := (partQuotient n c).1) (f := 1) hn
    (Nat.le_refl 1) (partQuotient_lt c (by omega))
  rw [one_toNat, Nat.mul_one] at hbytes hready
  refine ⟨(partQuotient n c).1, k, hq, hk, hbytes, fun hr => ?_, fun hr => ?_⟩
  · obtain ⟨c', hc, hd⟩ := hready hr
    exact ⟨c', by rw [rcDecShift_eq he, hc]; rfl, hbad ▸ hd⟩
  · rw [rcDecShift_eq he, hhold hr]
    rfl

/-! ### The chunks of a raw field (R507) -/

/-- Induction over the width of a raw field: one chunk, or a chunk of 16 bits and the rest. -/
theorem chunk_induction {P : Nat → Prop} (last : ∀ n, n ≤ 16 → P n) (chunk : ∀ n, 16 < n → P (n - 16) → P n)
    (n : Nat) : P n := by
  induction n using Nat.strongRecOn with
  | ind n ih =>
    obtain hn | hn := Nat.lt_or_ge 16 n
    · exact chunk n hn (ih (n - 16) (by omega))
    · exact last n hn

theorem chunk_toNat {v : W64} {n : Nat} (hn : n ≤ 16) (hv : v.toNat < 2 ^ n) : (v.setWidth 32).toNat = v.toNat := by
  have hle : 2 ^ n ≤ 2 ^ 16 := Nat.pow_le_pow_right (by decide) hn
  rw [BitVec.toNat_setWidth, Nat.mod_eq_of_lt (by omega)]

theorem lowChunk_eq (v : W64) : v &&& 0xFFFF = BitVec.ofNat 64 (v.toNat % 2 ^ 16) := by
  apply BitVec.eq_of_toNat_eq
  rw [BitVec.toNat_and, BitVec.toNat_ofNat, show (0xFFFF : W64).toNat = 2 ^ 16 - 1 from rfl,
    Nat.and_two_pow_sub_one_eq_mod, Nat.mod_eq_of_lt (b := 2 ^ 64) (by omega)]

theorem lowChunk_lt (v : W64) : (v &&& 0xFFFF).toNat < 2 ^ 16 := by
  rw [lowChunk_eq, BitVec.toNat_ofNat, Nat.mod_eq_of_lt (by omega)]
  omega

theorem highChunk_toNat (v : W64) : (v >>> 16).toNat = v.toNat / 2 ^ 16 := by
  rw [BitVec.toNat_ushiftRight, Nat.shiftRight_eq_div_pow]

theorem highChunk_eq (v : W64) : v >>> 16 = BitVec.ofNat 64 (v.toNat / 2 ^ 16) := by
  rw [← highChunk_toNat, BitVec.ofNat_toNat, BitVec.setWidth_eq]

theorem highChunk_lt {v : W64} {n : Nat} (hn : 16 < n) (hv : v.toNat < 2 ^ n) :
    (v >>> 16).toNat < 2 ^ (n - 16) := by
  rw [highChunk_toNat]
  apply Nat.div_lt_of_lt_mul
  rwa [← Nat.pow_add, Nat.add_sub_cancel' (by omega)]

/-! ### Raw fields in chunks -/

theorem rcEncRaw_of_le {v : W64} {n : Nat} (hn : n ≤ 16) (c : Coder) :
    rcEncRaw v n c = rcEncShift (v.setWidth 32) n c := by
  rw [rcEncRaw]
  cases n / 16 with
  | zero => rfl
  | succ f => rw [rcEncRawLoop, if_neg (by omega)]

theorem rcEncRaw_of_lt {v : W64} {n : Nat} (hn : 16 < n) (c : Coder) :
    rcEncRaw v n c =
      (rcEncShift ((v &&& 0xFFFF).setWidth 32) 16 c).bind (rcEncRaw (v >>> 16) (n - 16)) := by
  have hchunks : n / 16 = (n - 16) / 16 + 1 := by omega
  rw [rcEncRaw, hchunks, rcEncRawLoop, if_pos hn]
  cases rcEncShift ((v &&& 0xFFFF).setWidth 32) 16 c <;> rfl

theorem rcDecRaw_of_le {n : Nat} (hn : n ≤ 16) (c : Coder) :
    rcDecRaw n c = (rcDecShift n c).map fun r => (zext r.1, r.2) := by
  rw [rcDecRaw]
  cases n / 16 with
  | zero => rw [rcDecRawLoop]; cases rcDecShift n c <;> rfl
  | succ f => rw [rcDecRawLoop, if_neg (by omega)]; cases rcDecShift n c <;> rfl

/-- A chunk below the rest of a raw field: the first chunk is the least significant. -/
def joinChunk (low high : W64) : W64 := low ||| (high <<< 16)

theorem rcDecRaw_of_lt {n : Nat} (hn : 16 < n) (c : Coder) :
    rcDecRaw n c =
      (rcDecRaw 16 c).bind fun r => (rcDecRaw (n - 16) r.2).map fun r' => (joinChunk r.1 r'.1, r'.2) := by
  have hchunks : n / 16 = (n - 16) / 16 + 1 := by omega
  rw [rcDecRaw_of_le (Nat.le_refl 16), rcDecRaw, hchunks, rcDecRawLoop, if_pos hn]
  cases rcDecShift 16 c with
  | none => rfl
  | some r =>
    dsimp only [rcDecRaw, Option.map_some, Option.bind_some]
    cases rcDecRawLoop ((n - 16) / 16) (n - 16) r.2 <;> rfl

/-- A raw decode's first chunk has 16 bits, whatever the stream. -/
theorem rcDecShift_lt {n : Nat} (hn : n ≤ 32) {c : Coder} {r : W32 × Coder} (h : rcDecShift n c = some r) :
    r.1.toNat < 2 ^ n := by
  cases he : c.eofErr with
  | true =>
    rw [rcDecShift, if_pos he] at h
    cases h
    exact Nat.two_pow_pos n
  | false =>
    rw [rcDecShift_eq he, Option.map_eq_some_iff] at h
    obtain ⟨d, -, rfl⟩ := h
    exact partQuotient_lt c hn

theorem zext_toNat_32 (x : W32) : (zext x).toNat = x.toNat := BitVec.toNat_setWidth_of_le (by decide)

theorem zext_eq_ofNat (x : W32) : zext x = BitVec.ofNat 64 x.toNat := by
  apply BitVec.eq_of_toNat_eq
  rw [zext_toNat_32, BitVec.toNat_ofNat, Nat.mod_eq_of_lt (by omega)]

theorem joinChunk_eq {low high : W64} (h : low.toNat < 2 ^ 16) :
    joinChunk low high = BitVec.ofNat 64 (low.toNat + high.toNat * 2 ^ 16) := by
  have hhigh : high <<< 16 = BitVec.ofNat 64 (high.toNat <<< 16) := by
    apply BitVec.eq_of_toNat_eq
    rw [BitVec.toNat_shiftLeft, BitVec.toNat_ofNat]
  have hlow : low = BitVec.ofNat 64 low.toNat := by rw [BitVec.ofNat_toNat, BitVec.setWidth_eq]
  rw [joinChunk, hhigh]
  conv_lhs => rw [hlow]
  rw [← BitVec.ofNat_or, Nat.lor_comm, ← Nat.shiftLeft_add_eq_or_of_lt h, Nat.shiftLeft_eq, Nat.add_comm]

/-! ### The encode commands -/

/-- Settles O33: a bit is one of two parts. -/
theorem rcEncBitSelectsAHalf : Obligations.RcEncBitSelectsAHalf := by
  intro s b hf hm hinv
  have hv : (BitVec.ofNat 32 b.toNat).toNat = b.toNat := by cases b <;> rfl
  obtain ⟨c, hc, he⟩ := rcEncShift_encodes hinv hm (n := 1) (v := BitVec.ofNat 32 b.toNat) (by decide)
    (by rw [hv]; exact b.toNat_lt)
  rw [hv] at he
  exact ⟨c, exec_rcEncBit_completes hf hm hc, he⟩

/-- A raw field of at most 16 bits is one of `2^n` parts. -/
theorem rcEncRaw_encodes {c : Coder} (h : CoderInv c) (hm : c.mode = .enc) {n : Nat} {v : W64} (hn : n ≤ 16)
    (hv : v.toNat < 2 ^ n) :
    ∃ c', rcEncRaw v n c = some c' ∧
      EncodesTo c (c.low.toNat + c.range.toNat / 2 ^ n * v.toNat) (c.range.toNat / 2 ^ n) c' := by
  have hv32 := chunk_toNat hn hv
  obtain ⟨c', hc, he⟩ := rcEncShift_encodes h hm hn (v := v.setWidth 32) (by rwa [hv32])
  rw [hv32] at he
  exact ⟨c', by rw [rcEncRaw_of_le hn, hc], he⟩

/-- An encode procedure comes to its end in its mode, and stays in it. -/
theorem rcEncRaw_completes {c : Coder} (hm : c.mode = .enc) (v : W64) (n : Nat) :
    ∃ c', rcEncRaw v n c = some c' ∧ c'.mode = .enc := by
  obtain ⟨c', hc⟩ := (rcEncRawLoop_runs (n / 16) v n c).completes (.inl hm)
  exact ⟨c', hc, (rcEncRawLoop_flagsKept hc).mode.trans hm⟩

/-- Settles O34: one chunk, or the low chunk and the rest. -/
theorem rcEncRawCodesSixteenBitChunks : Obligations.RcEncRawCodesSixteenBitChunks := by
  intro s n hf hm hinv hn hv
  refine ⟨fun hle => ?_, fun hlt => ?_⟩
  · obtain ⟨c, hc, he⟩ := rcEncRaw_encodes hinv hm hle hv
    exact ⟨c, exec_rcEncRaw_completes hf hm hn hv hc, he⟩
  · rw [← lowChunk_eq, ← highChunk_eq]
    obtain ⟨c, hc, hmc⟩ := rcEncRaw_completes hm (s.din0 &&& 0xFFFF) 16
    obtain ⟨d, hd, -⟩ := rcEncRaw_completes hmc (s.din0 >>> 16) (n - 16)
    refine ⟨{ s with din0 := s.din0 &&& 0xFFFF, coder := c }, { s with din0 := s.din0 >>> 16, coder := d },
      exec_rcEncRaw_completes (s := { s with din0 := _ }) hf hm (by decide) (lowChunk_lt s.din0) hc,
      exec_rcEncRaw_completes (s := { s with din0 := _, coder := c }) hf hmc (by omega) (highChunk_lt hlt hv) hd, ?_⟩
    rw [rcEncRaw_of_le (Nat.le_refl 16)] at hc
    exact exec_rcEncRaw_completes hf hm hn hv (by rw [rcEncRaw_of_lt hlt, hc, Option.bind_some, hd])

/-! ### The decode commands -/

/-- Settles O37: a bit is a quotient by one of two parts. -/
theorem rcDecBitGivesTheClampedQuotient : Obligations.RcDecBitGivesTheClampedQuotient := by
  intro s hf hm he hinv
  obtain ⟨q, k, hq, hk, hbytes, hready, hhold⟩ := rcDecShift_decodes hinv hm he (n := 1) (by decide)
  refine ⟨q.toNat, k, hq, hk, hbytes, fun hr => ?_, fun hr => ?_⟩
  · obtain ⟨c, hc, hd⟩ := hready hr
    exact ⟨c, zext_eq_ofNat q ▸ exec_rcDecBit_completes hf hm hc, hd⟩
  · exact exec_rcDecBit_holds hf hm (hhold hr)

/-- A raw field of at most 16 bits: the quotient by one of `2^n` parts. -/
theorem exec_rcDecRaw_chunk {s : State} {n : Nat} (hf : s.faults.flag = false) (hm : s.coder.mode = .dec)
    (he : s.coder.eofErr = false) (hinv : CoderInv s.coder) (hn : n ≤ 16) :
    ∃ q k, q = min (quotientNat s.coder (s.coder.range.toNat / 2 ^ n)) (2 ^ n - 1) ∧ k ≤ 5 ∧
      BytesMoved (s.coder.low.toNat + s.coder.range.toNat / 2 ^ n * q) (s.coder.range.toNat / 2 ^ n) k ∧
      (InputReady s.coder k → ∃ c, exec (.rcDecRaw n) s = .next { s with coder := c, dout0 := BitVec.ofNat 64 q } ∧
        DecodesTo { s.coder with
            corrupt := s.coder.corrupt || decide (2 ^ n ≤ quotientNat s.coder (s.coder.range.toNat / 2 ^ n)) }
          (s.coder.low.toNat + s.coder.range.toNat / 2 ^ n * q) (s.coder.range.toNat / 2 ^ n) c) ∧
      (¬ InputReady s.coder k → exec (.rcDecRaw n) s = .next { s with holding := true }) := by
  obtain ⟨q, k, hq, hk, hbytes, hready, hhold⟩ := rcDecShift_decodes hinv hm he hn
  refine ⟨q.toNat, k, hq, hk, hbytes, fun hr => ?_, fun hr => ?_⟩
  · obtain ⟨c, hc, hd⟩ := hready hr
    exact ⟨c, exec_rcDecRaw_completes hf hm (by omega) (by rw [rcDecRaw_of_le hn, hc, ← zext_eq_ofNat]; rfl), hd⟩
  · exact exec_rcDecRaw_holds hf hm (by omega) (by rw [rcDecRaw_of_le hn, hhold hr]; rfl)

/-- A raw field of more than 16 bits: the first chunk's command, then the rest's, from the state it leaves. -/
theorem exec_rcDecRaw_chunks {s : State} {n : Nat} (hf : s.faults.flag = false) (hm : s.coder.mode = .dec)
    (hn : n ≤ 64) (hlt : 16 < n) :
    ∃ t, exec (.rcDecRaw 16) { s with holding := false } = .next t ∧
      (InputReady s.coder 20 → t.holding = false) ∧
      (t.holding = true → exec (.rcDecRaw n) s = .next { s with holding := true }) ∧
      (t.holding = false → ∃ u, exec (.rcDecRaw (n - 16)) t = .next u ∧
        (InputReady s.coder 20 → u.holding = false) ∧
        (u.holding = true → exec (.rcDecRaw n) s = .next { s with holding := true }) ∧
        (u.holding = false → exec (.rcDecRaw n) s = .next { u with
          holding := s.holding, dout0 := BitVec.ofNat 64 (t.dout0.toNat + u.dout0.toNat * 2 ^ 16) })) := by
  have hwhole := rcDecRaw_of_lt hlt s.coder
  have hfinite : InputReady s.coder 20 → rcDecRaw n s.coder ≠ none := fun hr hnone => by
    obtain ⟨r, hr'⟩ := (rcDecRawLoop_runs (k := 3) (n / 16) hn s.coder).completes_of_map (.inr hr)
    cases hnone.symm.trans hr'
  cases hlow : rcDecRaw 16 s.coder with
  | none =>
    rw [hlow, Option.bind_none] at hwhole
    exact ⟨_, exec_rcDecRaw_holds (s := { s with holding := false }) hf hm (by decide) hlow,
      fun hr => absurd hwhole (hfinite hr), fun _ => exec_rcDecRaw_holds hf hm hn hwhole, nofun⟩
  | some r =>
    obtain ⟨v, c⟩ := r
    rw [hlow, Option.bind_some] at hwhole
    have hmc : c.mode = .dec := (rcDecRawLoop_flagsKept hlow).mode.trans hm
    refine ⟨_, exec_rcDecRaw_completes (s := { s with holding := false }) hf hm (by decide) hlow, fun _ => rfl, nofun,
      fun _ => ?_⟩
    cases hhigh : rcDecRaw (n - 16) c with
    | none =>
      rw [hhigh, Option.map_none] at hwhole
      exact ⟨_, exec_rcDecRaw_holds (s := { s with holding := false, coder := c, dout0 := v }) hf hmc (by omega) hhigh,
        fun hr => absurd hwhole (hfinite hr), fun _ => exec_rcDecRaw_holds hf hm hn hwhole, nofun⟩
    | some r' =>
      obtain ⟨v', c'⟩ := r'
      rw [hhigh, Option.map_some] at hwhole
      refine ⟨_, exec_rcDecRaw_completes (s := { s with holding := false, coder := c, dout0 := v }) hf hmc (by omega)
        hhigh, fun _ => rfl, nofun, fun _ => ?_⟩
      rw [exec_rcDecRaw_completes hf hm hn hwhole, joinChunk_eq]
      rw [rcDecRaw_of_le (Nat.le_refl 16), Option.map_eq_some_iff] at hlow
      obtain ⟨⟨q, d⟩, hq, hv⟩ := hlow
      cases hv
      rw [zext_toNat_32]
      exact rcDecShift_lt (by decide) hq

/-- Settles O38. -/
theorem rcDecRawJoinsSixteenBitChunks : Obligations.RcDecRawJoinsSixteenBitChunks :=
  fun _ _ hf hm he hinv hn => ⟨exec_rcDecRaw_chunk hf hm he hinv, exec_rcDecRaw_chunks hf hm hn⟩

/-! ### Decodes after the end of input (R533) -/

theorem rcDecShift_atEnd {c : Coder} (he : c.eofErr = true) (n : Nat) : rcDecShift n c = some (0, c) := by
  rw [rcDecShift, if_pos he]

theorem rcDecSym_atEnd {c : Coder} (he : c.eofErr = true) (m : Model) : rcDecSym c m = some (0, c, m) := by
  rw [rcDecSym, if_pos he]

theorem rcDecRaw_atEnd {c : Coder} (he : c.eofErr = true) (n : Nat) : rcDecRaw n c = some (0, c) := by
  induction n using chunk_induction with
  | last n hn => rw [rcDecRaw_of_le hn, rcDecShift_atEnd he]; rfl
  | chunk n hn ih =>
    have hjoin : joinChunk 0 0 = 0 := by decide
    have hfirst : rcDecRaw 16 c = some (0, c) := by rw [rcDecRaw_of_le (Nat.le_refl 16), rcDecShift_atEnd he]; rfl
    rw [rcDecRaw_of_lt hn, hfirst, Option.bind_some, ih, Option.map_some, hjoin]

theorem truncW_toNat (w : Width) (x : W64) : (truncW w x).toNat = x.toNat % 2 ^ w.bits := by
  rw [truncW, zext_toNat, lowBits, BitVec.toNat_setWidth]

/-- At the end of input a residual is the one of symbol 0 with raw bits 0 (43_residual.md R704). -/
theorem resDecode_atEnd {c : Coder} (he : c.eofErr = true) (params : Params) (w : Width) (p : W64) (m : Model) :
    resDecode params w p c m = some (truncW w (p - ((1#64 <<< (w.bits - 1)) + 0)), c, m) := by
  have hpos := width_bits_pos w
  have hclass : residualClass w 0 = w.bits - 1 := by rw [residualClass, if_neg (by omega), Nat.sub_zero]
  have hraw : (if rawStepRuns params (w.bits - 1) then rcDecRaw (w.bits - 1) c else some (0, c)) = some (0, c) := by
    split
    · exact rcDecRaw_atEnd he _
    · rfl
  rw [resDecode, rcDecSym_atEnd he]
  dsimp only
  rw [if_neg (by omega), hclass, hraw]
  dsimp only
  rw [if_neg (by omega)]

theorem residual_atEnd_toNat (w : Width) (p : W64) :
    (truncW w (p - ((1#64 <<< (w.bits - 1)) + 0))).toNat = (p.toNat + 2 ^ (w.bits - 1)) % 2 ^ w.bits := by
  rw [truncW_toNat]
  cases w with
  | w32 => simp only [Width.bits]; bv_omega
  | w64 => simp only [Width.bits]; bv_omega

/-- Settles O40: every decode procedure is the identity then, and gives 0. -/
theorem decodesAfterTheEndReturnZero : Obligations.DecodesAfterTheEndReturnZero := by
  intro s hf hm he
  refine ⟨?bit, fun n hn => ?raw, fun hv => ?sym, fun hv hs hp => ?residual⟩
  case bit => exact exec_rcDecBit_completes hf hm (rcDecShift_atEnd he 1)
  case raw => exact exec_rcDecRaw_completes hf hm hn (rcDecRaw_atEnd he n)
  case sym => exact exec_rcDecSym_completes hf hm hv (rcDecSym_atEnd he s.model)
  case residual =>
    refine ⟨_, ?_, residual_atEnd_toNat s.cfg.w s.din1⟩
    rw [exec_resDec hf hm hv hs hp, resDecode_atEnd he]
    rfl

end Sys2Proof.Proofs
end

section
/-! PROOFS. The probability model (42_qsmodel.md): what a rescale computes, that the search table leads to the one
symbol of a query, and that a tick keeps the model's invariants (R604 to R611, R615). -/

namespace Sys2Proof.Proofs

open Sys2Proof.Machine Sys2Proof.Safety Sys2Proof.Laws

/-! ### Sums of frequencies -/

@[simp] theorem tableSum_cons (x : W32) (xs : List W32) : tableSum (x :: xs) = x.toNat + tableSum xs := by
  simp [tableSum]

theorem tableSum_take_drop (xs : List W32) (i : Nat) :
    tableSum (xs.take i) + tableSum (xs.drop i) = tableSum xs := by
  simp only [tableSum, ← List.sum_append, ← List.map_append, List.take_append_drop]

theorem tableSum_take_succ {xs : List W32} {i : Nat} (h : i < xs.length) :
    tableSum (xs.take (i + 1)) = tableSum (xs.take i) + xs[i].toNat := by
  rw [List.take_succ_eq_append_getElem h, tableSum, List.map_append, List.sum_append, List.map_cons, List.map_nil,
    List.sum_singleton, tableSum]

theorem tableSum_take_lt {xs : List W32} (hpos : ∀ x ∈ xs, 1 ≤ x.toNat) {i : Nat} (h : i < xs.length) :
    tableSum (xs.take i) < tableSum (xs.take (i + 1)) := by
  rw [tableSum_take_succ h]
  exact Nat.lt_add_of_pos_right (hpos _ (List.getElem_mem h))

theorem getElem_le_tableSum {xs : List W32} {i : Nat} (h : i < xs.length) : xs[i].toNat ≤ tableSum xs :=
  List.le_sum_of_mem (List.mem_map_of_mem (List.getElem_mem h))

theorem tableSum_set {xs : List W32} {i : Nat} (h : i < xs.length) (v : W32) :
    tableSum (xs.set i v) + xs[i].toNat = tableSum xs + v.toNat := by
  induction xs generalizing i with
  | nil => simp at h
  | cons x xs ih =>
    cases i with
    | zero => simp only [List.set_cons_zero, tableSum_cons, List.getElem_cons_zero]; omega
    | succ i =>
      have := ih (i := i) (by simpa using h)
      simp only [List.set_cons_succ, tableSum_cons, List.getElem_cons_succ]
      omega

/-! ### Halving (R606) -/

theorem halveOdd_toNat (x : W32) : (halveOdd x).toNat = x.toNat / 2 ||| 1 := by
  rw [halveOdd, BitVec.toNat_or, BitVec.toNat_ushiftRight, Nat.shiftRight_one]
  rfl

theorem halveOdd_le {x : W32} (h : 1 ≤ x.toNat) : (halveOdd x).toNat ≤ x.toNat := by
  have hhalf : (x.toNat / 2 ||| 1) / 2 = x.toNat / 2 / 2 ||| 1 / 2 := Nat.or_div_two
  rw [show 1 / 2 = 0 from rfl, Nat.or_zero] at hhalf
  rw [halveOdd_toNat]
  omega

theorem tableSum_halveOdd_le {xs : List W32} (h : ∀ x ∈ xs, 1 ≤ x.toNat) :
    tableSum (xs.map halveOdd) ≤ tableSum xs := by
  induction xs with
  | nil => exact Nat.le_refl 0
  | cons x xs ih =>
    obtain ⟨hx, hxs⟩ := List.forall_mem_cons.mp h
    rw [List.map_cons, tableSum_cons, tableSum_cons]
    exact Nat.add_le_add (halveOdd_le hx) (ih hxs)

/-! ### The sweep of a rebuild (R606) -/

theorem rebuildSweep_cf (total : W32) {xs : List W32} (h : tableSum xs ≤ total.toNat) :
    (rebuildSweep total xs).cf.toNat = total.toNat - tableSum xs := by
  induction xs with
  | nil => rfl
  | cons x xs ih =>
    rw [tableSum_cons] at h ⊢
    have hcf := ih (by omega)
    rw [rebuildSweep, BitVec.toNat_sub_of_le (BitVec.le_def.mpr (by omega)), hcf]
    omega

theorem rebuildSweep_missing (total : W32) {xs : List W32} (h : tableSum (xs.map halveOdd) ≤ total.toNat) :
    (rebuildSweep total xs).missing.toNat = total.toNat - tableSum (xs.map halveOdd) := by
  induction xs with
  | nil => rfl
  | cons x xs ih =>
    rw [List.map_cons, tableSum_cons] at h ⊢
    have hmissing := ih (by omega)
    rw [rebuildSweep, BitVec.toNat_sub_of_le (BitVec.le_def.mpr (by omega)), hmissing]
    omega

/-- Each new cumulative frequency is the total less the frequencies from its symbol on. -/
theorem rebuildSweep_cumf (total : W32) {xs : List W32} (h : tableSum xs ≤ total.toNat) {i : Nat}
    (hi : i < (rebuildSweep total xs).cumf.length) :
    ((rebuildSweep total xs).cumf[i]).toNat = total.toNat - tableSum (xs.drop i) := by
  induction xs generalizing i with
  | nil => simp [rebuildSweep] at hi
  | cons x xs ih =>
    cases i with
    | zero => exact rebuildSweep_cf total h
    | succ i =>
      rw [tableSum_cons] at h
      exact ih (by omega) (by simpa [rebuildSweep] using hi)

/-! ### The search table (R608) -/

/-- What a search needs of the cumulative frequencies: they rise from 0 to `2^BITS`. -/
structure CumfInv (m : Model) : Prop where
  bits : 7 ≤ m.bits.toNat ∧ m.bits.toNat ≤ 16
  alphabet : 1 ≤ m.s.toNat ∧ m.s.toNat ≤ 2 ^ m.bits.toNat
  zero : (cumfAt m 0).toNat = 0
  top : (cumfAt m m.s.toNat).toNat = 2 ^ m.bits.toNat
  rising : ∀ i, i < m.s.toNat → (cumfAt m i).toNat < (cumfAt m (i + 1)).toNat

theorem cumfInv_of_modelInv {m : Model} (h : ModelInv m) : CumfInv m :=
  ⟨h.bits, h.alphabet, by rw [h.cumf_zero]; rfl, h.cumf_top, h.cumf_rising⟩

theorem CumfInv.mono {m : Model} (h : CumfInv m) {i j : Nat} (hij : i ≤ j) (hj : j ≤ m.s.toNat) :
    (cumfAt m i).toNat ≤ (cumfAt m j).toNat := by
  induction j, hij using Nat.le_induction with
  | base => exact Nat.le_refl _
  | succ j _ ih => exact (ih (by omega)).trans (h.rising j (by omega)).le

/-- The interval of symbol `i` holds `l`. -/
def Holds (m : Model) (i l : Nat) : Prop := (cumfAt m i).toNat ≤ l ∧ l < (cumfAt m (i + 1)).toNat

/-- Every query below the total lies in the interval of a symbol. -/
theorem CumfInv.exists_holds {m : Model} (h : CumfInv m) {l : Nat} (hl : l < 2 ^ m.bits.toNat) :
    ∃ i, i < m.s.toNat ∧ Holds m i l := by
  have below : ∀ n, n ≤ m.s.toNat → l < (cumfAt m n).toNat → ∃ i, i < n ∧ Holds m i l := fun n => by
    induction n with
    | zero => intro _ hlt; exact absurd hlt (by rw [h.zero]; omega)
    | succ n ih =>
      intro hn hlt
      obtain hle | hgt := Nat.lt_or_ge l (cumfAt m n).toNat
      · obtain ⟨i, hi, hholds⟩ := ih (by omega) hle
        exact ⟨i, by omega, hholds⟩
      · exact ⟨n, by omega, hgt, hlt⟩
  exact below m.s.toNat (Nat.le_refl _) (by rwa [h.top])

/-- Only one symbol's interval holds a query (R611). -/
theorem CumfInv.holds_unique {m : Model} (h : CumfInv m) {i j l : Nat} (hi : i < m.s.toNat) (hj : j < m.s.toNat)
    (hil : Holds m i l) (hjl : Holds m j l) : i = j := by
  obtain ⟨hi1, hi2⟩ := hil
  obtain ⟨hj1, hj2⟩ := hjl
  obtain hlt | rfl | hgt := Nat.lt_trichotomy i j
  · have := h.mono (show i + 1 ≤ j from hlt) (by omega)
    omega
  · rfl
  · have := h.mono (show j + 1 ≤ i from hgt) (by omega)
    omega

/-- The buckets the sweep sets to symbol `i`. -/
def Covers (cumf : List W32) (sh i j : Nat) : Prop :=
  (tableAt .cumf cumf i >>> sh).toNat ≤ j ∧ j ≤ ((tableAt .cumf cumf (i + 1) - 1) >>> sh).toNat

theorem searchSweep_uncovered {cumf : List W32} {sh n j : Nat} {table : List W32} (hj : j < table.length)
    (h : ∀ i, i < n → ¬ Covers cumf sh i j) :
    tableAt .search (searchSweep cumf sh n table) j = tableAt .search table j := by
  induction n generalizing table with
  | zero => rfl
  | succ n ih =>
    rw [searchSweep, ih (by simpa using hj) (fun i hi => h i (by omega)), tableAt_tableFill hj]
    exact if_neg (h n (by omega))

/-- A bucket ends at the lowest symbol that covers it, since the sweep goes down. -/
theorem searchSweep_covered {cumf : List W32} {sh n i j : Nat} {table : List W32} (hj : j < table.length) (hi : i < n)
    (hc : Covers cumf sh i j) (hlow : ∀ i', i' < i → ¬ Covers cumf sh i' j) :
    tableAt .search (searchSweep cumf sh n table) j = BitVec.ofNat 32 i := by
  induction n generalizing table with
  | zero => omega
  | succ n ih =>
    obtain hlt | rfl := Nat.lt_or_eq_of_le (Nat.le_of_lt_succ hi)
    · rw [searchSweep]
      exact ih (by simpa using hj) hlt
    · rw [searchSweep, searchSweep_uncovered (by simpa using hj) hlow, tableAt_tableFill hj]
      exact if_pos hc

theorem CumfInv.shift_toNat {m : Model} (h : CumfInv m) {i : Nat} (hi : i < m.s.toNat) :
    ((cumfAt m (i + 1) - 1) >>> searchShift m).toNat = ((cumfAt m (i + 1)).toNat - 1) / 2 ^ searchShift m := by
  have hpos := h.rising i hi
  rw [part_toNat, BitVec.toNat_sub_of_le (BitVec.le_def.mpr (by rw [one_toNat]; omega)), one_toNat]

/-- A symbol covers a bucket exactly if its interval reaches into the bucket. -/
theorem CumfInv.covers_iff {m : Model} (h : CumfInv m) {i j : Nat} (hi : i < m.s.toNat) :
    Covers m.cumf (searchShift m) i j ↔
      (cumfAt m i).toNat < (j + 1) * 2 ^ searchShift m ∧ j * 2 ^ searchShift m < (cumfAt m (i + 1)).toNat := by
  have hpos := h.rising i hi
  have hsh := Nat.two_pow_pos (searchShift m)
  change (cumfAt m i >>> searchShift m).toNat ≤ j ∧ j ≤ ((cumfAt m (i + 1) - 1) >>> searchShift m).toNat ↔ _
  rw [h.shift_toNat hi, part_toNat, ← Nat.lt_succ_iff, Nat.div_lt_iff_lt_mul hsh, Nat.le_div_iff_mul_le hsh,
    Nat.succ_eq_add_one]
  omega

theorem CumfInv.total_eq {m : Model} (h : CumfInv m) : 2 ^ m.bits.toNat = 128 * 2 ^ searchShift m := by
  rw [show (128 : Nat) = 2 ^ 7 from rfl, ← Nat.pow_add, searchShift, Nat.add_sub_cancel' h.bits.1]

/-- The sweep restores the search table's invariant. -/
theorem CumfInv.searchInv {m : Model} (h : CumfInv m) (hlen : m.search.length = 129)
    (hsentinel : searchAt m 128 = m.s.toNat - 1) : SearchInv (qsmRebuildSearch m) := by
  have hs := m.s.isLt
  have htotal := h.total_eq
  have hsh := Nat.two_pow_pos (searchShift m)
  refine ⟨by rw [qsmRebuildSearch, searchSweep_length, hlen], fun j hj => ?bucket, ?sentinel⟩
  case bucket =>
    obtain ⟨i, hi, hlo, hhi⟩ := h.exists_holds (l := j * 2 ^ searchShift m) (by
      rw [htotal]; exact Nat.mul_lt_mul_of_pos_right hj hsh)
    have hcovers : Covers m.cumf (searchShift m) i j := (h.covers_iff hi).mpr ⟨by rw [Nat.add_mul]; omega, hhi⟩
    have hlow : ∀ i', i' < i → ¬ Covers m.cumf (searchShift m) i' j := fun i' hi' hc => by
      have hreach := ((h.covers_iff (by omega)).mp hc).2
      have hmono := h.mono (show i' + 1 ≤ i from hi') hi.le
      omega
    have hentry : searchAt (qsmRebuildSearch m) j = i := by
      rw [searchAt, qsmRebuildSearch, searchSweep_covered (by omega) hi hcovers hlow, BitVec.toNat_ofNat,
        Nat.mod_eq_of_lt (by omega)]
    rw [hentry]
    exact ⟨hi, hlo, hhi⟩
  case sentinel =>
    have huncovered : ∀ i, i < m.s.toNat → ¬ Covers m.cumf (searchShift m) i 128 := fun i hi hc => by
      have hreach := ((h.covers_iff hi).mp hc).2
      have hmono := h.mono (show i + 1 ≤ m.s.toNat from hi) (Nat.le_refl _)
      rw [h.top] at hmono
      omega
    rw [searchAt, qsmRebuildSearch, searchSweep_uncovered (by omega) huncovered]
    exact hsentinel

/-! ### The query (R611) -/

/-- The binary search halves `[s, h)` down to the symbol whose interval holds the query. -/
theorem symbolSearch_holds {m : Model} {l : W32} {fuel lo hi : Nat} (hlt : lo < hi) (hfuel : hi - lo ≤ 2 ^ fuel)
    (hlo : (cumfAt m lo).toNat ≤ l.toNat) (hhi : l.toNat < (cumfAt m hi).toNat) :
    Holds m (symbolSearch m l fuel lo hi) l.toNat := by
  induction fuel generalizing lo hi with
  | zero =>
    obtain rfl : hi = lo + 1 := by omega
    exact ⟨hlo, hhi⟩
  | succ fuel ih =>
    rw [Nat.pow_succ] at hfuel
    unfold symbolSearch
    split
    · dsimp only
      split
      · next hq => exact ih (by omega) (by omega) hlo (BitVec.lt_def.mp hq)
      · next hq => exact ih (by omega) (by omega) (Nat.le_of_not_lt fun h => hq (BitVec.lt_def.mpr h)) hhi
    · obtain rfl : hi = lo + 1 := by omega
      exact ⟨hlo, hhi⟩

/-- Two neighbouring entries of the search table bound the symbols of their bucket's queries (R608). -/
theorem search_bounds {m : Model} (h : ModelInv m) {j l : Nat} (hj : j < 128) (hlo : j * 2 ^ searchShift m ≤ l)
    (hhi : l < (j + 1) * 2 ^ searchShift m) :
    (cumfAt m (searchAt m j)).toNat ≤ l ∧ l < (cumfAt m (searchAt m (j + 1) + 1)).toNat ∧
      searchAt m j < searchAt m (j + 1) + 1 := by
  obtain ⟨hs, hbelow, -⟩ := h.search.bucket j hj
  have htotal := (cumfInv_of_modelInv h).total_eq
  have habove : l < (cumfAt m (searchAt m (j + 1) + 1)).toNat := by
    obtain hmid | hend := Nat.lt_or_eq_of_le (show j + 1 ≤ 128 from hj)
    · exact hhi.trans (h.search.bucket _ hmid).2.2
    · rw [hend, h.search.sentinel, Nat.sub_add_cancel h.alphabet.1, h.cumf_top, htotal]
      exact hend ▸ hhi
  refine ⟨hbelow.trans hlo, habove, ?_⟩
  by_contra hge
  have hmono := (cumfInv_of_modelInv h).mono (Nat.le_of_not_lt hge) hs.le
  exact absurd (habove.trans_le (hmono.trans (hbelow.trans hlo))) (Nat.lt_irrefl _)

/-- A query below the total finds the symbol whose interval holds it. -/
theorem querySymbol_holds {m : Model} (h : ModelInv m) {l : W32} (hl : l.toNat < 2 ^ m.bits.toNat) :
    Holds m (querySymbol m l) l.toNat := by
  have hsh := Nat.two_pow_pos (searchShift m)
  have hj : l.toNat / 2 ^ searchShift m < 128 :=
    (Nat.div_lt_iff_lt_mul hsh).mpr ((cumfInv_of_modelInv h).total_eq ▸ hl)
  obtain ⟨hbelow, habove, hlt⟩ := search_bounds h hj (Nat.div_mul_le_self _ _)
    ((Nat.div_lt_iff_lt_mul hsh).mp (Nat.lt_succ_self _))
  have hentry : searchAt m (l.toNat / 2 ^ searchShift m + 1) < 2 ^ 32 := BitVec.isLt _
  unfold querySymbol
  rw [part_toNat]
  exact symbolSearch_holds hlt (by change _ - searchAt m _ ≤ _; omega) hbelow habove

/-- The query of a symbol's own interval finds the symbol (R611). -/
theorem querySymbol_eq {m : Model} (h : ModelInv m) {l : W32} {sym : Nat} (hs : sym < m.s.toNat)
    (hl : Holds m sym l.toNat) : querySymbol m l = sym := by
  have hinv := cumfInv_of_modelInv h
  have htop : l.toNat < 2 ^ m.bits.toNat := hl.2.trans_le (hinv.top ▸ hinv.mono hs (Nat.le_refl _))
  exact hinv.holds_unique (querySymbol_lt h htop) hs (querySymbol_holds h htop) hl

/-! ### The rescale (R605 to R608) -/

/-- What a rescale starts from: the frequencies make up `2^BITS`. -/
structure RescaleReady (m : Model) : Prop where
  bits : 7 ≤ m.bits.toNat ∧ m.bits.toNat ≤ 16
  alphabet : 1 ≤ m.s.toNat ∧ m.s.toNat ≤ 2 ^ m.bits.toNat
  epoch : rescaleInit m.s.toNat ≤ m.rescale.toNat ∧ m.rescale.toNat ≤ m.period.toNat
  symf_length : m.symf.length = m.s.toNat
  cumf_length : m.cumf.length = m.s.toNat + 1
  symf_pos : ∀ f ∈ m.symf, 1 ≤ f.toNat
  total : tableSum m.symf = 2 ^ m.bits.toNat
  cumf_zero : cumfAt m 0 = 0
  cumf_top : (cumfAt m m.s.toNat).toNat = 2 ^ m.bits.toNat
  search_length : m.search.length = 129
  sentinel : searchAt m 128 = m.s.toNat - 1

/-- QSM_Update's rescale (R604): the epoch grows, the tables are rebuilt. -/
def rescale (m : Model) : Model := qsmRebuildSearch (qsmRebuild (qsmGrow m))

theorem qsmUpdate_rescales {m : Model} (h : m.more = 0) : qsmUpdate m = rescale m := by
  rw [qsmUpdate, if_neg (by simp [h]), rescale]

theorem qsmUpdate_arms {m : Model} (h : m.more ≠ 0) :
    qsmUpdate m = { m with left := m.more, more := 0, incr := m.incr + 1 } := by
  rw [qsmUpdate, if_pos h]

theorem qsmGrow_rescale_toNat (m : Model) :
    (qsmGrow m).rescale.toNat =
      if m.rescale.toNat < m.period.toNat then min (2 * m.rescale.toNat) m.period.toNat else m.rescale.toNat := by
  have hperiod := m.period.isLt
  unfold qsmGrow
  split
  · exact Nat.mod_eq_of_lt (by omega)
  · rfl

theorem qsmGrow_eq (m : Model) : qsmGrow m = { m with rescale := (qsmGrow m).rescale } := by
  unfold qsmGrow
  split <;> rfl

theorem qsmGrow_ready {m : Model} (h : RescaleReady m) : RescaleReady (qsmGrow m) := by
  have hepoch : rescaleInit m.s.toNat ≤ (qsmGrow m).rescale.toNat ∧ (qsmGrow m).rescale.toNat ≤ m.period.toNat := by
    have hbefore := h.epoch
    rw [qsmGrow_rescale_toNat]
    split <;> omega
  rw [qsmGrow_eq]
  exact { h with epoch := hepoch }

theorem modelTotal_toNat {m : Model} (h : m.bits.toNat ≤ 16) : (modelTotal m).toNat = 2 ^ m.bits.toNat := by
  have hle : 2 ^ m.bits.toNat ≤ 2 ^ 16 := Nat.pow_le_pow_right (by decide) h
  rw [modelTotal, BitVec.toNat_shiftLeft, Nat.shiftLeft_eq, show (1#32).toNat = 1 from rfl, Nat.one_mul,
    Nat.mod_eq_of_lt (by omega)]

theorem rescaleInit_pos (s : Nat) : 2 ≤ rescaleInit s := Nat.right_le_or

theorem rem_toNat {a b : W32} (hb : 1 ≤ b.toNat) : (rem a b).toNat = a.toNat % b.toNat := by
  have hne : b ≠ 0 := by
    rintro rfl
    exact absurd hb (by decide)
  rw [rem, if_neg hne, BitVec.toNat_umod]

/-- QSM_Rebuild of a model with symbols: one sweep over all of them gives the deficit, the sweep over all but the first
the cumulative frequencies between the ends. -/
theorem qsmRebuild_eq {m : Model} (h : m.symf ≠ []) :
    qsmRebuild m = { m with
      cumf := m.cumf.take 1 ++ (rebuildSweep (modelTotal m) m.symf.tail).cumf ++ m.cumf.drop m.symf.length
      symf := m.symf.map halveOdd
      incr := quot (rebuildSweep (modelTotal m) m.symf).missing m.rescale
      more := rem (rebuildSweep (modelTotal m) m.symf).missing m.rescale
      left := m.rescale - rem (rebuildSweep (modelTotal m) m.symf).missing m.rescale } := by
  obtain ⟨first, others, hcons⟩ := List.exists_cons_of_ne_nil h
  unfold qsmRebuild
  simp [hcons, rebuildSweep]

/-- The new cumulative table: the first entry, the sweep's, the last entry. -/
theorem getElem?_spliced {cumf mid : List W32} {n i : Nat} (hmid : mid.length + 1 = n) (hlen : cumf.length = n + 1) :
    (cumf.take 1 ++ mid ++ cumf.drop n)[i]? = if 1 ≤ i ∧ i < n then mid[i - 1]? else cumf[i]? := by
  have htake : (cumf.take 1).length = 1 := by rw [List.length_take]; omega
  rw [List.append_assoc, List.getElem?_append, List.getElem?_append, htake, List.getElem?_take, List.getElem?_drop]
  split
  · rw [if_neg (by omega)]
  · split
    · rw [if_pos (by omega)]
    · rw [if_neg (by omega), show n + (i - 1 - mid.length) = i by omega]

theorem RescaleReady.symf_ne_nil {m : Model} (h : RescaleReady m) : m.symf ≠ [] := by
  have hlen := h.symf_length
  have hs := h.alphabet.1
  rintro hnil
  rw [hnil, List.length_nil] at hlen
  omega

theorem RescaleReady.take_lt {m : Model} (h : RescaleReady m) (i : Nat) : tableSum (m.symf.take i) < 2 ^ 32 := by
  have hsplit := tableSum_take_drop m.symf i
  have hle : 2 ^ m.bits.toNat ≤ 2 ^ 16 := Nat.pow_le_pow_right (by decide) h.bits.2
  rw [h.total] at hsplit
  omega

theorem RescaleReady.take_all {m : Model} (h : RescaleReady m) :
    tableSum (m.symf.take m.s.toNat) = 2 ^ m.bits.toNat := by
  rw [List.take_of_length_le h.symf_length.le, h.total]

/-- After a rebuild each inner cumulative frequency is the sum of the frequencies before halving (R606). -/
theorem qsmRebuild_cumfAt {m : Model} (h : RescaleReady m) {i : Nat} :
    cumfAt (qsmRebuild m) i =
      if 1 ≤ i ∧ i < m.s.toNat then BitVec.ofNat 32 (tableSum (m.symf.take i)) else cumfAt m i := by
  have htotal := modelTotal_toNat h.bits.2
  have hsplit := tableSum_take_drop m.symf i
  have htail : tableSum m.symf.tail ≤ (modelTotal m).toNat := by
    have hone := tableSum_take_drop m.symf 1
    rw [List.drop_one] at hone
    rw [htotal, ← h.total]
    omega
  have hget := getElem?_spliced (cumf := m.cumf) (mid := (rebuildSweep (modelTotal m) m.symf.tail).cumf) (i := i)
    (by rw [rebuildSweep_cumf_length, List.length_tail, h.symf_length]; exact Nat.sub_add_cancel h.alphabet.1)
    h.cumf_length
  rw [qsmRebuild_eq h.symf_ne_nil, cumfAt, h.symf_length]
  by_cases hi : 1 ≤ i ∧ i < m.s.toNat
  · have hmid : i - 1 < (rebuildSweep (modelTotal m) m.symf.tail).cumf.length := by
      rw [rebuildSweep_cumf_length, List.length_tail, h.symf_length]
      omega
    have hlt := (modelTotal m).isLt
    rw [htotal, ← h.total] at hlt
    rw [if_pos hi, List.getElem?_eq_getElem hmid] at hget
    rw [if_pos hi, tableAt_of_some hget]
    apply BitVec.eq_of_toNat_eq
    rw [rebuildSweep_cumf _ htail, htotal, ← h.total, List.drop_tail, Nat.sub_add_cancel hi.1, BitVec.toNat_ofNat,
      Nat.mod_eq_of_lt (by omega)]
    omega
  · rw [if_neg hi] at hget
    rw [if_neg hi, tableAt, hget, cumfAt, tableAt]

/-- The deficit of the halved frequencies to `2^BITS` (R607). -/
theorem RescaleReady.missing {m : Model} (h : RescaleReady m) :
    tableSum (m.symf.map halveOdd) + (rebuildSweep (modelTotal m) m.symf).missing.toNat = 2 ^ m.bits.toNat := by
  have htotal := modelTotal_toNat h.bits.2
  have hle := tableSum_halveOdd_le h.symf_pos
  rw [h.total] at hle
  rw [rebuildSweep_missing _ (by rw [htotal]; exact hle), htotal]
  omega

theorem qsmRebuild_symf {m : Model} (h : RescaleReady m) : (qsmRebuild m).symf = m.symf.map halveOdd := by
  rw [qsmRebuild_eq h.symf_ne_nil]

theorem qsmRebuild_cumf_length {m : Model} (h : RescaleReady m) : (qsmRebuild m).cumf.length = m.cumf.length := by
  have hs := h.alphabet.1
  rw [qsmRebuild_eq h.symf_ne_nil]
  simp only [List.length_append, List.length_take, List.length_drop, rebuildSweep_cumf_length, List.length_tail,
    h.symf_length, h.cumf_length]
  omega

/-- The deficit is spread over the epoch: `INCR` for each of its symbols, one more for the last `MORE` (R607). -/
theorem qsmRebuild_spreads {m : Model} (h : RescaleReady m) :
    tableSum (m.symf.map halveOdd) + (qsmRebuild m).incr.toNat * m.rescale.toNat + (qsmRebuild m).more.toNat =
        2 ^ m.bits.toNat ∧
      (qsmRebuild m).more.toNat < m.rescale.toNat ∧
      (qsmRebuild m).left.toNat + (qsmRebuild m).more.toNat = m.rescale.toNat := by
  have hpos : 1 ≤ m.rescale.toNat := by
    have hinit := rescaleInit_pos m.s.toNat
    have hepoch := h.epoch.1
    omega
  have hmissing := h.missing
  rw [qsmRebuild_eq h.symf_ne_nil]
  dsimp only
  generalize (rebuildSweep (modelTotal m) m.symf).missing = missing at hmissing
  have hlt : (rem missing m.rescale).toNat < m.rescale.toNat := by
    rw [rem_toNat hpos]
    exact Nat.mod_lt _ hpos
  have hdiv : (quot missing m.rescale).toNat * m.rescale.toNat + (rem missing m.rescale).toNat = missing.toNat := by
    rw [quot_toNat hpos, rem_toNat hpos, Nat.div_add_mod']
  rw [BitVec.toNat_sub_of_le (BitVec.le_def.mpr hlt.le)]
  omega

/-- The rescale's search table (R608). -/
theorem rescale_cumfInv {m : Model} (h : RescaleReady m) : CumfInv (qsmRebuild m) := by
  have hsum : ∀ i, i ≤ m.s.toNat → (cumfAt (qsmRebuild m) i).toNat = tableSum (m.symf.take i) := fun i hi => by
    rw [qsmRebuild_cumfAt h]
    split
    · rw [BitVec.toNat_ofNat, Nat.mod_eq_of_lt (h.take_lt i)]
    · obtain rfl | rfl : i = 0 ∨ i = m.s.toNat := by omega
      · rw [h.cumf_zero]; rfl
      · rw [h.cumf_top, h.take_all]
  constructor
  · rw [qsmRebuild_bits]; exact h.bits
  · rw [qsmRebuild_bits, qsmRebuild_s]; exact h.alphabet
  · rw [hsum 0 (Nat.zero_le _)]; rfl
  · rw [qsmRebuild_s, qsmRebuild_bits, hsum _ (Nat.le_refl _), h.take_all]
  · intro i hi
    rw [qsmRebuild_s] at hi
    have hlen : i < m.symf.length := h.symf_length ▸ hi
    rw [hsum i hi.le, hsum (i + 1) hi]
    exact tableSum_take_lt h.symf_pos hlen

/-- What a rescale computes, in plain arithmetic (R605 to R608). -/
theorem rescale_rescaled {m : Model} (h : RescaleReady m) : Rescaled m (rescale m) := by
  have hg := qsmGrow_ready h
  have hcumf : ∀ i, cumfAt (rescale m) i =
      if 1 ≤ i ∧ i < m.s.toNat then BitVec.ofNat 32 (tableSum (m.symf.take i)) else cumfAt m i := fun i => by
    rw [cumfAt, rescale, qsmRebuildSearch_cumf]
    exact (qsmRebuild_cumfAt hg).trans (by rw [qsmGrow_s, qsmGrow_symf, cumfAt, qsmGrow_cumf, ← cumfAt])
  obtain ⟨hdeficit, hmore, hleft⟩ := qsmRebuild_spreads hg
  have hsymf := qsmRebuild_symf hg
  exact
    { valid := by simp [rescale]
      parameters := by simp [rescale]
      grown := by rw [← qsmGrow_rescale_toNat, rescale, qsmRebuildSearch_rescale, qsmRebuild_rescale]
      cumf_length := by rw [rescale, qsmRebuildSearch_cumf, qsmRebuild_cumf_length hg, qsmGrow_cumf]
      cumf_ends := ⟨by rw [hcumf, if_neg (by omega)], by rw [hcumf, if_neg (by omega)]⟩
      cumf_sums := fun i h1 hi => by
        rw [hcumf, if_pos ⟨h1, hi⟩, BitVec.toNat_ofNat, Nat.mod_eq_of_lt (h.take_lt i)]
      halved := by
        rw [rescale, qsmRebuildSearch_symf, hsymf, qsmGrow_symf, List.map_map]
        exact List.map_congr_left fun x _ => halveOdd_toNat x
      deficit := by
        rw [rescale, qsmRebuildSearch_symf, hsymf]
        simpa using hdeficit
      more_lt := by simpa [rescale] using hmore
      left := by simpa [rescale] using hleft
      search := (rescale_cumfInv hg).searchInv (by simpa using h.search_length) (by
        rw [searchAt, qsmRebuild_search, qsmGrow_search, qsmRebuild_s, qsmGrow_s]
        exact h.sentinel) }

/-- A rescale ends in the model's invariants (R615). -/
theorem modelInv_of_rescaled {m m' : Model} (h : RescaleReady m) (hr : Rescaled m m') : ModelInv m' := by
  obtain ⟨hs, hbits, hperiod⟩ := hr.parameters
  obtain ⟨hzero, htop⟩ := hr.cumf_ends
  have hsum : ∀ i, i ≤ m.s.toNat → (cumfAt m' i).toNat = tableSum (m.symf.take i) := fun i hi => by
    obtain rfl | rfl | hi : i = 0 ∨ i = m.s.toNat ∨ (1 ≤ i ∧ i < m.s.toNat) := by omega
    · rw [hzero, h.cumf_zero]; rfl
    · rw [htop, h.cumf_top, h.take_all]
    · exact hr.cumf_sums i hi.1 hi.2
  have hlength : m'.symf.length = m.symf.length := by simpa using congrArg List.length hr.halved
  have hbalance : tableSum m'.symf + m'.incr.toNat * m'.left.toNat + (m'.incr.toNat + 1) * m'.more.toNat =
      2 ^ m.bits.toNat := by
    rw [← hr.deficit, ← hr.left]
    ring
  constructor
  case bits => rw [hbits]; exact h.bits
  case alphabet => rw [hs, hbits]; exact h.alphabet
  case epoch =>
    have hepoch := h.epoch
    rw [hs, hperiod, hr.grown]
    split <;> omega
  case symf_length => rw [hs, hlength, h.symf_length]
  case cumf_length => rw [hs, hr.cumf_length, h.cumf_length]
  case symf_pos =>
    intro f hf
    have hmem : f.toNat ∈ m'.symf.map BitVec.toNat := List.mem_map_of_mem hf
    rw [hr.halved, List.mem_map] at hmem
    obtain ⟨x, -, hx⟩ := hmem
    rw [← hx]
    exact Nat.right_le_or
  case balance => rw [hbits]; exact hbalance
  case left_pos =>
    have hmore := hr.more_lt
    have hleft := hr.left
    omega
  case more_lt => exact hr.more_lt
  case cumf_zero => rw [hzero, h.cumf_zero]
  case cumf_top => rw [hs, hbits, htop, h.cumf_top]
  case cumf_rising =>
    intro i hi
    rw [hs] at hi
    rw [hsum i hi.le, hsum (i + 1) hi]
    exact tableSum_take_lt h.symf_pos (h.symf_length ▸ hi)
  case search => exact hr.search

/-! ### A tick (R604, R609) -/

theorem qsmTick_eq (sym : Nat) (m : Model) :
    qsmTick sym m = if (counted m sym).left = 0 then qsmUpdate (counted m sym) else counted m sym := rfl

theorem ModelInv_two_pow_le {m : Model} (h : ModelInv m) : 2 ^ m.bits.toNat ≤ 2 ^ 16 :=
  Nat.pow_le_pow_right (by decide) h.bits.2

theorem counted_left {m : Model} (h : ModelInv m) (sym : Nat) : (counted m sym).left.toNat = m.left.toNat - 1 := by
  have hone : 1 ≤ m.left := BitVec.le_def.mpr h.left_pos
  exact BitVec.toNat_sub_of_le hone

/-- The counted frequency, which does not wrap (R616). -/
theorem counted_freq {m : Model} (h : ModelInv m) {sym : Nat} (hs : sym < m.symf.length) :
    (tableAt .symf m.symf sym + m.incr).toNat = m.symf[sym].toNat + m.incr.toNat := by
  have hle := ModelInv_two_pow_le h
  have hbalance := h.balance
  have hfreq := getElem_le_tableSum hs
  have hincr : m.incr.toNat ≤ m.incr.toNat * m.left.toNat := Nat.le_mul_of_pos_right _ h.left_pos
  rw [tableAt_eq_getElem hs, BitVec.toNat_add, Nat.mod_eq_of_lt (by omega)]

/-- Counting a symbol moves one increment of the epoch into its frequency. -/
theorem counted_sum {m : Model} (h : ModelInv m) {sym : Nat} (hs : sym < m.s.toNat) :
    tableSum (counted m sym).symf + m.incr.toNat * (m.left.toNat - 1) + (m.incr.toNat + 1) * m.more.toNat =
      2 ^ m.bits.toNat := by
  have hlen : sym < m.symf.length := h.symf_length.symm ▸ hs
  have hset := tableSum_set hlen (tableAt .symf m.symf sym + m.incr)
  rw [counted_freq h hlen] at hset
  have hincr : m.incr.toNat * m.left.toNat = m.incr.toNat * (m.left.toNat - 1) + m.incr.toNat := by
    rw [← Nat.mul_succ, Nat.succ_eq_add_one, Nat.sub_add_cancel h.left_pos]
  have hsum : tableSum (counted m sym).symf = tableSum m.symf + m.incr.toNat :=
    (by omega : tableSum (m.symf.set sym (tableAt .symf m.symf sym + m.incr)) = _)
  rw [← h.balance, hincr, hsum]
  omega

theorem counted_pos {m : Model} (h : ModelInv m) {sym : Nat} (hs : sym < m.s.toNat) :
    ∀ f ∈ (counted m sym).symf, 1 ≤ f.toNat := by
  have hlen : sym < m.symf.length := h.symf_length.symm ▸ hs
  intro f hf
  obtain hold | rfl := List.mem_or_eq_of_mem_set hf
  · exact h.symf_pos f hold
  · have hpos := h.symf_pos _ (List.getElem_mem hlen)
    rw [counted_freq h hlen]
    omega

/-- New frequencies, increments and countdowns that still make up `2^BITS` keep the invariants. -/
theorem modelInv_of_counts {m : Model} (h : ModelInv m) {symf : List W32} {incr left more : W32}
    (hlen : symf.length = m.symf.length) (hpos : ∀ f ∈ symf, 1 ≤ f.toNat)
    (hbalance : tableSum symf + incr.toNat * left.toNat + (incr.toNat + 1) * more.toNat = 2 ^ m.bits.toNat)
    (hleft : 1 ≤ left.toNat) (hmore : more.toNat < m.rescale.toNat) :
    ModelInv { m with symf := symf, incr := incr, left := left, more := more } :=
  { h with
    symf_length := hlen.trans h.symf_length
    symf_pos := hpos
    balance := hbalance
    left_pos := hleft
    more_lt := hmore
    search := { h.search with } }

theorem counted_ready {m : Model} (h : ModelInv m) {sym : Nat} (hs : sym < m.s.toNat) (hleft : m.left.toNat = 1)
    (hmore : m.more = 0) : RescaleReady (counted m sym) where
  bits := h.bits
  alphabet := h.alphabet
  epoch := h.epoch
  symf_length := List.length_set.trans h.symf_length
  cumf_length := h.cumf_length
  symf_pos := counted_pos h hs
  total := by
    have hsum := counted_sum h hs
    rw [hleft, hmore, show (0 : W32).toNat = 0 from rfl] at hsum
    exact hsum
  cumf_zero := h.cumf_zero
  cumf_top := h.cumf_top
  search_length := h.search.length
  sentinel := h.search.sentinel

/-- The increment for the pending symbols does not wrap (R616). -/
theorem incr_succ_toNat {m : Model} (h : ModelInv m) (hmore : m.more ≠ 0) :
    (m.incr + 1).toNat = m.incr.toNat + 1 := by
  have hle := ModelInv_two_pow_le h
  have hbalance := h.balance
  have hpos : 1 ≤ m.more.toNat := Nat.one_le_iff_ne_zero.mpr fun hzero => hmore (BitVec.eq_of_toNat_eq hzero)
  have hincr : m.incr.toNat + 1 ≤ (m.incr.toNat + 1) * m.more.toNat := Nat.le_mul_of_pos_right _ hpos
  rw [BitVec.toNat_add, one_toNat, Nat.mod_eq_of_lt (by omega)]

/-- What a tick does, in plain arithmetic. -/
theorem qsmTick_ticked {m : Model} (h : ModelInv m) {sym : Nat} (hs : sym < m.s.toNat) :
    Ticked sym m (qsmTick sym m) := by
  have hleft := counted_left h sym
  have hzero : (counted m sym).left = 0 ↔ m.left.toNat - 1 = 0 := by
    rw [← BitVec.toNat_inj, hleft]
    rfl
  rw [qsmTick_eq]
  refine ⟨fun hrun => if_neg (by rw [hzero]; omega), fun hend hmore => ?_, fun hend hmore => ?_⟩
  · rw [if_pos (by rw [hzero]; omega)]
    exact qsmUpdate_arms hmore
  · rw [if_pos (by rw [hzero]; omega), qsmUpdate_rescales (m := counted m sym) hmore]
    exact rescale_rescaled (counted_ready h hs hend hmore)

/-- A tick keeps the model's invariants (R615). -/
theorem modelInv_of_ticked {m m' : Model} (h : ModelInv m) {sym : Nat} (hs : sym < m.s.toNat)
    (ht : Ticked sym m m') : ModelInv m' := by
  obtain ⟨hcount, harm, hrescale⟩ := ht
  have hsum := counted_sum h hs
  have hlen : (counted m sym).symf.length = m.symf.length := List.length_set
  obtain hrun | hend : 1 < m.left.toNat ∨ m.left.toNat = 1 := by have := h.left_pos; omega
  · rw [hcount hrun]
    have hleft := counted_left h sym
    exact modelInv_of_counts h hlen (counted_pos h hs) (by rw [← counted_left h sym] at hsum; exact hsum)
      (by change 1 ≤ (counted m sym).left.toNat; omega) h.more_lt
  · by_cases hmore : m.more = 0
    · exact modelInv_of_rescaled (counted_ready h hs hend hmore) (hrescale hend hmore)
    · rw [harm hend hmore]
      have hincr := incr_succ_toNat h hmore
      have hpos : 1 ≤ m.more.toNat := Nat.one_le_iff_ne_zero.mpr fun hzero => hmore (BitVec.eq_of_toNat_eq hzero)
      refine modelInv_of_counts h hlen (counted_pos h hs) ?_ hpos ?_
      · rw [hincr, show (0 : W32).toNat = 0 from rfl, Nat.mul_zero, Nat.add_zero, ← hsum, hend]
        rfl
      · exact Nat.lt_of_lt_of_le (by decide) ((rescaleInit_pos _).trans h.epoch.1)

theorem qsmTick_modelInv {m : Model} (h : ModelInv m) {sym : Nat} (hs : sym < m.s.toNat) :
    ModelInv (qsmTick sym m) :=
  modelInv_of_ticked h hs (qsmTick_ticked h hs)

end Sys2Proof.Proofs
end

section
/-! PROOFS. Symbols: the narrowing by the model's frequencies in either direction (41_range_coder.md R508): O35, O39. -/

namespace Sys2Proof.Proofs

open Sys2Proof.Machine Sys2Proof.Safety Sys2Proof.Laws

/-! ### The parts of a symbol -/

theorem freqAt_toNat {m : Model} (h : ModelInv m) {sym : Nat} (hs : sym < m.s.toNat) :
    (cumfAt m sym).toNat + (freqAt m sym).toNat = (cumfAt m (sym + 1)).toNat := by
  have hlt := h.cumf_rising sym hs
  rw [freqAt, BitVec.toNat_sub_of_le (BitVec.le_def.mpr hlt.le)]
  omega

theorem freqAt_pos {m : Model} (h : ModelInv m) {sym : Nat} (hs : sym < m.s.toNat) : 1 ≤ (freqAt m sym).toNat := by
  have hsum := freqAt_toNat h hs
  have hlt := h.cumf_rising sym hs
  omega

theorem symbol_fits {m : Model} (h : ModelInv m) {sym : Nat} (hs : sym < m.s.toNat) :
    (cumfAt m sym).toNat + (freqAt m sym).toNat ≤ 2 ^ m.bits.toNat := by
  rw [freqAt_toNat h hs, ← h.cumf_top]
  exact (cumfInv_of_modelInv h).mono hs (Nat.le_refl _)

/-! ### `RC_EncSym` and `RC_DecSym` are narrowings by those parts -/

theorem rcEncSym_eq (sym : Nat) (c : Coder) (m : Model) :
    rcEncSym sym c m =
      (rcNormalize (narrowed m.bits.toNat (cumfAt m sym) (freqAt m sym) c)).map fun d => (d, qsmTick sym m) := by
  rw [rcEncSym, narrowed]
  dsimp only [qsmEncodeLookup]
  cases rcNormalize _ <;> rfl

/-- The symbol a decode finds: the query is the clamped quotient (R508, R532). -/
def decodedSymbol (c : Coder) (m : Model) : Nat := querySymbol m (partQuotient m.bits.toNat c).1

theorem rcDecSym_eq {c : Coder} (he : c.eofErr = false) (m : Model) :
    rcDecSym c m =
      (rcNormalize (narrowed m.bits.toNat (cumfAt m (decodedSymbol c m)) (freqAt m (decodedSymbol c m))
          { c with corrupt := c.corrupt || (partQuotient m.bits.toNat c).2 })).map
        fun d => (decodedSymbol c m, d, qsmTick (decodedSymbol c m) m) := by
  rw [rcDecSym, if_neg (by simp [he]), narrowed]
  dsimp only [qsmDecodeLookup, qsmEncodeLookup, decodedSymbol, partQuotient]
  cases rcNormalize _ <;> rfl

theorem decodedSymbol_lt (c : Coder) {m : Model} (h : ModelInv m) : decodedSymbol c m < m.s.toNat :=
  querySymbol_lt h (partQuotient_lt c (h.bits.2.trans (by decide)))

/-! ### The commands -/

/-- Settles O35: a symbol is its frequency's parts, and the update is a tick. -/
theorem rcEncSymNarrowsByTheModel : Obligations.RcEncSymNarrowsByTheModel := by
  intro s hf hm hv hinv hmodel hs
  obtain ⟨c, hc, he⟩ := narrowed_encodes hinv hm hmodel.bits.2 (freqAt_pos hmodel hs) (symbol_fits hmodel hs)
  exact ⟨c, qsmTick s.din0.toNat s.model, _, _, (freqAt s.model s.din0.toNat).toNat,
    exec_rcEncSym_completes hf hm hv hs (by rw [rcEncSym_eq, hc, Option.map_some]), qsmTick_ticked hmodel hs,
    rfl, rfl, freqAt_toNat hmodel hs, he⟩

/-- Settles O39: the query finds the symbol that holds it, and the narrowing is the symbol's. -/
theorem rcDecSymFindsTheSymbol : Obligations.RcDecSymFindsTheSymbol := by
  intro s hf hm he hv hinv hmodel
  obtain ⟨hq, hbad⟩ := partQuotient_eq hinv hmodel.bits.2
  have hs := decodedSymbol_lt s.coder hmodel
  obtain ⟨hlo, hhi⟩ : Holds s.model (decodedSymbol s.coder s.model) _ :=
    querySymbol_holds hmodel (partQuotient_lt s.coder (hmodel.bits.2.trans (by decide)))
  have hinv' : CoderInv { s.coder with corrupt := s.coder.corrupt || (partQuotient s.model.bits.toNat s.coder).2 } :=
    ⟨hinv.range_ge, hinv.no_wrap⟩
  obtain ⟨n, hn, hbytes, hready, hhold⟩ := narrowed_decodes hinv' hm hmodel.bits.2 (freqAt_pos hmodel hs)
    (symbol_fits hmodel hs)
  refine ⟨decodedSymbol s.coder s.model, _, _, _, (freqAt s.model (decodedSymbol s.coder s.model)).toNat, n, hs, rfl,
    rfl, rfl, freqAt_toNat hmodel hs, hq ▸ hlo, by rw [freqAt_toNat hmodel hs]; exact hq ▸ hhi, hn, hbytes,
    fun hr => ?_, fun hr => ?_⟩
  · obtain ⟨c, hc, hd⟩ := hready hr
    exact ⟨c, qsmTick (decodedSymbol s.coder s.model) s.model,
      exec_rcDecSym_completes hf hm hv (by rw [rcDecSym_eq he, hc, Option.map_some]), qsmTick_ticked hmodel hs,
      hbad ▸ hd⟩
  · exact exec_rcDecSym_holds hf hm hv (by rw [rcDecSym_eq he, hhold hr, Option.map_none])

end Sys2Proof.Proofs
end

section
/-! PROOFS. The coder's invariants under every procedure, command and step, on any stream (41_range_coder.md R504):
O54. -/

namespace Sys2Proof.Proofs

open Sys2Proof.Machine Sys2Proof.Safety Sys2Proof.Laws

/-! ### Bits, raw fields and symbols -/

theorem rcEncShift_coderInv {c c' : Coder} (h : CoderInv c) {n : Nat} {v : W32} (hn : n ≤ 16) (hv : v.toNat < 2 ^ n)
    (hc : rcEncShift v n c = some c') : CoderInv c' := by
  rw [rcEncShift_eq] at hc
  exact narrowed_coderInv (f := 1) h hn (Nat.le_refl 1) hv hc

theorem rcDecShift_coderInv {c : Coder} (h : CoderInv c) {n : Nat} (hn : n ≤ 16) {r : W32 × Coder}
    (hc : rcDecShift n c = some r) : CoderInv r.2 := by
  cases he : c.eofErr with
  | true =>
    rw [rcDecShift_atEnd he] at hc
    cases hc
    exact h
  | false =>
    rw [rcDecShift_eq he, Option.map_eq_some_iff] at hc
    obtain ⟨d, hd, rfl⟩ := hc
    have hinv : CoderInv { c with corrupt := c.corrupt || (partQuotient n c).2 } := ⟨h.range_ge, h.no_wrap⟩
    exact narrowed_coderInv (f := 1) hinv hn (Nat.le_refl 1) (partQuotient_lt c (Nat.le_trans hn (by decide))) hd

theorem rcEncRaw_coderInv {n : Nat} {v : W64} {c c' : Coder} (h : CoderInv c) (hv : v.toNat < 2 ^ n)
    (hc : rcEncRaw v n c = some c') : CoderInv c' := by
  induction n using chunk_induction generalizing v c with
  | last n hn =>
    rw [rcEncRaw_of_le hn] at hc
    exact rcEncShift_coderInv h hn (by rwa [chunk_toNat hn hv]) hc
  | chunk n hn ih =>
    rw [rcEncRaw_of_lt hn, Option.bind_eq_some_iff] at hc
    obtain ⟨d, hd, hrest⟩ := hc
    have hlow := lowChunk_lt v
    exact ih (rcEncShift_coderInv h (Nat.le_refl 16) (by rwa [chunk_toNat (Nat.le_refl 16) hlow]) hd)
      (highChunk_lt hn hv) hrest

/-- One chunk of a raw decode. -/
theorem rcDecRaw_chunk_coderInv {n : Nat} {c : Coder} {r : W64 × Coder} (h : CoderInv c) (hn : n ≤ 16)
    (hc : rcDecRaw n c = some r) : CoderInv r.2 := by
  rw [rcDecRaw_of_le hn, Option.map_eq_some_iff] at hc
  obtain ⟨q, hq, rfl⟩ := hc
  exact rcDecShift_coderInv h hn hq

theorem rcDecRaw_coderInv {n : Nat} {c : Coder} {r : W64 × Coder} (h : CoderInv c)
    (hc : rcDecRaw n c = some r) : CoderInv r.2 := by
  induction n using chunk_induction generalizing c r with
  | last n hn => exact rcDecRaw_chunk_coderInv h hn hc
  | chunk n hn ih =>
    rw [rcDecRaw_of_lt hn, Option.bind_eq_some_iff] at hc
    obtain ⟨r₁, hr₁, hrest⟩ := hc
    obtain ⟨r₂, hr₂, rfl⟩ := Option.map_eq_some_iff.mp hrest
    exact ih (r := r₂) (rcDecRaw_chunk_coderInv h (Nat.le_refl 16) hr₁) hr₂

theorem rcEncSym_coderInv {sym : Nat} {c : Coder} {m : Model} {r : Coder × Model} (h : CoderInv c) (hm : ModelInv m)
    (hs : sym < m.s.toNat) (hc : rcEncSym sym c m = some r) : CoderInv r.1 := by
  rw [rcEncSym_eq, Option.map_eq_some_iff] at hc
  obtain ⟨d, hd, rfl⟩ := hc
  exact narrowed_coderInv h hm.bits.2 (freqAt_pos hm hs) (symbol_fits hm hs) hd

theorem rcDecSym_coderInv {c : Coder} {m : Model} {r : Nat × Coder × Model} (h : CoderInv c) (hm : ModelInv m)
    (hc : rcDecSym c m = some r) : CoderInv r.2.1 := by
  cases he : c.eofErr with
  | true =>
    rw [rcDecSym_atEnd he] at hc
    cases hc
    exact h
  | false =>
    rw [rcDecSym_eq he, Option.map_eq_some_iff] at hc
    obtain ⟨d, hd, rfl⟩ := hc
    have hs := decodedSymbol_lt c hm
    have hinv : CoderInv { c with corrupt := c.corrupt || (partQuotient m.bits.toNat c).2 } :=
      ⟨h.range_ge, h.no_wrap⟩
    exact narrowed_coderInv hinv hm.bits.2 (freqAt_pos hm hs) (symbol_fits hm hs) hd

/-! ### Residuals (43_residual.md R701, R702) -/

/-- The raw bits of a residual: what is left of the magnitude below its highest bit. -/
theorem rawBits_lt {d : W64} (hd : d ≠ 0) : (d - (1#64 <<< bsr d)).toNat < 2 ^ bsr d := by
  have hne : d.toNat ≠ 0 := fun hzero => hd (BitVec.eq_of_toNat_eq hzero)
  have hle : 2 ^ bsr d ≤ d.toNat := Nat.log2_self_le hne
  have hlt : d.toNat < 2 ^ (bsr d + 1) := Nat.lt_log2_self
  have htop : (1#64 <<< bsr d).toNat = 2 ^ bsr d := by
    have := d.isLt
    rw [BitVec.toNat_shiftLeft, Nat.shiftLeft_eq, show (1#64).toNat = 1 from rfl, Nat.one_mul,
      Nat.mod_eq_of_lt (by omega)]
  rw [BitVec.toNat_sub_of_le (BitVec.le_def.mpr (by omega)), htop]
  rw [Nat.pow_succ] at hlt
  omega

theorem resEncodeMagnitude_coderInv {p : Params} {sym : Nat} {d : W64} {c : Coder} {m : Model} {r : Coder × Model}
    (h : CoderInv c) (hm : ModelInv m) (hs : sym < m.s.toNat) (hd : d ≠ 0)
    (hc : resEncodeMagnitude p sym d c m = some r) : CoderInv r.1 := by
  unfold resEncodeMagnitude at hc
  dsimp only at hc
  split at hc
  · cases hc
  · next hsym =>
    have hsyminv := rcEncSym_coderInv h hm hs hsym
    split at hc
    · split at hc
      · cases hc
      · next hraw => cases hc; exact rcEncRaw_coderInv hsyminv (rawBits_lt hd) hraw
    · cases hc
      exact hsyminv

/-- The class of a residual below `2^W` is below `W`. -/
theorem bsr_lt {w : Width} {d : W64} (hd : d.toNat < 2 ^ w.bits) : bsr d < w.bits := by
  by_cases hzero : d.toNat = 0
  · rw [bsr, hzero]
    exact width_bits_pos w
  · exact (Nat.log2_lt hzero).mpr hd

theorem resEncode_coderInv {params : Params} {w : Width} {a p : W64} {c : Coder} {m : Model} {r : Coder × Model}
    (h : CoderInv c) (hm : ModelInv m) (hs : m.s.toNat = 2 * w.bits + 1) (ha : a.toNat < 2 ^ w.bits)
    (hp : p.toNat < 2 ^ w.bits) (hc : resEncode params w a p c m = some r) : CoderInv r.1 := by
  have above : ∀ x y : W64, x.toNat < y.toNat → y.toNat < 2 ^ w.bits → y - x ≠ 0 ∧ bsr (y - x) < w.bits :=
    fun x y hlt hy => by
      have hdiff : (y - x).toNat = y.toNat - x.toNat := BitVec.toNat_sub_of_le (BitVec.le_def.mpr hlt.le)
      refine ⟨fun hzero => ?_, bsr_lt (by omega)⟩
      rw [hzero, show (0 : W64).toNat = 0 from rfl] at hdiff
      omega
  unfold resEncode at hc
  split at hc
  · exact rcEncSym_coderInv h hm (by omega) hc
  · next hne =>
    split at hc
    · next hlt =>
      obtain ⟨hd, hk⟩ := above p a (BitVec.lt_def.mp hlt) ha
      exact resEncodeMagnitude_coderInv h hm (by omega) hd hc
    · next hge =>
      have hlt : a.toNat < p.toNat := Nat.lt_of_le_of_ne (Nat.le_of_not_lt fun hlt => hge (BitVec.lt_def.mpr hlt))
        fun heq => hne (BitVec.eq_of_toNat_eq heq.symm)
      obtain ⟨hd, hk⟩ := above a p hlt hp
      exact resEncodeMagnitude_coderInv h hm (by omega) hd hc

theorem resDecode_coderInv {params : Params} {w : Width} {p : W64} {c : Coder} {m : Model} {r : W64 × Coder × Model}
    (h : CoderInv c) (hm : ModelInv m) (hc : resDecode params w p c m = some r) : CoderInv r.2.1 := by
  unfold resDecode at hc
  split at hc
  · cases hc
  · next hsym =>
    have hsyminv := rcDecSym_coderInv h hm hsym
    split at hc
    · cases hc
      exact hsyminv
    · dsimp only at hc
      split at hc
      · cases hc
      · next hraw =>
        cases hc
        split at hraw
        · exact rcDecRaw_coderInv hsyminv hraw
        · cases hraw
          exact hsyminv

/-! ### Commands -/

/-- A command keeps the invariants if its effect does, once its checks are passed. -/
theorem command_coderInv {i : Instr} {s t : State} {checks : List Check} {effect : State → Option State}
    (h : command i s checks effect = .next t) (hs : CoderInv s.coder)
    (he : (∀ c ∈ checks, c.1 = false) → ∀ u, effect s = some u → CoderInv u.coder) : CoderInv t.coder := by
  obtain ⟨-, rfl⟩ | ⟨-, _, -, rfl⟩ | ⟨-, -, -, rfl⟩ | ⟨-, hc, hu⟩ := command_cases h
  · exact hs
  · exact hs
  · exact hs
  · exact he (firstFault_eq_none.mp hc) t hu

theorem lorenzo_lt (f : Front) : (lorenzo f).toNat < 2 ^ f.w.bits := by
  rw [lorenzo, truncW_toNat]
  exact Nat.mod_lt _ (Nat.two_pow_pos _)

theorem mapForwardW_lt (w : Width) (x : W64) : (mapForwardW w x).toNat < 2 ^ w.bits := by
  rw [mapForwardW, zext_toNat]
  exact BitVec.isLt _

/-- After its shifts an init or a flush stands at `LOW = 0`. -/
theorem rcShift_four_low {c d : Coder} (h : rcShift 4 c = some d) : d.low.toNat = 0 := by
  obtain ⟨hlow, -⟩ := rcShift_low h
  rw [hlow, shifted]
  omega

/-- The two procedures of four shifts end in the whole range above `LOW = 0`, or in the range there was. -/
theorem rcShift_four_coderInv {c d : Coder} (h : rcShift 4 c = some d) (hr : 2 ^ 16 ≤ c.range.toNat) : CoderInv d := by
  obtain ⟨-, hrange⟩ := rcShift_low h
  have hlt := c.range.isLt
  exact ⟨hrange ▸ hr, by rw [rcShift_four_low h, hrange]; omega⟩

/-- A coder that starts has the whole range (R510, R511). -/
theorem freshCoder_coderInv (mode : RcMode) (c : Coder) : CoderInv (freshCoder mode c) :=
  ⟨by rw [freshCoder_range]; decide, by rw [freshCoder_low, freshCoder_range]; decide⟩

theorem reset_coderInv : CoderInv Coder.reset := ⟨by decide, by decide⟩

/-- A command on neither stream leaves the coder, or is RESET. -/
theorem exec_coder_other {i : Instr} {s t : State} (h : exec i s = .next t) (henc : needsEnc i = false)
    (htake : takesInput i = false) (hinit : i ≠ .rcEncInit) : t.coder = s.coder ∨ t.coder = Coder.reset := by
  obtain ⟨_, _, rfl⟩ | hc := exec_frame h
  · exact .inl rfl
  · obtain rfl | hwrites | hkeeps := hc.coder_cases
    · cases hc
      exact .inr rfl
    · simp only [takesInput, Bool.or_eq_false_iff, beq_eq_false_iff_ne] at htake
      simp [hinit, htake.1, htake.2, henc] at hwrites
    · exact .inl hkeeps

/-- Every command keeps the coder's invariants. -/
theorem exec_keeps_coderInv {i : Instr} {s t : State} (h : exec i s = .next t) (hs : CoderInv s.coder)
    (hm : ModelOk s.model) : CoderInv t.coder := by
  have model : ∀ checks : List Check, needModel s ∈ checks → (∀ c ∈ checks, c.1 = false) → ModelInv s.model :=
    fun _ hmem hc => hm.constructed (needModel_passes.mp (hc _ hmem))
  have others := exec_coder_other h
  unfold exec at h
  cases i with
  | rcEncInit =>
    refine command_coderInv h hs fun _ u hu => ?_
    cases hu
    exact ⟨(freshCoder_coderInv .enc s.coder).range_ge, (freshCoder_coderInv .enc s.coder).no_wrap⟩
  | rcDecInit =>
    refine command_coderInv h hs fun _ u hu => ?_
    obtain ⟨c, hc, rfl⟩ := withCoder_eq_some.mp hu
    exact rcShift_four_coderInv hc (freshCoder_coderInv .dec s.coder).range_ge
  | rcFinish =>
    refine command_coderInv h hs fun _ u hu => ?_
    split at hu
    · cases hu
    · next hc =>
      cases hu
      obtain ⟨hge, hwrap⟩ := rcShift_four_coderInv hc hs.range_ge
      exact ⟨hge, hwrap⟩
  | rcEncBit b =>
    refine command_coderInv h hs fun _ u hu => ?_
    obtain ⟨c, hc, rfl⟩ := withCoder_eq_some.mp hu
    exact rcEncShift_coderInv hs (by decide) (by cases b <;> decide) hc
  | rcEncRaw n =>
    refine command_coderInv h hs fun hchecks u hu => ?_
    have hv : fitsRaw n s.din0 = true := by
      simpa [needOperand] using hchecks (needOperand (fitsRaw n s.din0)) (by simp)
    obtain ⟨c, hc, rfl⟩ := withCoder_eq_some.mp hu
    exact rcEncRaw_coderInv hs (of_decide_eq_true hv) hc
  | rcEncSym =>
    refine command_coderInv h hs fun hchecks u hu => ?_
    have hsym : s.din0.toNat < s.model.s.toNat := by
      simpa [needOperand] using hchecks (needOperand (decide (s.din0.toNat < s.model.s.toNat))) (by simp)
    obtain ⟨c, m, hc, rfl⟩ := withCoderModel_eq_some.mp hu
    exact rcEncSym_coderInv hs (model _ (by simp) hchecks) hsym hc
  | rcDecBit =>
    refine command_coderInv h hs fun _ u hu => ?_
    split at hu
    · cases hu
    · next hc => cases hu; exact rcDecShift_coderInv hs (by decide) hc
  | rcDecRaw n =>
    refine command_coderInv h hs fun _ u hu => ?_
    split at hu
    · cases hu
    · next hc => cases hu; exact rcDecRaw_coderInv hs hc
  | rcDecSym =>
    refine command_coderInv h hs fun hchecks u hu => ?_
    split at hu
    · cases hu
    · next hc => cases hu; exact rcDecSym_coderInv hs (model _ (by simp) hchecks) hc
  | resEnc =>
    refine command_coderInv h hs fun hchecks u hu => ?_
    obtain ⟨hinv, halphabet⟩ := modelInv_of_checks hm hchecks (by simp) (by simp)
    have hfits : fitsWidth s.cfg.w s.din0 = true ∧ fitsWidth s.cfg.w s.din1 = true := by
      simpa [needOperand] using And.intro (hchecks (needOperand (fitsWidth s.cfg.w s.din0)) (by simp))
        (hchecks (needOperand (fitsWidth s.cfg.w s.din1)) (by simp))
    obtain ⟨c, m, hc, rfl⟩ := withCoderModel_eq_some.mp hu
    exact resEncode_coderInv hs hinv halphabet (of_decide_eq_true hfits.1) (of_decide_eq_true hfits.2) hc
  | resDec =>
    refine command_coderInv h hs fun hchecks u hu => ?_
    split at hu
    · cases hu
    · next hc => cases hu; exact resDecode_coderInv hs (model _ (by simp) hchecks) hc
  | stepEnc =>
    refine command_coderInv h hs fun hchecks u hu => ?_
    obtain ⟨hinv, halphabet⟩ := modelInv_of_checks hm hchecks (by simp [stepChecks]) (by simp [stepChecks])
    have hwidth : s.front.w = s.cfg.w :=
      needFrontWidth_passes.mp (hchecks (needFrontWidth s) (by simp [stepChecks]))
    dsimp only at hu
    split at hu
    · cases hu
    · next hc =>
      cases hu
      exact resEncode_coderInv hs hinv halphabet (mapForwardW_lt _ _) (hwidth ▸ lorenzo_lt s.front) hc
  | stepDec =>
    refine command_coderInv h hs fun hchecks u hu => ?_
    dsimp only at hu
    split at hu
    · cases hu
    · next hc => cases hu; exact resDecode_coderInv hs (model _ (by simp [stepChecks]) hchecks) hc
  | _ =>
    obtain hkeeps | hreset := others rfl rfl nofun
    · exact hkeeps ▸ hs
    · exact hreset ▸ reset_coderInv

/-! ### Steps -/

theorem hostStep_coder {s t : State} (h : hostStep s = .next t) :
    (∃ bytes mark, t.coder = { s.coder with instream := bytes, inMark := mark }) ∨ t.coder = Coder.reset := by
  obtain rfl | ⟨_, _, -, -, rfl⟩ | ⟨_, -, -, rfl⟩ | ⟨_, -, rfl⟩ | ⟨_, _, _, _, -, -, rfl⟩ := hostStep_cases h
  · exact .inl ⟨_, _, rfl⟩
  · exact .inl ⟨_, _, rfl⟩
  · exact .inl ⟨_, _, rfl⟩
  · exact .inr rfl
  · exact .inl ⟨_, _, rfl⟩

/-- Settles O54: by the three kinds of step. -/
theorem stepKeepsTheCoderInvariants : Obligations.StepKeepsTheCoderInvariants := by
  intro s t hs hm h
  obtain ⟨-, hh⟩ | ⟨w, c, -, -, rfl⟩ | ⟨w, i, u, -, -, hu, rfl⟩ := step_cases h
  · obtain ⟨_, _, hc⟩ | hc := hostStep_coder hh
    · rw [hc]
      exact ⟨hs.range_ge, hs.no_wrap⟩
    · exact hc ▸ reset_coderInv
  · rw [settlePort_coder, raiseFault_coder]
    exact hs
  · rw [settlePort_coder]
    exact exec_keeps_coderInv hu hs hm

end Sys2Proof.Proofs
end

section
/-! PROOFS. The round trip (41_range_coder.md R520): the bytes an encoder still emits are, at every point, the code the
mirror decoder holds and the input it has left, and the code lies in the interval both share: O41. -/

namespace Sys2Proof.Proofs

open Sys2Proof.Machine Sys2Proof.Safety Sys2Proof.Laws

/-! ### The code of the bytes to come -/

/-- `CODE` where the next four bytes are those of `rest`. -/
def codeOf (rest : List Byte) : Nat := bytesValue (rest.take 4)

/-- The bytes still to come begin with a code in the encoder's interval. -/
structure Within (c : Coder) (rest : List Byte) : Prop where
  length : 4 ≤ rest.length
  ge : c.low.toNat ≤ codeOf rest
  lt : codeOf rest < c.low.toNat + c.range.toNat

/-- The decoder `d` is the mirror of the encoder `c`, which still emits `rest`: the same interval, the next four bytes
in `CODE`, the others at hand, clean flags, four bytes ahead. -/
structure Mirrors (rest : List Byte) (c d : Coder) : Prop where
  mode : d.mode = .dec
  low : d.low = c.low
  range : d.range = c.range
  code : d.code.toNat = codeOf rest
  instream : d.instream = rest.drop 4
  eofErr : d.eofErr = false
  corrupt : d.corrupt = false
  count : d.bytesIn = c.bytesOut + 4

theorem bytesValue_lt (bs : List Byte) : bytesValue bs < 256 ^ bs.length := by
  induction bs with
  | nil => decide
  | cons b bs ih =>
    have hb : b.toNat < 2 ^ 8 := b.isLt
    have hle : (b.toNat + 1) * 256 ^ bs.length ≤ 256 * 256 ^ bs.length := Nat.mul_le_mul_right _ hb
    rw [bytesValue_cons, List.length_cons, Nat.pow_succ, Nat.mul_comm _ 256]
    rw [Nat.add_mul] at hle
    omega

theorem codeOf_lt {rest : List Byte} (h : 4 ≤ rest.length) : codeOf rest < 2 ^ 32 := by
  have hlt := bytesValue_lt (rest.take 4)
  rwa [List.length_take, Nat.min_eq_left h] at hlt

/-! ### The bytes a normalization shifts out -/

/-- The first `n` bytes shifted out of `low`. -/
def outBytes (low n : Nat) : List Byte := (List.range n).map fun i => BitVec.ofNat 8 (topByte (shifted low i))

theorem outBytes_length (low n : Nat) : (outBytes low n).length = n := by simp [outBytes]

/-- They are the digits of `low` above what is left of it. -/
theorem outBytes_value {low : Nat} (hlow : low < 2 ^ 32) (n : Nat) :
    low * 256 ^ n = bytesValue (outBytes low n) * 2 ^ 32 + shifted low n := by
  induction n with
  | zero => rw [shifted_zero hlow, outBytes]; simp [bytesValue]
  | succ n ih =>
    have hbyte : (BitVec.ofNat 8 (topByte (shifted low n))).toNat = shifted low n / 2 ^ 24 := by
      have := shifted_lt low n
      rw [BitVec.toNat_ofNat, topByte, Nat.mod_eq_of_lt (by omega)]
    have hstep : shifted low (n + 1) = shifted low n * 256 % 2 ^ 32 := by rw [← shifted_shifted, shifted, Nat.pow_one]
    have hsplit : outBytes low (n + 1) = outBytes low n ++ [BitVec.ofNat 8 (topByte (shifted low n))] := by
      rw [outBytes, List.range_succ, List.map_append]; rfl
    rw [Nat.pow_succ, ← Nat.mul_assoc, ih, hsplit, bytesValue_append, hstep]
    rw [List.length_singleton, Nat.pow_one, bytesValue_cons, hbyte, show bytesValue [] = 0 from rfl]
    simp only [List.length_nil, Nat.pow_zero, Nat.mul_one, Nat.add_zero]
    omega

/-- The first `n + 4` bytes, cut after `n` and cut after 4. -/
theorem codeOf_append {out rest : List Byte} (h : 4 ≤ rest.length) :
    bytesValue out * 2 ^ 32 + codeOf rest =
      codeOf (out ++ rest) * 256 ^ out.length + bytesValue (((out ++ rest).drop 4).take out.length) := by
  have hlast : (rest.take 4).length = 4 := by rw [List.length_take, Nat.min_eq_left h]
  have hnext : (((out ++ rest).drop 4).take out.length).length = out.length := by
    rw [List.length_take, List.length_drop, List.length_append]
    omega
  have hcut : out ++ rest.take 4 = (out ++ rest).take 4 ++ ((out ++ rest).drop 4).take out.length := by
    rw [← List.take_add, Nat.add_comm, List.take_length_add_append]
  have hvalue := congrArg bytesValue hcut
  rw [bytesValue_append, bytesValue_append, hlast, hnext] at hvalue
  exact hvalue

/-- The code before `n` bytes are shifted in, from the code after. -/
theorem codeOf_before {out rest : List Byte} (h : 4 ≤ rest.length) :
    codeOf (out ++ rest) = (bytesValue out * 2 ^ 32 + codeOf rest) / 256 ^ out.length := by
  have hlt := bytesValue_lt (((out ++ rest).drop 4).take out.length)
  rw [List.length_take, List.length_drop, List.length_append, Nat.min_eq_left (by omega)] at hlt
  rw [codeOf_append h, Nat.mul_comm, Nat.mul_add_div (Nat.pow_pos (by decide)), Nat.div_eq_of_lt hlt, Nat.add_zero]

/-- The code after `n` bytes are shifted in, from the code before. -/
theorem codeOf_after {out rest : List Byte} (h : 4 ≤ rest.length) :
    (codeOf (out ++ rest) * 256 ^ out.length + bytesValue (((out ++ rest).drop 4).take out.length)) % 2 ^ 32 =
      codeOf rest := by
  rw [← codeOf_append h, Nat.mul_comm, Nat.mul_add_mod, Nat.mod_eq_of_lt (codeOf_lt h)]

/-! ### Normalization on both sides -/

/-- The encoder emits `n` bytes and its mirror takes as many. -/
theorem mirrors_shift {c d : Coder} {n : Nat} {rest : List Byte} (hlength : 4 ≤ rest.length)
    (hd : Mirrors (outBytes c.low.toNat n ++ rest) c d) (r : W32) :
    rcShift n d = some (feedBytes n d) ∧
      Mirrors rest { emitBytes n c with range := r } { feedBytes n d with range := r } := by
  have hout := outBytes_length c.low.toNat n
  have hinput : d.instream.length = n + (rest.length - 4) := by
    rw [hd.instream, List.length_drop, List.length_append, hout]
    omega
  have hready : InputReady d n := .inl (by omega)
  have hnext : nextBytes d n = ((outBytes c.low.toNat n ++ rest).drop 4).take n := by
    rw [nextBytes_eq, Nat.sub_eq_zero_of_le (by omega), List.replicate_zero, List.append_nil, hd.instream]
  obtain ⟨-, hs⟩ | ⟨hr, -⟩ := rcShift_feed n (c := d) (by rw [hd.mode]; exact nofun)
  · refine ⟨hs, ⟨hd.mode, ?low, rfl, ?code, ?instream, ?eofErr, hd.corrupt, ?count⟩⟩
    case low =>
      dsimp only [feedBytes, emitBytes]
      rw [hd.low]
    case code =>
      have hafter := codeOf_after (out := outBytes c.low.toNat n) hlength
      rw [hout] at hafter
      dsimp only [feedBytes]
      rw [BitVec.toNat_ofNat, hd.code, hnext, hafter]
    case instream =>
      dsimp only [feedBytes, takeBytes]
      rw [hd.instream, List.drop_drop, List.drop_append, hout, List.drop_of_length_le (by omega), List.nil_append,
        Nat.add_sub_cancel]
    case eofErr =>
      dsimp only [feedBytes, takeBytes]
      rw [hd.eofErr, Bool.false_or, decide_eq_false (by omega)]
    case count =>
      dsimp only [feedBytes, takeBytes, emitBytes]
      rw [hd.count, Nat.min_eq_left (by omega), BitVec.add_assoc, BitVec.add_assoc, BitVec.add_comm 4]
  · exact absurd hready hr

/-- The encoder's normalization, and the mirror's on the bytes it emits. -/
theorem rcNormalize_mirrored {c : Coder} (hm : c.mode = .enc) (hi : Interval c.low.toNat c.range.toNat) :
    ∃ c' out, rcNormalize c = some c' ∧ c'.mode = .enc ∧ c'.outstream = c.outstream ++ out ∧
      ∀ rest, Within c' rest → Within c (out ++ rest) ∧
        ∀ d, Mirrors (out ++ rest) c d → ∃ d', rcNormalize d = some d' ∧ Mirrors rest c' d' := by
  obtain ⟨n, low', range', hn⟩ := hi.normalizes
  obtain ⟨-, hrange, hwrap⟩ := normalizesTo_restores hn hi
  have hlow := normalizesTo_low_eq hn
  have hlow_toNat : (BitVec.ofNat 32 (shifted c.low.toNat n)).toNat = low' := by
    rw [BitVec.toNat_ofNat, Nat.mod_eq_of_lt (shifted_lt _ _), hlow]
  have hrange_toNat : (BitVec.ofNat 32 range').toNat = range' := by rw [BitVec.toNat_ofNat, Nat.mod_eq_of_lt hrange]
  refine ⟨{ emitBytes n c with range := BitVec.ofNat 32 range' }, outBytes c.low.toNat n,
    by rw [rcNormalize_eq hn, rcShift_enc n hm, Option.map_some], hm, rfl, fun rest hrest => ?_⟩
  obtain ⟨hlength, hge, hlt⟩ := hrest
  dsimp only [emitBytes] at hge hlt
  rw [hlow_toNat] at hge hlt
  rw [hrange_toNat] at hlt
  refine ⟨?_, fun d hd => ?_⟩
  · have hbefore := normalizesTo_code_within hn hi (hlow ▸ outBytes_value c.low.isLt n) ⟨hge, hlt⟩
    have hcode := codeOf_before (out := outBytes c.low.toNat n) hlength
    rw [outBytes_length] at hcode
    rw [← hcode] at hbefore
    exact ⟨by rw [List.length_append]; omega, hbefore.1, hbefore.2⟩
  · obtain ⟨hs, hd'⟩ := mirrors_shift hlength hd (BitVec.ofNat 32 range')
    rw [← hd.low, ← hd.range] at hn
    exact ⟨_, by rw [rcNormalize_eq hn, hs, Option.map_some], hd'⟩

/-! ### Narrowings on both sides -/

/-- From the encoder `c` to `c'` the value `v` is coded: whatever the encoder emits afterwards, the bytes emitted
between `c` and `c'` make the mirror's `decode` give `v` back and end as the mirror of `c'`. -/
def Carries {α : Type} (decode : Coder → Option (α × Coder)) (v : α) (c c' : Coder) : Prop :=
  ∃ out, c'.outstream = c.outstream ++ out ∧ ∀ rest, Within c' rest → Within c (out ++ rest) ∧
    ∀ d, Mirrors (out ++ rest) c d → ∃ d', decode d = some (v, d') ∧ Mirrors rest c' d'

/-- One coded value after another. -/
theorem Carries.bind {α β γ : Type} {f : Coder → Option (α × Coder)} {g : Coder → Option (β × Coder)} {v : α} {w : β}
    {c d e : Coder} (k : α → β → γ) (hf : Carries f v c d) (hg : Carries g w d e) :
    Carries (fun x => (f x).bind fun r => (g r.2).map fun r' => (k r.1 r'.1, r'.2)) (k v w) c e := by
  obtain ⟨out, hout, hback⟩ := hf
  obtain ⟨out', hout', hback'⟩ := hg
  refine ⟨out ++ out', by rw [hout', hout, List.append_assoc], fun rest hrest => ?_⟩
  obtain ⟨hmid, hmirror'⟩ := hback' rest hrest
  obtain ⟨hstart, hmirror⟩ := hback (out' ++ rest) hmid
  rw [List.append_assoc]
  refine ⟨hstart, fun x hx => ?_⟩
  obtain ⟨y, hy, hmy⟩ := hmirror x hx
  obtain ⟨z, hz, hmz⟩ := hmirror' y hmy
  exact ⟨z, by dsimp only; rw [hy, Option.bind_some, hz, Option.map_some], hmz⟩

theorem Carries.map {α β : Type} {f : Coder → Option (α × Coder)} {v : α} {c d : Coder} (k : α → β)
    (hf : Carries f v c d) : Carries (fun x => (f x).map fun r => (k r.1, r.2)) (k v) c d := by
  obtain ⟨out, hout, hback⟩ := hf
  refine ⟨out, hout, fun rest hrest => ?_⟩
  obtain ⟨hstart, hmirror⟩ := hback rest hrest
  refine ⟨hstart, fun x hx => ?_⟩
  obtain ⟨y, hy, hmy⟩ := hmirror x hx
  exact ⟨y, by dsimp only; rw [hy, Option.map_some], hmy⟩

theorem within_of_narrowed {c : Coder} (h : CoderInv c) {n : Nat} {v f : W32} (hn : n ≤ 16) (hf : 1 ≤ f.toNat)
    (hv : v.toNat + f.toNat ≤ 2 ^ n) {rest : List Byte} (hw : Within (narrowed n v f c) rest) : Within c rest := by
  obtain ⟨hlow, hrange⟩ := narrowed_toNat h hn hf hv
  obtain ⟨hlength, hge, hlt⟩ := hw
  rw [hlow] at hge hlt
  rw [hrange, Nat.add_assoc, ← Nat.mul_add] at hlt
  have hparts : c.range.toNat / 2 ^ n * (v.toNat + f.toNat) ≤ c.range.toNat :=
    (Nat.mul_le_mul_left _ hv).trans (Nat.div_mul_le_self _ _)
  exact ⟨hlength, by omega, by omega⟩

/-- The mirror's quotient lies in the parts the encoder has narrowed to, so it is never clamped (R506, R532). -/
theorem mirrors_quotient {c d : Coder} (h : CoderInv c) {n : Nat} {v f : W32} (hn : n ≤ 16) (hf : 1 ≤ f.toNat)
    (hv : v.toNat + f.toNat ≤ 2 ^ n) {rest : List Byte} (hw : Within (narrowed n v f c) rest)
    (hd : Mirrors rest c d) :
    v.toNat ≤ (partQuotient n d).1.toNat ∧ (partQuotient n d).1.toNat < v.toNat + f.toNat ∧
      (partQuotient n d).2 = false := by
  have hinv : CoderInv d := ⟨hd.range ▸ h.range_ge, hd.low ▸ hd.range ▸ h.no_wrap⟩
  have hpart : 0 < c.range.toNat / 2 ^ n := part_pos h hn
  obtain ⟨hlow, hrange⟩ := narrowed_toNat h hn hf hv
  obtain ⟨hlength, hge, hlt⟩ := hw
  rw [hlow] at hge hlt
  rw [hrange, Nat.add_assoc, ← Nat.mul_add] at hlt
  have hcode := codeOf_lt hlength
  have hquotient : quotientNat d (d.range.toNat / 2 ^ n) =
      (codeOf rest - c.low.toNat) / (c.range.toNat / 2 ^ n) := by
    rw [quotientNat, hd.code, hd.low, hd.range, show codeOf rest + 2 ^ 32 - c.low.toNat =
      codeOf rest - c.low.toNat + 2 ^ 32 by omega, Nat.add_mod_right, Nat.mod_eq_of_lt (by omega)]
  have hat : v.toNat ≤ (codeOf rest - c.low.toNat) / (c.range.toNat / 2 ^ n) := by
    rw [Nat.le_div_iff_mul_le hpart, Nat.mul_comm]
    omega
  have hbelow : (codeOf rest - c.low.toNat) / (c.range.toNat / 2 ^ n) < v.toNat + f.toNat := by
    rw [Nat.div_lt_iff_lt_mul hpart, Nat.mul_comm]
    omega
  obtain ⟨hq, hbad⟩ := partQuotient_eq hinv hn
  rw [hquotient] at hq hbad
  exact ⟨by omega, by omega, by rw [hbad, decide_eq_false (by omega)]⟩

/-- A narrowing carries a value, if the mirror's quotient in the narrowed parts makes its decode narrow alike and give
that value. -/
theorem narrowed_carries {α : Type} {decode : Coder → Option (α × Coder)} {val : α} {c : Coder} (h : CoderInv c)
    (hm : c.mode = .enc) {n : Nat} {v f : W32} (hn : n ≤ 16) (hf : 1 ≤ f.toNat) (hv : v.toNat + f.toNat ≤ 2 ^ n)
    (hdecode : ∀ d : Coder, d.eofErr = false → v.toNat ≤ (partQuotient n d).1.toNat →
      (partQuotient n d).1.toNat < v.toNat + f.toNat →
      decode d = (rcNormalize (narrowed n v f { d with corrupt := d.corrupt || (partQuotient n d).2 })).map
        fun d' => (val, d')) :
    ∃ c', rcNormalize (narrowed n v f c) = some c' ∧ c'.mode = .enc ∧ CoderInv c' ∧ Carries decode val c c' := by
  obtain ⟨c', out, hc, hm', hout, hback⟩ := rcNormalize_mirrored (c := narrowed n v f c) hm
    (narrowed_interval h hn hf hv)
  refine ⟨c', hc, hm', narrowed_coderInv h hn hf hv hc, out, hout, fun rest hrest => ?_⟩
  obtain ⟨hwithin, hmirror⟩ := hback rest hrest
  refine ⟨within_of_narrowed h hn hf hv hwithin, fun d hd => ?_⟩
  obtain ⟨hat, hbelow, hclean⟩ := mirrors_quotient h hn hf hv hwithin hd
  have hnarrowed : Mirrors (out ++ rest) (narrowed n v f c)
      (narrowed n v f { d with corrupt := d.corrupt || (partQuotient n d).2 }) :=
    { mode := hd.mode
      low := by dsimp only [narrowed]; rw [hd.low, hd.range]
      range := by dsimp only [narrowed]; rw [hd.range]
      code := hd.code
      instream := hd.instream
      eofErr := hd.eofErr
      corrupt := by dsimp only [narrowed]; rw [hd.corrupt, hclean, Bool.or_false]
      count := hd.count }
  obtain ⟨d', hd', hmirrors⟩ := hmirror _ hnarrowed
  exact ⟨d', by rw [hdecode d hd.eofErr hat hbelow, hd', Option.map_some], hmirrors⟩

/-! ### Bits, raw fields and symbols on both sides -/

theorem rcEncShift_carries {c : Coder} (h : CoderInv c) (hm : c.mode = .enc) {n : Nat} {v : W32} (hn : n ≤ 16)
    (hv : v.toNat < 2 ^ n) :
    ∃ c', rcEncShift v n c = some c' ∧ c'.mode = .enc ∧ CoderInv c' ∧ Carries (rcDecShift n) v c c' := by
  rw [rcEncShift_eq]
  refine narrowed_carries h hm (f := 1) hn (Nat.le_refl 1) hv fun d he hat hbelow => ?_
  have hq : (partQuotient n d).1 = v := BitVec.eq_of_toNat_eq (by rw [one_toNat] at hbelow; omega)
  rw [rcDecShift_eq he, hq]

/-- A raw field of at most 16 bits on both sides. -/
theorem rcEncRaw_chunk_carries {n : Nat} {v : W64} {c : Coder} (h : CoderInv c) (hm : c.mode = .enc) (hn : n ≤ 16)
    (hv : v.toNat < 2 ^ n) :
    ∃ c', rcEncRaw v n c = some c' ∧ c'.mode = .enc ∧ CoderInv c' ∧ Carries (rcDecRaw n) v c c' := by
  have hv32 := chunk_toNat hn hv
  have hzext : zext (v.setWidth 32) = v := BitVec.eq_of_toNat_eq (by rw [zext_toNat_32, hv32])
  have hdecode : rcDecRaw n = fun d => (rcDecShift n d).map fun r => (zext r.1, r.2) := funext (rcDecRaw_of_le hn)
  obtain ⟨c', hc, hm', hinv, hcarries⟩ := rcEncShift_carries h hm hn (v := v.setWidth 32) (by rwa [hv32])
  refine ⟨c', by rw [rcEncRaw_of_le hn, hc], hm', hinv, ?_⟩
  rw [hdecode]
  exact hzext ▸ hcarries.map zext

theorem joinChunk_chunks (v : W64) : joinChunk (v &&& 0xFFFF) (v >>> 16) = v := by
  apply BitVec.eq_of_toNat_eq
  rw [joinChunk_eq (lowChunk_lt v), lowChunk_eq, highChunk_toNat, BitVec.toNat_ofNat, BitVec.toNat_ofNat]
  omega

theorem rcEncRaw_carries {n : Nat} {v : W64} {c : Coder} (h : CoderInv c) (hm : c.mode = .enc) (hv : v.toNat < 2 ^ n) :
    ∃ c', rcEncRaw v n c = some c' ∧ c'.mode = .enc ∧ CoderInv c' ∧ Carries (rcDecRaw n) v c c' := by
  induction n using chunk_induction generalizing v c with
  | last n hn => exact rcEncRaw_chunk_carries h hm hn hv
  | chunk n hn ih =>
    have hdecode : rcDecRaw n = fun d =>
        (rcDecRaw 16 d).bind fun r => (rcDecRaw (n - 16) r.2).map fun r' => (joinChunk r.1 r'.1, r'.2) :=
      funext (rcDecRaw_of_lt hn)
    obtain ⟨d, hd, hmd, hinvd, hlow⟩ := rcEncRaw_chunk_carries h hm (Nat.le_refl 16) (lowChunk_lt v)
    obtain ⟨c', hc, hm', hinv, hhigh⟩ := ih hinvd hmd (highChunk_lt hn hv)
    rw [rcEncRaw_of_le (Nat.le_refl 16)] at hd
    refine ⟨c', by rw [rcEncRaw_of_lt hn, hd, Option.bind_some, hc], hm', hinv, ?_⟩
    rw [hdecode, ← joinChunk_chunks v]
    exact hlow.bind joinChunk hhigh

/-- A symbol decode's value is the symbol and the model after it. -/
def decodeSym (m : Model) (d : Coder) : Option ((Nat × Model) × Coder) :=
  (rcDecSym d m).map fun r => ((r.1, r.2.2), r.2.1)

theorem decodeSym_eq_some {m m' : Model} {d c : Coder} {sym : Nat} :
    decodeSym m d = some ((sym, m'), c) ↔ rcDecSym d m = some (sym, c, m') := by
  unfold decodeSym
  cases rcDecSym d m with
  | none => simp
  | some r => simp only [Option.map_some, Option.some.injEq, Prod.ext_iff]; tauto

theorem rcEncSym_carries {sym : Nat} {c : Coder} {m : Model} (h : CoderInv c) (hm : c.mode = .enc)
    (hmodel : ModelInv m) (hs : sym < m.s.toNat) :
    ∃ c', rcEncSym sym c m = some (c', qsmTick sym m) ∧ c'.mode = .enc ∧ CoderInv c' ∧
      Carries (decodeSym m) (sym, qsmTick sym m) c c' := by
  obtain ⟨c', hc, hrest⟩ := narrowed_carries (decode := decodeSym m) (val := (sym, qsmTick sym m)) h hm
    hmodel.bits.2 (freqAt_pos hmodel hs) (symbol_fits hmodel hs) fun d he hat hbelow => by
      have hsym : decodedSymbol d m = sym :=
        querySymbol_eq hmodel hs ⟨hat, by rw [← freqAt_toNat hmodel hs]; exact hbelow⟩
      rw [decodeSym, rcDecSym_eq he, hsym, Option.map_map]
      rfl
  exact ⟨c', by rw [rcEncSym_eq, hc, Option.map_some], hrest⟩

/-! ### Items and runs of items -/

/-- A block that encodes: not halted, in mode ENC, coder and model with their invariants. -/
structure Encoding (s : State) : Prop where
  running : s.faults.flag = false
  mode : s.coder.mode = .enc
  coder : CoderInv s.coder
  valid : s.model.valid = true
  model : ModelInv s.model

/-- The decoding block `d` mirrors the encoding block `s`, which still emits `rest`. -/
structure MirrorState (rest : List Byte) (s d : State) : Prop where
  running : d.faults.flag = false
  model : d.model = s.model
  coder : Mirrors rest s.coder d.coder

/-- From the block `s` to `t` an encoder has coded `values`: whatever it emits afterwards, `decode` on the mirror of `s`
returns them and ends in the mirror of `t`. -/
def Returns {α : Type} (decode : State → Option (α × State)) (values : α) (s t : State) : Prop :=
  ∃ out, t.coder.outstream = s.coder.outstream ++ out ∧ ∀ rest, Within t.coder rest →
    Within s.coder (out ++ rest) ∧ ∀ d, MirrorState (out ++ rest) s d →
      ∃ d', decode d = some (values, d') ∧ MirrorState rest t d'

/-- The decode command of an item, with what it leaves in DOUT0. -/
def decodeOp (op : CoderOp) (d : State) : Option (W64 × State) :=
  match exec op.decoder d with
  | .next t => some (t.dout0, t)
  | .fault _ => none
  | .refused _ => none

theorem decodeOp_eq {op : CoderOp} {d t : State} (h : exec op.decoder d = .next t) :
    decodeOp op d = some (t.dout0, t) := by
  simp only [decodeOp, h]

/-- A procedure that carries a value makes its command return it. -/
theorem returns_of_carries {α : Type} {decode : Coder → Option (α × Coder)} {v : α} {op : CoderOp} {s : State}
    {c : Coder} {m : Model} (hc : Carries decode v s.coder c)
    (hexec : ∀ d c', d.faults.flag = false → d.coder.mode = .dec → d.model = s.model → decode d.coder = some (v, c') →
      exec op.decoder d = .next { d with coder := c', model := m, dout0 := op.value }) :
    Returns (decodeOp op) op.value s { s with din0 := op.value, coder := c, model := m } := by
  obtain ⟨out, hout, hback⟩ := hc
  refine ⟨out, hout, fun rest hrest => ?_⟩
  obtain ⟨hstart, hmirror⟩ := hback rest hrest
  refine ⟨hstart, fun d hd => ?_⟩
  obtain ⟨c', hc', hmirrors⟩ := hmirror d.coder hd.coder
  exact ⟨_, decodeOp_eq (hexec d c' hd.running hd.coder.mode hd.model hc'), hd.running, rfl, hmirrors⟩

/-- An encode command of a legal item, and its mirror. -/
theorem encodeOp_returns {s : State} (h : Encoding s) {op : CoderOp} (hl : op.Legal s.model.s.toNat) :
    ∃ t, exec op.encoder { s with din0 := op.value } = .next t ∧ Encoding t ∧ t.model.s = s.model.s ∧
      Returns (decodeOp op) op.value s t := by
  obtain ⟨hf, hm, hcoder, hvalid, hmodel⟩ := h
  cases op with
  | bit b =>
    have hv : (BitVec.ofNat 32 b.toNat).toNat < 2 ^ 1 := by cases b <;> decide
    have hzext : zext (BitVec.ofNat 32 b.toNat) = BitVec.ofNat 64 b.toNat := by cases b <;> decide
    obtain ⟨c, hc, hmc, hinv, hcarries⟩ := rcEncShift_carries hcoder hm (n := 1) (by decide) hv
    refine ⟨{ s with din0 := BitVec.ofNat 64 b.toNat, coder := c }, ?_, ⟨hf, hmc, hinv, hvalid, hmodel⟩, rfl, ?_⟩
    · exact exec_rcEncBit_completes (s := { s with din0 := BitVec.ofNat 64 b.toNat }) hf hm hc
    · refine returns_of_carries (op := .bit b) (m := s.model) hcarries fun d c' hfd hmd hdm hd => ?_
      exact (exec_rcDecBit_completes hfd hmd hd).trans (by rw [← hdm, hzext]; rfl)
  | raw n v =>
    obtain ⟨hn, hv⟩ := hl
    obtain ⟨c, hc, hmc, hinv, hcarries⟩ := rcEncRaw_carries hcoder hm hv
    refine ⟨{ s with din0 := v, coder := c }, ?_, ⟨hf, hmc, hinv, hvalid, hmodel⟩, rfl, ?_⟩
    · exact exec_rcEncRaw_completes (s := { s with din0 := v }) hf hm hn hv hc
    · refine returns_of_carries (op := .raw n v) (m := s.model) hcarries fun d c' hfd hmd hdm hd => ?_
      exact (exec_rcDecRaw_completes hfd hmd hn hd).trans (by rw [← hdm]; rfl)
  | sym x =>
    obtain ⟨c, hc, hmc, hinv, hcarries⟩ := rcEncSym_carries hcoder hm hmodel hl
    refine ⟨{ s with din0 := x, coder := c, model := qsmTick x.toNat s.model }, ?_,
      ⟨hf, hmc, hinv, by rw [qsmTick_valid]; exact hvalid, qsmTick_modelInv hmodel hl⟩, qsmTick_s .., ?_⟩
    · exact exec_rcEncSym_completes (s := { s with din0 := x }) hf hm hvalid hl hc
    · refine returns_of_carries (op := .sym x) hcarries fun d c' hfd hmd hdm hd => ?_
      have hsym := decodeSym_eq_some.mp hd
      rw [← hdm] at hsym
      refine (exec_rcDecSym_completes hfd hmd (hdm ▸ hvalid) hsym).trans ?_
      rw [BitVec.ofNat_toNat, BitVec.setWidth_eq, hdm]
      rfl

theorem decodeAll_cons {op : CoderOp} {ops : List CoderOp} {d d₁ d₂ : State} {v : W64} {vs : List W64}
    (h : decodeOp op d = some (v, d₁)) (h' : decodeAll ops d₁ = some (vs, d₂)) :
    decodeAll (op :: ops) d = some (v :: vs, d₂) := by
  unfold decodeOp at h
  split at h
  · next t ht =>
    cases h
    simp only [decodeAll, ht, h']
  · cases h
  · cases h

/-- Runs of items: what the encoder codes the mirror returns, in order. -/
theorem encodeAll_returns {ops : List CoderOp} {s : State} (h : Encoding s)
    (hl : ∀ op ∈ ops, op.Legal s.model.s.toNat) :
    ∃ t, encodeAll ops s = some t ∧ Encoding t ∧ Returns (decodeAll ops) (ops.map CoderOp.value) s t := by
  induction ops generalizing s with
  | nil =>
    exact ⟨s, rfl, h, [], (List.append_nil _).symm, fun rest hrest => ⟨hrest, fun d hd => ⟨d, rfl, hd⟩⟩⟩
  | cons op ops ih =>
    obtain ⟨hop, hops⟩ := List.forall_mem_cons.mp hl
    obtain ⟨t, ht, henc, hs, out, hout, hback⟩ := encodeOp_returns h hop
    obtain ⟨u, hu, henc', out', hout', hback'⟩ := ih henc (hs ▸ hops)
    refine ⟨u, by rw [encodeAll, ht]; exact hu, henc', out ++ out', by rw [hout', hout, List.append_assoc],
      fun rest hrest => ?_⟩
    obtain ⟨hmid, hmirror'⟩ := hback' rest hrest
    obtain ⟨hstart, hmirror⟩ := hback (out' ++ rest) hmid
    rw [List.append_assoc]
    refine ⟨hstart, fun d hd => ?_⟩
    obtain ⟨d₁, hd₁, hm₁⟩ := hmirror d hd
    obtain ⟨d₂, hd₂, hm₂⟩ := hmirror' d₁ hm₁
    exact ⟨d₂, decodeAll_cons hd₁ hd₂, hm₂⟩

/-! ### The start and the end -/

/-- The encoder as RC_ENC_INIT leaves it (R510). -/
theorem encoding_init {e : State} (hf : e.faults.flag = false) (hv : e.model.valid = true) (hm : ModelInv e.model) :
    Encoding { e with coder := { freshCoder .enc e.coder with bytesOut := 0 } } where
  running := hf
  mode := rfl
  coder := ⟨(freshCoder_coderInv .enc e.coder).range_ge, (freshCoder_coderInv .enc e.coder).no_wrap⟩
  valid := hv
  model := hm

/-- The bytes of the flush are the code at the interval's start (R518). -/
theorem within_flush {c : Coder} (h : CoderInv c) : Within c (outBytes c.low.toNat 4) := by
  have hvalue := outBytes_value c.low.isLt 4
  have hzero : shifted c.low.toNat 4 = 0 := by rw [shifted]; omega
  have hcode : codeOf (outBytes c.low.toNat 4) = c.low.toNat := by
    rw [codeOf, List.take_of_length_le (outBytes_length _ _).le]
    omega
  have hpos := h.range_ge
  exact ⟨(outBytes_length _ _).ge, hcode.ge, by omega⟩

/-- RC_DEC_INIT on bytes that begin with a code makes the mirror of the encoder as RC_ENC_INIT leaves it (R511). -/
theorem decInit_mirrors {e d : State} (hf : d.faults.flag = false) (hm : d.model = e.model)
    (hlen : 4 ≤ d.coder.instream.length) :
    ∃ d₁, exec .rcDecInit d = .next d₁ ∧
      MirrorState d.coder.instream { e with coder := { freshCoder .enc e.coder with bytesOut := 0 } } d₁ := by
  obtain ⟨-, hready, -⟩ := initCommandsStartTheCoder d hf
  have hnext : nextBytes d.coder 4 = d.coder.instream.take 4 := by
    rw [nextBytes_eq, Nat.sub_eq_zero_of_le hlen, List.replicate_zero, List.append_nil]
  refine ⟨_, hready (.inl hlen), hf, hm, rfl, rfl, rfl, ?code, rfl, decide_eq_false (by omega), rfl, ?count⟩
  case code =>
    dsimp only
    rw [hnext, BitVec.toNat_ofNat]
    exact Nat.mod_eq_of_lt (codeOf_lt hlen)
  case count =>
    dsimp only
    rw [Nat.min_eq_left hlen]
    rfl

/-- Settles O41: the flush is the code the encoder ends with, and every code in the interval at the end, with the bytes
emitted before it, makes the mirror return what was coded since the start. -/
theorem mirrorDecodesReturnTheEncodedValues : Obligations.MirrorDecodesReturnTheEncodedValues := by
  intro ops e d hfe hfd hvalid hmodel hdm hlegal _
  have hinit := encoding_init hfe hvalid hmodel
  obtain ⟨e₂, he₂, henc, out, hout, hback⟩ := encodeAll_returns hinit hlegal
  obtain ⟨hstart, hmirror⟩ := hback _ (within_flush henc.coder)
  refine ⟨_, e₂, _, exec_rcEncInit hfe, he₂, exec_rcFinish henc.running henc.mode, fun hbytes => ?_⟩
  have hinput : d.coder.instream = out ++ outBytes e₂.coder.low.toNat 4 := by
    have hemitted : e₂.coder.outstream ++ outBytes e₂.coder.low.toNat 4 = e.coder.outstream ++ d.coder.instream :=
      hbytes
    rw [hout, List.append_assoc] at hemitted
    exact (List.append_cancel_left hemitted).symm
  obtain ⟨d₁, hd₁, hm₁⟩ := decInit_mirrors (e := e) hfd hdm (hinput ▸ hstart.length)
  rw [hinput] at hm₁
  obtain ⟨d₂, hd₂, hm₂⟩ := hmirror d₁ hm₁
  refine ⟨d₁, d₂, hd₁, hd₂, hm₂.coder.eofErr, hm₂.coder.corrupt, ?_, hm₂.coder.count⟩
  rw [hm₂.coder.instream, List.drop_of_length_le (outBytes_length _ _).le]

end Sys2Proof.Proofs
end

section
/-! PROOFS. QSM_INIT and QSM_RESET (42_qsmodel.md R601 to R603): the uniform frequencies a reset starts from, the model
its rescale makes of them, and that this model is the only one with these parameters: O42, O43. -/

namespace Sys2Proof.Proofs

open Sys2Proof.Machine Sys2Proof.Safety Sys2Proof.Laws

/-! ### The uniform frequencies (R602) -/

/-- `s` frequencies `f`, the first `e` of them one more. -/
def uniformTable (s e : Nat) (f : W32) : List W32 := List.replicate e (f + 1) ++ List.replicate (s - e) f

theorem uniformTable_length {s e : Nat} (he : e ≤ s) (f : W32) : (uniformTable s e f).length = s := by
  rw [uniformTable, List.length_append, List.length_replicate, List.length_replicate]
  omega

theorem uniformTable_getElem {s e : Nat} (f : W32) {i : Nat} (hi : i < (uniformTable s e f).length) :
    (uniformTable s e f)[i] = if i < e then f + 1 else f := by
  simp only [uniformTable, List.getElem_append, List.length_replicate, List.getElem_replicate, dite_eq_ite]

theorem tableSum_replicate (n : Nat) (f : W32) : tableSum (List.replicate n f) = n * f.toNat := by
  simp [tableSum]

theorem tableSum_uniformTable_take {s e i : Nat} {f : W32} (he : e ≤ s) (hi : i ≤ s)
    (hf : (f + 1).toNat = f.toNat + 1) :
    tableSum ((uniformTable s e f).take i) = i * f.toNat + min i e := by
  have hsplit : i = min i e + min (i - e) (s - e) := by omega
  have hsum : tableSum ((uniformTable s e f).take i) = min i e * (f.toNat + 1) + min (i - e) (s - e) * f.toNat := by
    rw [uniformTable, List.take_append, List.take_replicate, List.take_replicate, List.length_replicate, tableSum,
      List.map_append, List.sum_append, ← tableSum, ← tableSum, tableSum_replicate, tableSum_replicate, hf]
  calc tableSum ((uniformTable s e f).take i)
      = (min i e + min (i - e) (s - e)) * f.toNat + min i e := by rw [hsum]; ring
    _ = i * f.toNat + min i e := by rw [← hsplit]

/-! ### What a reset starts from -/

/-- The parameters are ones QSM_INIT accepts, and the entries a rescale keeps are in place (R601). -/
structure ResetReady (m : Model) : Prop where
  bits : 7 ≤ m.bits.toNat ∧ m.bits.toNat ≤ 16
  alphabet : 1 ≤ m.s.toNat ∧ m.s.toNat ≤ 2 ^ m.bits.toNat
  period : rescaleInit m.s.toNat ≤ m.period.toNat
  cumf_length : m.cumf.length = m.s.toNat + 1
  cumf_zero : cumfAt m 0 = 0
  cumf_top : (cumfAt m m.s.toNat).toNat = 2 ^ m.bits.toNat
  search_length : m.search.length = 129
  sentinel : searchAt m 128 = m.s.toNat - 1

theorem resetReady_of_modelInv {m : Model} (h : ModelInv m) : ResetReady m :=
  ⟨h.bits, h.alphabet, h.epoch.1.trans h.epoch.2, h.cumf_length, h.cumf_zero, h.cumf_top, h.search.length,
    h.search.sentinel⟩

/-- The model `QSM_Reset` updates: uniform frequencies, the first epoch, no pending symbols (R602). -/
def uniformStart (m : Model) : Model :=
  { m with
    rescale := BitVec.ofNat 32 (rescaleInit m.s.toNat)
    more := 0
    symf := uniformTable m.s.toNat (rem (modelTotal m) m.s).toNat (quot (modelTotal m) m.s) }

theorem qsmReset_eq (m : Model) : qsmReset m = rescale (uniformStart m) :=
  (show qsmReset m = qsmUpdate (uniformStart m) from rfl).trans (qsmUpdate_rescales rfl)

section
variable {m : Model} (h : ResetReady m)
include h

theorem ResetReady.quot_toNat : (quot (modelTotal m) m.s).toNat = 2 ^ m.bits.toNat / m.s.toNat := by
  rw [Proofs.quot_toNat h.alphabet.1, modelTotal_toNat h.bits.2]

theorem ResetReady.rem_toNat : (rem (modelTotal m) m.s).toNat = 2 ^ m.bits.toNat % m.s.toNat := by
  rw [Proofs.rem_toNat h.alphabet.1, modelTotal_toNat h.bits.2]

theorem ResetReady.rem_le : (rem (modelTotal m) m.s).toNat ≤ m.s.toNat :=
  h.rem_toNat ▸ (Nat.mod_lt _ h.alphabet.1).le

/-- The larger of the two frequencies does not wrap (R616). -/
theorem ResetReady.quot_succ_toNat :
    (quot (modelTotal m) m.s + 1).toNat = (quot (modelTotal m) m.s).toNat + 1 := by
  have hle : 2 ^ m.bits.toNat ≤ 2 ^ 16 := Nat.pow_le_pow_right (by decide) h.bits.2
  have hdiv : 2 ^ m.bits.toNat / m.s.toNat ≤ 2 ^ m.bits.toNat := Nat.div_le_self _ _
  rw [BitVec.toNat_add, one_toNat, h.quot_toNat, Nat.mod_eq_of_lt (by omega)]

theorem ResetReady.uniformStart_length : (uniformStart m).symf.length = m.s.toNat :=
  uniformTable_length h.rem_le _

theorem ResetReady.uniformStart_take {i : Nat} (hi : i ≤ m.s.toNat) :
    tableSum ((uniformStart m).symf.take i) =
      i * (2 ^ m.bits.toNat / m.s.toNat) + min i (2 ^ m.bits.toNat % m.s.toNat) := by
  rw [← h.quot_toNat, ← h.rem_toNat]
  exact tableSum_uniformTable_take h.rem_le hi h.quot_succ_toNat

theorem ResetReady.uniformStart_getElem {i : Nat} (hi : i < (uniformStart m).symf.length) :
    ((uniformStart m).symf[i]).toNat =
      2 ^ m.bits.toNat / m.s.toNat + if i < 2 ^ m.bits.toNat % m.s.toNat then 1 else 0 := by
  rw [← h.quot_toNat, ← h.rem_toNat]
  have hget : (uniformStart m).symf[i] = _ := uniformTable_getElem _ hi
  rw [hget]
  split
  · exact h.quot_succ_toNat
  · rfl

/-- The frequencies with their remainder make up `2^BITS`. -/
theorem ResetReady.shares_eq :
    m.s.toNat * (2 ^ m.bits.toNat / m.s.toNat) + min m.s.toNat (2 ^ m.bits.toNat % m.s.toNat) = 2 ^ m.bits.toNat := by
  rw [Nat.min_eq_right (Nat.mod_lt _ h.alphabet.1).le, Nat.div_add_mod]

theorem ResetReady.uniformStart_rescale : (uniformStart m).rescale.toNat = rescaleInit m.s.toNat := by
  have hlt := m.period.isLt
  have hperiod := h.period
  exact Nat.mod_eq_of_lt (by omega)

/-- A reset's rescale starts from what a rescale needs. -/
theorem ResetReady.uniformStart_ready : RescaleReady (uniformStart m) where
  bits := h.bits
  alphabet := h.alphabet
  epoch := by
    rw [h.uniformStart_rescale]
    exact ⟨Nat.le_refl _, h.period⟩
  symf_length := h.uniformStart_length
  cumf_length := h.cumf_length
  symf_pos := fun f hf => by
    obtain ⟨i, hi, rfl⟩ := List.getElem_of_mem hf
    have hdiv : 1 ≤ 2 ^ m.bits.toNat / m.s.toNat := (Nat.one_le_div_iff h.alphabet.1).mpr h.alphabet.2
    rw [h.uniformStart_getElem]
    omega
  total := by
    have htake := h.uniformStart_take (Nat.le_refl _)
    rw [List.take_of_length_le h.uniformStart_length.le, h.shares_eq] at htake
    exact htake
  cumf_zero := h.cumf_zero
  cumf_top := h.cumf_top
  search_length := h.search_length
  sentinel := h.sentinel

/-- The rescale of the uniform frequencies is the model of R602. -/
theorem ResetReady.uniformModel {m' : Model} (hr : Rescaled (uniformStart m) m') :
    UniformModel m.s.toNat m.bits.toNat m.period.toNat m' where
  alphabet := congrArg BitVec.toNat hr.parameters.1
  bits := congrArg BitVec.toNat hr.parameters.2.1
  period := congrArg BitVec.toNat hr.parameters.2.2
  epoch := by
    have hperiod := h.period
    have hgrown := hr.grown
    rw [h.uniformStart_rescale, show (uniformStart m).period = m.period from rfl] at hgrown
    rw [hgrown, ← rescaleInit]
    split <;> omega
  cumulative := fun i hi => by
    obtain ⟨hzero, htop⟩ := hr.cumf_ends
    obtain rfl | rfl | ⟨hpos, hlt⟩ : i = 0 ∨ i = m.s.toNat ∨ (1 ≤ i ∧ i < m.s.toNat) := by omega
    · rw [hzero, show cumfAt (uniformStart m) 0 = 0 from h.cumf_zero, Nat.zero_mul, Nat.zero_min]
      rfl
    · rw [h.shares_eq, show cumfAt m' m.s.toNat = cumfAt m m.s.toNat from htop, h.cumf_top]
    · rw [hr.cumf_sums i hpos hlt, h.uniformStart_take hi]
  frequency := fun i hi => by
    have hlen : i < (uniformStart m).symf.length := h.uniformStart_length.symm ▸ hi
    have hlen' : i < m'.symf.length := by
      have hlength := congrArg List.length hr.halved
      rw [List.length_map, List.length_map] at hlength
      exact hlength ▸ hlen
    have hentry := List.getElem_of_eq hr.halved (by simpa using hlen')
    rw [List.getElem_map, List.getElem_map, h.uniformStart_getElem hlen] at hentry
    rw [tableAt_eq_getElem hlen', hentry]
  deficit := hr.deficit
  more_lt := hr.more_lt
  left := hr.left

theorem ResetReady.qsmReset_rescaled : Rescaled (uniformStart m) (qsmReset m) :=
  qsmReset_eq m ▸ rescale_rescaled h.uniformStart_ready

/-- A reset ends in the model's invariants (R615). -/
theorem ResetReady.qsmReset_modelInv : ModelInv (qsmReset m) :=
  modelInv_of_rescaled h.uniformStart_ready h.qsmReset_rescaled

theorem ResetReady.qsmReset_uniformModel : UniformModel m.s.toNat m.bits.toNat m.period.toNat (qsmReset m) :=
  h.uniformModel h.qsmReset_rescaled

end

/-! ### The valid bit, which no invariant speaks of -/

theorem modelInv_with_valid {m : Model} (h : ModelInv m) (b : Bool) : ModelInv { m with valid := b } :=
  { h with search := { h.search with } }

theorem uniformModel_with_valid {s b p : Nat} {m : Model} (h : UniformModel s b p m) (v : Bool) :
    UniformModel s b p { m with valid := v } :=
  { h with }

/-! ### The latching (R601) -/

section
variable {k : Csrs} (h : CsrsLegal k)
include h

theorem qsmLatch_s_toNat (m : Model) : (qsmLatch k m).s.toNat = k.qsmS.toNat := by
  obtain ⟨-, hle⟩ := h.qsmS
  rw [qsmLatch_s, BitVec.toNat_setWidth, Nat.mod_eq_of_lt (by omega)]

theorem qsmLatch_bits_toNat (m : Model) : (qsmLatch k m).bits.toNat = k.qsmBits.toNat := by
  obtain ⟨-, hle⟩ := h.qsmBits
  rw [qsmLatch_bits, BitVec.toNat_setWidth, Nat.mod_eq_of_lt (by omega)]

theorem qsmLatch_period_toNat (m : Model) : (qsmLatch k m).period.toNat = k.qsmPeriod.toNat := by
  obtain ⟨-, hle⟩ := h.qsmPeriod
  rw [qsmLatch_period, BitVec.toNat_setWidth, Nat.mod_eq_of_lt (by omega)]

/-- What QSM_INIT latches from a consistent configuration is what its reset needs. -/
theorem qsmLatch_ready {m : Model} (hlen : m.search.length = 129) (hs : k.qsmS.toNat ≤ 2 ^ k.qsmBits.toNat)
    (hp : rescaleInit k.qsmS.toNat ≤ k.qsmPeriod.toNat) : ResetReady (qsmLatch k m) := by
  have hS := qsmLatch_s_toNat h m
  have hB := qsmLatch_bits_toNat h m
  have hcumf : (qsmLatch k m).cumf =
      (0 :: List.replicate ((qsmLatch k m).s.toNat - 1) 0) ++ [modelTotal (qsmLatch k m)] := rfl
  have hfirst : (0 :: List.replicate ((qsmLatch k m).s.toNat - 1) (0 : W32)).length = (qsmLatch k m).s.toNat := by
    rw [List.length_cons, List.length_replicate, hS, Nat.sub_add_cancel h.qsmS.1]
  constructor
  case bits => exact hB ▸ h.qsmBits
  case alphabet => rw [hS, hB]; exact ⟨h.qsmS.1, hs⟩
  case period => rw [hS, qsmLatch_period_toNat h]; exact hp
  case cumf_length => rw [hcumf, List.length_append, hfirst, List.length_singleton]
  case cumf_zero => exact tableAt_of_some (by rw [hcumf]; rfl)
  case cumf_top =>
    have hget : (qsmLatch k m).cumf[(qsmLatch k m).s.toNat]? = some (modelTotal (qsmLatch k m)) := by
      rw [hcumf, List.getElem?_append_right hfirst.le, hfirst, Nat.sub_self, List.getElem?_cons_zero]
    rw [cumfAt, tableAt_of_some hget, modelTotal_toNat (hB ▸ h.qsmBits.2)]
  case search_length => exact (tableSet_length ..).trans hlen
  case sentinel =>
    have hset : tableAt .search (qsmLatch k m).search 128 = (qsmLatch k m).s - 1 :=
      tableAt_tableSet_same (by rw [hlen]; decide)
    have hone : 1 ≤ (qsmLatch k m).s := BitVec.le_def.mpr (hS ▸ h.qsmS.1)
    rw [searchAt, hset, BitVec.toNat_sub_of_le hone, one_toNat]

end

/-! ### The one uniform model of some parameters (R603) -/

/-- Two tables of `n` entries with the same values are the same. -/
theorem table_ext {t : ModelTable} {xs ys : List W32} {n : Nat} (hx : xs.length = n) (hy : ys.length = n)
    (hxy : ∀ i, i < n → (tableAt t xs i).toNat = (tableAt t ys i).toNat) : xs = ys := by
  refine List.ext_getElem (hx.trans hy.symm) fun i hi hi' => BitVec.eq_of_toNat_eq ?_
  have hentry := hxy i (hx ▸ hi)
  rwa [tableAt_eq_getElem hi, tableAt_eq_getElem hi'] at hentry

/-- The cumulative frequencies determine the search table (R608). -/
theorem search_unique {m m' : Model} (h : ModelInv m) (h' : ModelInv m') (hs : m'.s = m.s) (hbits : m'.bits = m.bits)
    (hcumf : m'.cumf = m.cumf) : m.search = m'.search := by
  have htotal := (cumfInv_of_modelInv h).total_eq
  refine table_ext (t := .search) h.search.length h'.search.length fun j hj => ?_
  change searchAt m j = searchAt m' j
  obtain hlt | rfl := Nat.lt_or_eq_of_le (Nat.le_of_lt_succ hj)
  · obtain ⟨hsym, hholds⟩ := h.search.bucket j hlt
    obtain ⟨hsym', hholds'⟩ := h'.search.bucket j hlt
    rw [hs] at hsym'
    rw [hbits, cumfAt, cumfAt, hcumf] at hholds'
    exact (cumfInv_of_modelInv h).holds_unique hsym hsym' hholds hholds'
  · rw [h.search.sentinel, h'.search.sentinel, hs]

/-- A deficit is spread over an epoch in one way only (R607). -/
theorem spread_unique {epoch incr incr' more more' : Nat} (hlt : more < epoch) (hlt' : more' < epoch)
    (h : incr * epoch + more = incr' * epoch + more') : incr = incr' ∧ more = more' := by
  have divided : ∀ {a b : Nat}, b < epoch → (a * epoch + b) / epoch = a ∧ (a * epoch + b) % epoch = b := fun hb =>
    (Nat.div_mod_unique (Nat.zero_lt_of_lt hlt)).mpr ⟨by ring, hb⟩
  obtain ⟨hquot, hrem⟩ := divided (a := incr) hlt
  obtain ⟨hquot', hrem'⟩ := divided (a := incr') hlt'
  rw [h] at hquot hrem
  exact ⟨hquot.symm.trans hquot', hrem.symm.trans hrem'⟩

/-- The parameters of a uniform model determine every part of it. -/
theorem uniformModel_unique {s b p : Nat} {m m' : Model} (h : ModelInv m) (h' : ModelInv m')
    (hu : UniformModel s b p m) (hu' : UniformModel s b p m') (hvalid : m.valid = m'.valid) : m = m' := by
  have hs : m.s = m'.s := BitVec.eq_of_toNat_eq (hu.alphabet.trans hu'.alphabet.symm)
  have hbits : m.bits = m'.bits := BitVec.eq_of_toNat_eq (hu.bits.trans hu'.bits.symm)
  have hperiod : m.period = m'.period := BitVec.eq_of_toNat_eq (hu.period.trans hu'.period.symm)
  have hrescale : m.rescale = m'.rescale := BitVec.eq_of_toNat_eq (hu.epoch.trans hu'.epoch.symm)
  have hsymf : m.symf = m'.symf :=
    table_ext (h.symf_length.trans hu.alphabet) (h'.symf_length.trans hu'.alphabet) fun i hi =>
      (hu.frequency i hi).trans (hu'.frequency i hi).symm
  have hcumf : m.cumf = m'.cumf :=
    table_ext (h.cumf_length.trans (congrArg (· + 1) hu.alphabet))
      (h'.cumf_length.trans (congrArg (· + 1) hu'.alphabet)) fun i hi =>
        (hu.cumulative i (Nat.le_of_lt_succ hi)).trans (hu'.cumulative i (Nat.le_of_lt_succ hi)).symm
  have hsearch : m.search = m'.search := search_unique h h' hs.symm hbits.symm hcumf.symm
  obtain ⟨hincr, hmore⟩ : m.incr.toNat = m'.incr.toNat ∧ m.more.toNat = m'.more.toNat := by
    have hdeficit := hu.deficit.trans hu'.deficit.symm
    rw [hsymf, hrescale] at hdeficit
    exact spread_unique (hrescale ▸ hu.more_lt) hu'.more_lt (by omega)
  have hleft : m.left = m'.left := by
    have hsum := hu.left
    have hsum' := hu'.left
    rw [← hrescale] at hsum'
    exact BitVec.eq_of_toNat_eq (by omega)
  cases m
  cases m'
  exact Model.mk.injEq .. ▸ ⟨hvalid, hs, hbits, hperiod, hsymf, hcumf, hsearch, hrescale,
    BitVec.eq_of_toNat_eq hincr, hleft, BitVec.eq_of_toNat_eq hmore⟩

/-! ### The commands -/

theorem qsmInit_checks {k : Csrs} :
    firstFault [(!alphabetFits k, .configMismatch), (!periodFits k, .configMismatch)] = none ↔
      k.qsmS.toNat ≤ 2 ^ k.qsmBits.toNat ∧ rescaleInit k.qsmS.toNat ≤ k.qsmPeriod.toNat := by
  simp [firstFault_eq_none, alphabetFits, periodFits]

/-- What QSM_INIT leaves in the model. -/
def initialModel (k : Csrs) (m : Model) : Model := { qsmReset (qsmLatch k m) with valid := true }

theorem exec_qsmInit_completes {s : State} (hf : s.faults.flag = false)
    (hs : s.cfg.qsmS.toNat ≤ 2 ^ s.cfg.qsmBits.toNat) (hp : rescaleInit s.cfg.qsmS.toNat ≤ s.cfg.qsmPeriod.toNat) :
    exec .qsmInit s = .next { s with model := initialModel s.cfg s.model } := by
  unfold exec execQsmInit
  exact command_completes hf (qsmInit_checks.mpr ⟨hs, hp⟩) rfl

theorem exec_qsmReset_completes {s : State} (hf : s.faults.flag = false) (hv : s.model.valid = true) :
    exec .qsmReset s = .next { s with model := qsmReset s.model } := by
  unfold exec execQsmReset
  exact command_completes hf (firstFault_eq_none.mpr (by simp [hv])) rfl

/-- A QSM_INIT that ends without a fault has found its configuration consistent. -/
theorem qsmInit_consistent {s t : State} (h : exec .qsmInit s = .next t) (ht : t.faults.flag = false) :
    s.cfg.qsmS.toNat ≤ 2 ^ s.cfg.qsmBits.toNat ∧ rescaleInit s.cfg.qsmS.toNat ≤ s.cfg.qsmPeriod.toNat := by
  unfold exec execQsmInit at h
  obtain ⟨hf, rfl⟩ | ⟨-, _, -, rfl⟩ | ⟨-, hc, -⟩ | ⟨-, hc, -⟩ := command_cases h
  · exact absurd ht (by simp [hf])
  · exact absurd ht (by simp)
  · exact qsmInit_checks.mp hc
  · exact qsmInit_checks.mp hc

section
variable {k : Csrs} {m : Model} (h : CsrsLegal k) (hlen : m.search.length = 129)
  (hs : k.qsmS.toNat ≤ 2 ^ k.qsmBits.toNat) (hp : rescaleInit k.qsmS.toNat ≤ k.qsmPeriod.toNat)
include h hlen hs hp

theorem initialModel_modelInv : ModelInv (initialModel k m) :=
  modelInv_with_valid (qsmLatch_ready h hlen hs hp).qsmReset_modelInv true

theorem initialModel_uniformModel :
    UniformModel k.qsmS.toNat k.qsmBits.toNat k.qsmPeriod.toNat (initialModel k m) := by
  rw [← qsmLatch_s_toNat h m, ← qsmLatch_bits_toNat h m, ← qsmLatch_period_toNat h m]
  exact uniformModel_with_valid (qsmLatch_ready h hlen hs hp).qsmReset_uniformModel true

end

/-- Settles O42: the latched parameters are ones a reset can start from, and its rescale makes the uniform model. -/
theorem qsmInitBuildsTheUniformModel : Obligations.QsmInitBuildsTheUniformModel := by
  intro s hf hk hlen hs hp
  exact ⟨initialModel s.cfg s.model, exec_qsmInit_completes hf hs hp, rfl, initialModel_modelInv hk hlen hs hp,
    initialModel_uniformModel hk hlen hs hp⟩

/-- Settles O43: both commands end in a uniform model of the same parameters, and there is only one. -/
theorem qsmResetRestoresTheInitialModel : Obligations.QsmResetRestoresTheInitialModel := by
  intro u hf hv hinv
  have hready := resetReady_of_modelInv hinv
  refine ⟨qsmReset u.model, exec_qsmReset_completes hf hv, hready.qsmReset_modelInv, hready.qsmReset_uniformModel,
    fun s t hfs hk hlen h ht hs hbits hperiod => ?_⟩
  obtain ⟨halphabet, hepoch⟩ := qsmInit_consistent h ht
  obtain rfl : { s with model := initialModel s.cfg s.model } = t :=
    Host.Outcome.next.inj ((exec_qsmInit_completes hfs halphabet hepoch).symm.trans h)
  have hinit := initialModel_modelInv hk hlen halphabet hepoch
  have huniform := initialModel_uniformModel hk hlen halphabet hepoch
  rw [← huniform.alphabet, ← huniform.bits, ← huniform.period, hs, hbits, hperiod] at huniform
  exact uniformModel_unique hready.qsmReset_modelInv hinit hready.qsmReset_uniformModel huniform
    ((qsmReset_valid _).trans hv)

end Sys2Proof.Proofs
end

section
/-! PROOFS. The model lookups QSM_ENC and QSM_DEC (42_qsmodel.md R610, R611, R613, R614): O44, O45. -/

namespace Sys2Proof.Proofs

open Sys2Proof.Machine Sys2Proof.Safety Sys2Proof.Laws

/-! ### The result word (30_encoding.md R303) -/

theorem pack_toNat (r l : W32) : (pack r l).toNat = r.toNat * 2 ^ 32 + l.toNat := by
  have hr := r.isLt
  have hl := l.isLt
  rw [pack, BitVec.toNat_or, BitVec.toNat_shiftLeft, zext_toNat_32, zext_toNat_32, Nat.shiftLeft_eq,
    Nat.mod_eq_of_lt (by omega), ← Nat.shiftLeft_eq, ← Nat.shiftLeft_add_eq_or_of_lt hl, Nat.shiftLeft_eq]

/-- A lookup's word is the frequency above the cumulative frequency. -/
theorem pack_lookupWord {m : Model} (h : ModelInv m) {sym : Nat} (hs : sym < m.s.toNat) :
    LookupWord m sym (pack (freqAt m sym) (cumfAt m sym)) := by
  have hfreq := freqAt_toNat h hs
  rw [LookupWord, pack_toNat, ← hfreq, Nat.add_sub_cancel_left]

/-! ### The commands -/

theorem exec_qsmEnc_completes {s : State} (hf : s.faults.flag = false) (hv : s.model.valid = true)
    (hs : s.din0.toNat < s.model.s.toNat) :
    exec .qsmEnc s = .next { s with
      model := qsmTick s.din0.toNat s.model, dout0 := s.din0,
      dout1 := pack (freqAt s.model s.din0.toNat) (cumfAt s.model s.din0.toNat) } := by
  unfold exec execQsmEnc
  exact command_completes hf (firstFault_eq_none.mpr (by simp [hv, needOperand, hs])) rfl

theorem exec_qsmDec_completes {s : State} {sym : Nat} (hf : s.faults.flag = false) (hv : s.model.valid = true)
    (hq : s.din0.toNat < 2 ^ s.model.bits.toNat) (hsym : querySymbol s.model (s.din0.setWidth 32) = sym) :
    exec .qsmDec s = .next { s with
      model := qsmTick sym s.model, dout0 := BitVec.ofNat 64 sym,
      dout1 := pack (freqAt s.model sym) (cumfAt s.model sym) } := by
  subst hsym
  unfold exec execQsmDec
  exact command_completes hf (firstFault_eq_none.mpr (by simp [hv, needOperand, hq])) rfl

/-- A query below the total frequency loses nothing as a 32-bit number. -/
theorem query_toNat {m : Model} (h : ModelInv m) {q : W64} (hq : q.toNat < 2 ^ m.bits.toNat) :
    (q.setWidth 32).toNat = q.toNat := by
  have hle := ModelInv_two_pow_le h
  rw [BitVec.toNat_setWidth, Nat.mod_eq_of_lt (by omega)]

/-- Settles O44: the lookup is read from the model before the tick. -/
theorem qsmEncLooksUpThenUpdates : Obligations.QsmEncLooksUpThenUpdates := by
  intro s hf hv hinv hs
  exact ⟨_, _, exec_qsmEnc_completes hf hv hs, qsmTick_ticked hinv hs, pack_lookupWord hinv hs⟩

/-- Settles O45: the search finds a symbol that holds the query, only one does, and the rest is its lookup. -/
theorem qsmDecFindsTheOneSymbol : Obligations.QsmDecFindsTheOneSymbol := by
  intro s hf hv hinv hq
  have hquery := query_toNat hinv hq
  have hlt : (s.din0.setWidth 32).toNat < 2 ^ s.model.bits.toNat := hquery.symm ▸ hq
  have hsym := querySymbol_lt hinv hlt
  have hholds := querySymbol_holds hinv hlt
  rw [hquery] at hholds
  exact ⟨_, _, _, exec_qsmDec_completes hf hv hq rfl, hsym, hholds.1, hholds.2,
    fun other hother hlo hhi => (cumfInv_of_modelInv hinv).holds_unique hother hsym ⟨hlo, hhi⟩ hholds,
    qsmTick_ticked hinv hsym, pack_lookupWord hinv hsym⟩

end Sys2Proof.Proofs
end

section
/-! PROOFS. What every command and every step keeps of the model (42_qsmodel.md R615): O53. -/

namespace Sys2Proof.Proofs

open Sys2Proof.Machine Sys2Proof.Safety Sys2Proof.Laws

/-! ### Symbols and residuals: each one is a tick -/

theorem rcEncSym_modelInv {sym : Nat} {c : Coder} {m : Model} {r : Coder × Model} (h : ModelInv m)
    (hs : sym < m.s.toNat) (hc : rcEncSym sym c m = some r) : ModelInv r.2 := by
  rw [rcEncSym_eq, Option.map_eq_some_iff] at hc
  obtain ⟨d, -, rfl⟩ := hc
  exact qsmTick_modelInv h hs

theorem rcDecSym_modelInv {c : Coder} {m : Model} {r : Nat × Coder × Model} (h : ModelInv m)
    (hc : rcDecSym c m = some r) : ModelInv r.2.2 := by
  cases he : c.eofErr with
  | true =>
    rw [rcDecSym_atEnd he] at hc
    cases hc
    exact h
  | false =>
    rw [rcDecSym_eq he, Option.map_eq_some_iff] at hc
    obtain ⟨d, -, rfl⟩ := hc
    exact qsmTick_modelInv h (decodedSymbol_lt c h)

theorem resEncodeMagnitude_modelInv {p : Params} {sym : Nat} {d : W64} {c : Coder} {m : Model} {r : Coder × Model}
    (h : ModelInv m) (hs : sym < m.s.toNat) (hc : resEncodeMagnitude p sym d c m = some r) : ModelInv r.2 := by
  unfold resEncodeMagnitude at hc
  dsimp only at hc
  split at hc
  · cases hc
  · next hsym =>
    have hinv := rcEncSym_modelInv h hs hsym
    split at hc
    · split at hc
      · cases hc
      · cases hc; exact hinv
    · cases hc; exact hinv

/-- The class of a difference of `W`-bit values is below `W` (43_residual.md R701). -/
theorem bsr_sub_lt {w : Width} {x y : W64} (hlt : x.toNat < y.toNat) (hy : y.toNat < 2 ^ w.bits) :
    bsr (y - x) < w.bits :=
  bsr_lt (by rw [BitVec.toNat_sub_of_le (BitVec.le_def.mpr hlt.le)]; omega)

theorem resEncode_modelInv {params : Params} {w : Width} {a p : W64} {c : Coder} {m : Model} {r : Coder × Model}
    (h : ModelInv m) (hs : m.s.toNat = 2 * w.bits + 1) (ha : a.toNat < 2 ^ w.bits)
    (hc : resEncode params w a p c m = some r) : ModelInv r.2 := by
  unfold resEncode at hc
  split at hc
  · exact rcEncSym_modelInv h (by omega) hc
  · split at hc
    · next hlt =>
      have hk := bsr_sub_lt (BitVec.lt_def.mp hlt) ha
      exact resEncodeMagnitude_modelInv h (by omega) hc
    · exact resEncodeMagnitude_modelInv h (by omega) hc

theorem resDecode_modelInv {params : Params} {w : Width} {p : W64} {c : Coder} {m : Model} {r : W64 × Coder × Model}
    (h : ModelInv m) (hc : resDecode params w p c m = some r) : ModelInv r.2.2 := by
  unfold resDecode at hc
  split at hc
  · cases hc
  · next hsym =>
    have hinv := rcDecSym_modelInv h hsym
    split at hc
    · cases hc; exact hinv
    · dsimp only at hc
      split at hc
      · cases hc
      · cases hc; exact hinv

/-! ### Commands -/

theorem modelOk_of_modelInv {m : Model} (h : ModelInv m) : ModelOk m := ⟨h.search.length, fun _ => h⟩

theorem reset_modelOk : ModelOk Model.reset := ⟨List.length_replicate, nofun⟩

/-- A command keeps what holds of the model if its effect, once its checks are passed, ends in the invariants. -/
theorem command_modelOk {i : Instr} {s t : State} {checks : List Check} {effect : State → Option State}
    (h : command i s checks effect = .next t) (hm : ModelOk s.model)
    (he : (∀ c ∈ checks, c.1 = false) → ∀ u, effect s = some u → ModelInv u.model) : ModelOk t.model := by
  obtain ⟨-, rfl⟩ | ⟨-, _, -, rfl⟩ | ⟨-, -, -, rfl⟩ | ⟨-, hc, hu⟩ := command_cases h
  · exact hm
  · exact hm
  · exact hm
  · exact modelOk_of_modelInv (he (firstFault_eq_none.mp hc) t hu)

/-- The operand check that a symbol is one of the alphabet. -/
theorem needOperand_lt {x n : Nat} {checks : List Check} (hc : ∀ c ∈ checks, c.1 = false)
    (hmem : needOperand (decide (x < n)) ∈ checks) : x < n := by
  simpa [needOperand] using hc _ hmem

/-- A command that does not need the model leaves it, or is QSM_INIT or RESET. -/
theorem exec_model_other {i : Instr} {s t : State} (h : exec i s = .next t) (hneeds : needsModel i = false)
    (hinit : i ≠ .qsmInit) : t.model = s.model ∨ t.model = Model.reset := by
  obtain ⟨_, _, rfl⟩ | hc := exec_frame h
  · exact .inl rfl
  · obtain rfl | hwrites | hkeeps := hc.model_cases
    · cases hc
      exact .inr rfl
    · simp [hinit, hneeds] at hwrites
    · exact .inl hkeeps

/-- Every command keeps the model's invariants (R615). -/
theorem exec_keeps_modelOk {i : Instr} {s t : State} (h : exec i s = .next t) (hk : CsrsLegal s.cfg)
    (hm : ModelOk s.model) : ModelOk t.model := by
  have model : ∀ checks : List Check, needModel s ∈ checks → (∀ c ∈ checks, c.1 = false) → ModelInv s.model :=
    fun _ hmem hc => hm.constructed (needModel_passes.mp (hc _ hmem))
  have others := exec_model_other h
  unfold exec at h
  cases i with
  | qsmInit =>
    refine command_modelOk h hm fun hchecks u hu => ?_
    obtain ⟨hs, hp⟩ := qsmInit_checks.mp (firstFault_eq_none.mpr hchecks)
    cases hu
    exact initialModel_modelInv hk hm.search_length hs hp
  | qsmReset =>
    refine command_modelOk h hm fun hchecks u hu => ?_
    cases hu
    exact (resetReady_of_modelInv (model _ (by simp) hchecks)).qsmReset_modelInv
  | qsmEnc =>
    refine command_modelOk h hm fun hchecks u hu => ?_
    cases hu
    exact qsmTick_modelInv (model _ (by simp) hchecks) (needOperand_lt hchecks (by simp))
  | qsmDec =>
    refine command_modelOk h hm fun hchecks u hu => ?_
    have hinv := model _ (by simp) hchecks
    have hq : s.din0.toNat < 2 ^ s.model.bits.toNat := needOperand_lt hchecks (by simp)
    cases hu
    exact qsmTick_modelInv hinv (querySymbol_lt hinv (query_toNat hinv hq ▸ hq))
  | rcEncSym =>
    refine command_modelOk h hm fun hchecks u hu => ?_
    obtain ⟨c, m, hc, rfl⟩ := withCoderModel_eq_some.mp hu
    exact rcEncSym_modelInv (model _ (by simp) hchecks) (needOperand_lt hchecks (by simp)) hc
  | rcDecSym =>
    refine command_modelOk h hm fun hchecks u hu => ?_
    split at hu
    · cases hu
    · next hc => cases hu; exact rcDecSym_modelInv (model _ (by simp) hchecks) hc
  | resEnc =>
    refine command_modelOk h hm fun hchecks u hu => ?_
    obtain ⟨hinv, halphabet⟩ := modelInv_of_checks hm hchecks (by simp) (by simp)
    have ha : s.din0.toNat < 2 ^ s.cfg.w.bits := needOperand_lt hchecks (by simp [fitsWidth])
    obtain ⟨c, m, hc, rfl⟩ := withCoderModel_eq_some.mp hu
    exact resEncode_modelInv hinv halphabet ha hc
  | resDec =>
    refine command_modelOk h hm fun hchecks u hu => ?_
    split at hu
    · cases hu
    · next hc => cases hu; exact resDecode_modelInv (model _ (by simp) hchecks) hc
  | stepEnc =>
    refine command_modelOk h hm fun hchecks u hu => ?_
    obtain ⟨hinv, halphabet⟩ := modelInv_of_checks hm hchecks (by simp [stepChecks]) (by simp [stepChecks])
    dsimp only at hu
    split at hu
    · cases hu
    · next hc =>
      cases hu
      exact resEncode_modelInv hinv halphabet (mapForwardW_lt _ _) hc
  | stepDec =>
    refine command_modelOk h hm fun hchecks u hu => ?_
    dsimp only at hu
    split at hu
    · cases hu
    · next hc => cases hu; exact resDecode_modelInv (model _ (by simp [stepChecks]) hchecks) hc
  | _ =>
    obtain hkeeps | hreset := others rfl nofun
    · exact hkeeps ▸ hm
    · exact hreset ▸ reset_modelOk

/-! ### Steps -/

theorem hostStep_model {s t : State} (h : hostStep s = .next t) : t.model = s.model ∨ t.model = Model.reset := by
  obtain rfl | ⟨_, _, -, -, rfl⟩ | ⟨_, -, -, rfl⟩ | ⟨_, -, rfl⟩ | ⟨_, _, _, _, -, -, rfl⟩ := hostStep_cases h
  · exact .inl rfl
  · exact .inl rfl
  · exact .inl rfl
  · exact .inr rfl
  · exact .inl rfl

/-- Settles O53: by the three kinds of step. -/
theorem stepKeepsTheModelInvariants : Obligations.StepKeepsTheModelInvariants := by
  intro s t hk hm h
  obtain ⟨-, hh⟩ | ⟨w, c, -, -, rfl⟩ | ⟨w, i, u, -, -, hu, rfl⟩ := step_cases h
  · obtain hkeeps | hreset := hostStep_model hh
    · exact hkeeps ▸ hm
    · exact hreset ▸ reset_modelOk
  · rw [settlePort_model, raiseFault_model]
    exact hm
  · rw [settlePort_model]
    exact exec_keeps_modelOk hu hk hm

end Sys2Proof.Proofs
end

section
/-! PROOFS. Units that are not configured, and configurations that do not fit together (60_exceptions.md R1102, R1103):
O14, O15. -/

namespace Sys2Proof.Proofs

open Sys2Proof.Machine Sys2Proof.Safety Sys2Proof.Laws

/-! ### The check that decides the fault (R1103) -/

theorem firstFault_of_passes {c : Check} {rest : List Check} (h : c.1 = false) :
    firstFault (c :: rest) = firstFault rest := by
  obtain ⟨bad, cause⟩ := c
  obtain rfl : bad = false := h
  rfl

theorem firstFault_of_fails {c : Check} {rest : List Check} (h : c.1 = true) : firstFault (c :: rest) = some c.2 := by
  obtain ⟨bad, cause⟩ := c
  obtain rfl : bad = true := h
  rfl

/-- Of two neighbouring checks with one cause it does not matter which one fails. -/
theorem firstFault_of_either_fails {c d : Check} {rest : List Check} (hcause : c.2 = d.2)
    (h : c.1 = true ∨ d.1 = true) : firstFault (c :: d :: rest) = some c.2 := by
  cases hc : c.1 with
  | true => exact firstFault_of_fails hc
  | false => rw [firstFault_of_passes hc, firstFault_of_fails (h.resolve_left (by simp [hc])), hcause]

section
variable {s : State} {rest : List Check}

theorem firstFault_needMode {m : RcMode} (h : s.coder.mode = m) :
    firstFault (needMode m s :: rest) = firstFault rest :=
  firstFault_of_passes (needMode_passes.mpr h)

theorem firstFault_needModel (h : s.model.valid = false) :
    firstFault (needModel s :: rest) = some .notConfigured :=
  firstFault_of_fails (by simp [needModel, h])

theorem firstFault_needFront (h : s.front.valid = false) :
    firstFault (needFront s :: rest) = some .notConfigured :=
  firstFault_of_fails (by simp [needFront, h])

theorem firstFault_needUnits (h : s.model.valid = false ∨ s.front.valid = false) :
    firstFault (needModel s :: needFront s :: rest) = some .notConfigured :=
  firstFault_of_either_fails rfl (by simpa [needModel, needFront] using h)

theorem firstFault_needAlphabet (hv : s.model.valid = true) (h : s.model.s.toNat ≠ 2 * s.cfg.w.bits + 1) :
    firstFault (needModel s :: needAlphabet s :: rest) = some .configMismatch := by
  rw [firstFault_of_passes (needModel_passes.mpr hv)]
  exact firstFault_of_fails (decide_eq_true h)

theorem firstFault_needSizes (hv : s.model.valid = true) (hfront : s.front.valid = true)
    (h : s.model.s.toNat ≠ 2 * s.cfg.w.bits + 1 ∨ s.front.w ≠ s.cfg.w) :
    firstFault (needModel s :: needFront s :: needAlphabet s :: needFrontWidth s :: rest) = some .configMismatch := by
  rw [firstFault_of_passes (needModel_passes.mpr hv), firstFault_of_passes (needFront_passes.mpr hfront)]
  exact firstFault_of_either_fails rfl (h.imp (fun hs => decide_eq_true hs) (fun hw => decide_eq_true hw))

end

/-- The two checks of QSM_INIT (42_qsmodel.md R601). -/
theorem firstFault_qsmInit {k : Csrs}
    (h : 2 ^ k.qsmBits.toNat < k.qsmS.toNat ∨ k.qsmPeriod.toNat < rescaleInit k.qsmS.toNat) :
    firstFault [(!alphabetFits k, .configMismatch), (!periodFits k, .configMismatch)] = some .configMismatch :=
  firstFault_of_either_fails rfl (by simpa [alphabetFits, periodFits] using h)

/-! ### The commands -/

/-- Settles O14: in each command's checks the units it needs come right behind its mode. -/
theorem unconfiguredUnitFaults : Obligations.UnconfiguredUnitFaults := by
  intro i s hf ⟨henc, hdec⟩ hunit
  have model : needsFront i = false → s.model.valid = false := fun hi => (hunit.resolve_right (by simp [hi])).2
  have front : needsModel i = false → s.front.valid = false := fun hi => (hunit.resolve_left (by simp [hi])).2
  have units : s.model.valid = false ∨ s.front.valid = false := hunit.imp And.right And.right
  unfold exec
  cases i with
  | qsmReset | qsmEnc | qsmDec =>
    exact command_faults hf (firstFault_needModel (model rfl))
  | frontAt | frontPush | frontAdvance | predict =>
    exact command_faults hf (firstFault_needFront (front rfl))
  | rcEncSym | resEnc =>
    exact command_faults hf ((firstFault_needMode (henc rfl)).trans (firstFault_needModel (model rfl)))
  | rcDecSym | resDec =>
    exact command_faults hf ((firstFault_needMode (hdec rfl)).trans (firstFault_needModel (model rfl)))
  | stepEnc => exact command_faults hf ((firstFault_needMode (henc rfl)).trans (firstFault_needUnits units))
  | stepDec => exact command_faults hf ((firstFault_needMode (hdec rfl)).trans (firstFault_needUnits units))
  | _ => simp [needsModel, needsFront] at hunit

/-- Settles O15: clause by clause, the checks before the configuration's and the configuration's. -/
theorem inconsistentConfigurationFaults : Obligations.InconsistentConfigurationFaults := by
  intro i s hf ⟨henc, hdec⟩
  unfold exec
  refine ⟨fun hbad => ?qsmInit, fun hi hmodel hbad => ?residual, fun hi hmodel hfront hbad => ?step⟩
  case qsmInit => exact command_faults hf (firstFault_qsmInit hbad)
  case residual =>
    obtain rfl | rfl : i = .resEnc ∨ i = .resDec := by simpa using hi
    · exact command_faults hf ((firstFault_needMode (henc rfl)).trans (firstFault_needAlphabet hmodel hbad))
    · exact command_faults hf ((firstFault_needMode (hdec rfl)).trans (firstFault_needAlphabet hmodel hbad))
  case step =>
    obtain rfl | rfl : i = .stepEnc ∨ i = .stepDec := by simpa using hi
    · exact command_faults hf ((firstFault_needMode (henc rfl)).trans (firstFault_needSizes hmodel hfront hbad))
    · exact command_faults hf ((firstFault_needMode (hdec rfl)).trans (firstFault_needSizes hmodel hfront hbad))

end Sys2Proof.Proofs
end

section
/-! PROOFS. The residual coder (43_residual.md R701 to R704, R706): what its two procedures are in terms of the range
coder's for symbols and raw fields, and the commands as chains of RC_*_SYM and RC_*_RAW: O46, O47. -/

namespace Sys2Proof.Proofs

open Sys2Proof.Machine Sys2Proof.Safety Sys2Proof.Laws

/-- The raw step runs (R701, R706). -/
theorem rawStepRuns_iff {p : Params} {k : Nat} :
    rawStepRuns p k = true ↔ 0 < k ∨ p.emitZeroWidthRaw = true := by
  simp [rawStepRuns]

/-- A symbol of the alphabet as a command's operand or result. -/
theorem symbolWord_toNat {m : Model} {sym : Nat} (h : sym < m.s.toNat) : (BitVec.ofNat 64 sym).toNat = sym := by
  rw [BitVec.toNat_ofNat, Nat.mod_eq_of_lt (by omega)]

/-! ### The encode procedures (R701) -/

/-- The class of a 64-bit magnitude. -/
theorem bsr_lt_64 (d : W64) : bsr d < 64 := bsr_lt (w := .w64) d.isLt

/-- The highest bit of a magnitude of class `k`. -/
theorem topBit_toNat {k : Nat} (hk : k < 64) : (1#64 <<< k).toNat = 2 ^ k := by
  rw [BitVec.shiftLeft_eq_mul_twoPow, BitVec.one_mul, BitVec.toNat_twoPow_of_lt hk]

/-- The raw bits of a residual as a number. -/
theorem rawBits_eq {d : W64} (hd : d ≠ 0) : d - (1#64 <<< bsr d) = BitVec.ofNat 64 (d.toNat - 2 ^ bsr d) := by
  have hle : 2 ^ bsr d ≤ d.toNat := Nat.log2_self_le fun hzero => hd (BitVec.eq_of_toNat_eq hzero)
  rw [← topBit_toNat (bsr_lt_64 d)] at hle ⊢
  bv_omega

/-- `RC_EncSym` comes to its end in the encoder's mode, and stays in it. -/
theorem rcEncSym_completes {c : Coder} (hm : c.mode = .enc) (sym : Nat) (m : Model) :
    ∃ c' m', rcEncSym sym c m = some (c', m') ∧ c'.mode = .enc := by
  obtain ⟨⟨c', m'⟩, hc⟩ := (rcEncSym_runs sym c m).completes_of_map (.inl hm)
  exact ⟨c', m', hc, (rcEncSym_kept hc).1.mode.trans hm⟩

section
variable {p : Params} {sym : Nat} {d : W64} {c c' : Coder} {m m' : Model}

/-- The class symbol, then the raw bits. -/
theorem resEncodeMagnitude_with_raw {c'' : Coder} (hsym : rcEncSym sym c m = some (c', m'))
    (hruns : 0 < bsr d ∨ p.emitZeroWidthRaw = true) (hraw : rcEncRaw (d - (1#64 <<< bsr d)) (bsr d) c' = some c'') :
    resEncodeMagnitude p sym d c m = some (c'', m') := by
  rw [resEncodeMagnitude, hsym]
  dsimp only
  rw [if_pos (rawStepRuns_iff.mpr hruns), hraw]

/-- The class symbol alone. -/
theorem resEncodeMagnitude_without_raw (hsym : rcEncSym sym c m = some (c', m'))
    (hruns : ¬ (0 < bsr d ∨ p.emitZeroWidthRaw = true)) : resEncodeMagnitude p sym d c m = some (c', m') := by
  rw [resEncodeMagnitude, hsym]
  exact if_neg (mt rawStepRuns_iff.mp hruns)

end

section
variable (params : Params) (w : Width) (c : Coder) (m : Model)

theorem resEncode_exact (a : W64) : resEncode params w a a c m = rcEncSym w.bits c m := if_pos rfl

/-- A value `d` above its prediction. -/
theorem resEncode_above {a p d : W64} (hd : d ≠ 0) (h : p.toNat + d.toNat = a.toNat) :
    resEncode params w a p c m = resEncodeMagnitude params (w.bits + 1 + bsr d) d c m := by
  obtain rfl : a = p + d := by bv_omega
  have hlt : p < p + d := by bv_omega
  rw [resEncode, if_neg (by bv_omega), if_pos hlt, show p + d - p = d by bv_omega]

/-- A value `d` below its prediction. -/
theorem resEncode_below {a p d : W64} (hd : d ≠ 0) (h : a.toNat + d.toNat = p.toNat) :
    resEncode params w a p c m = resEncodeMagnitude params (w.bits - 1 - bsr d) d c m := by
  obtain rfl : p = a + d := by bv_omega
  have hnlt : ¬ a + d < a := by bv_omega
  rw [resEncode, if_neg (by bv_omega), if_neg hnlt, show a + d - a = d by bv_omega]

end

/-! ### RES_ENC (R703) -/

theorem exec_rcEncSym_of_symbol {s : State} {sym : Nat} {c : Coder} {m : Model} (hf : s.faults.flag = false)
    (hm : s.coder.mode = .enc) (hv : s.model.valid = true) (hs : sym < s.model.s.toNat)
    (hc : rcEncSym sym s.coder s.model = some (c, m)) :
    exec .rcEncSym { s with din0 := BitVec.ofNat 64 sym } =
      .next { s with din0 := BitVec.ofNat 64 sym, coder := c, model := m } := by
  have hsym := symbolWord_toNat hs
  exact exec_rcEncSym_completes (s := { s with din0 := BitVec.ofNat 64 sym }) hf hm hv (by rwa [hsym]) (by rwa [hsym])

section
variable {s : State} (hf : s.faults.flag = false) (hm : s.coder.mode = .enc) (hv : s.model.valid = true)
  (hs : s.model.s.toNat = 2 * s.cfg.w.bits + 1) (ha : s.din0.toNat < 2 ^ s.cfg.w.bits)
  (hp : s.din1.toNat < 2 ^ s.cfg.w.bits)
include hf hm hv hs ha hp

theorem exec_resEnc_completes {c : Coder} {m : Model}
    (hc : resEncode s.params s.cfg.w s.din0 s.din1 s.coder s.model = some (c, m)) :
    exec .resEnc s = .next { s with coder := c, model := m } := by
  unfold exec execResEnc
  rw [command_runs hf (by simp [hm, hv, hs, needOperand, fitsWidth, ha, hp]), hc]
  rfl

/-- A residual of magnitude `d` with the class symbol `sym`: the chain of the two commands. -/
theorem exec_resEnc_magnitude {sym : Nat} {d : W64} (hd : d ≠ 0) (hsym : sym < s.model.s.toNat)
    (hres : resEncode s.params s.cfg.w s.din0 s.din1 s.coder s.model =
      resEncodeMagnitude s.params sym d s.coder s.model) :
    ∃ t, exec .rcEncSym { s with din0 := BitVec.ofNat 64 sym } = .next t ∧
      (0 < bsr d ∨ s.params.emitZeroWidthRaw = true →
        ∃ u, exec (.rcEncRaw (bsr d)) { t with din0 := BitVec.ofNat 64 (d.toNat - 2 ^ bsr d) } = .next u ∧
          exec .resEnc s = .next { u with din0 := s.din0 }) ∧
      (bsr d = 0 → s.params.emitZeroWidthRaw = false → exec .resEnc s = .next { t with din0 := s.din0 }) := by
  obtain ⟨c, m, hc, hmc⟩ := rcEncSym_completes hm sym s.model
  refine ⟨_, exec_rcEncSym_of_symbol hf hm hv hsym hc, fun hruns => ?_, fun hk hemit => ?_⟩
  · obtain ⟨c', hraw, -⟩ := rcEncRaw_completes hmc (d - (1#64 <<< bsr d)) (bsr d)
    rw [← rawBits_eq hd]
    exact ⟨_, exec_rcEncRaw_completes (s := { s with din0 := _, coder := c, model := m }) hf hmc (bsr_lt_64 d).le
      (rawBits_lt hd) hraw,
      exec_resEnc_completes hf hm hv hs ha hp (hres.trans (resEncodeMagnitude_with_raw hc hruns hraw))⟩
  · have hruns : ¬ (0 < bsr d ∨ s.params.emitZeroWidthRaw = true) := by simp [hk, hemit]
    exact exec_resEnc_completes hf hm hv hs ha hp (hres.trans (resEncodeMagnitude_without_raw hc hruns))

end

/-- Settles O46: an exact prediction, then a residual on either side of it. -/
theorem resEncCodesClassThenRawBits : Obligations.ResEncCodesClassThenRawBits := by
  intro s hf hm hv _ _ hs ha hp
  refine ⟨fun heq => ?exact, fun d k sym hne hk hside => ?magnitude⟩
  case exact =>
    obtain ⟨c, m, hc, -⟩ := rcEncSym_completes hm s.cfg.w.bits s.model
    refine ⟨_, exec_rcEncSym_of_symbol hf hm hv (by omega) hc, ?_⟩
    exact exec_resEnc_completes hf hm hv hs ha hp (by rw [← heq, resEncode_exact, hc])
  case magnitude =>
    have hlt : d < 2 ^ s.cfg.w.bits := by omega
    obtain ⟨d, rfl⟩ : ∃ d' : W64, d'.toNat = d :=
      ⟨BitVec.ofNat 64 d, by rw [BitVec.toNat_ofNat, Nat.mod_eq_of_lt (by omega)]⟩
    have hd : d ≠ 0 := fun hzero => hne (by rw [hzero]; rfl)
    have hclass : bsr d < s.cfg.w.bits := bsr_lt hlt
    obtain rfl : k = bsr d := hk
    obtain ⟨hsum, rfl⟩ | ⟨hsum, rfl⟩ := hside
    · exact exec_resEnc_magnitude hf hm hv hs ha hp hd (by omega) (resEncode_above _ _ _ _ hd hsum)
    · exact exec_resEnc_magnitude hf hm hv hs ha hp hd (by omega) (resEncode_below _ _ _ _ hd hsum)

/-! ### The decode procedure (R702) -/

/-- The value of a residual of class `k` and raw bits `v` against the prediction `p`, above it or below it. -/
def residualValue (w : Width) (above : Bool) (k : Nat) (v p : W64) : W64 :=
  truncW w (if above then p + ((1#64 <<< k) + v) else p - ((1#64 <<< k) + v))

/-- The signed residual is added to the prediction mod `2^W`. -/
theorem residualValue_toNat (w : Width) (above : Bool) {k : Nat} (v p : W64) (hk : k < 64) :
    ((residualValue w above k v p).toNat : Int) =
      (if above then (p.toNat : Int) + (2 ^ k + v.toNat) else (p.toNat : Int) - (2 ^ k + v.toNat)) % 2 ^ w.bits := by
  have htop : (2 : Int) ^ k = ((1#64 <<< k).toNat : Nat) := by
    rw [topBit_toNat hk, Nat.cast_pow, Nat.cast_ofNat]
  rw [residualValue, truncW_toNat, htop]
  cases above with
  | false =>
    rw [if_neg Bool.false_ne_true, if_neg Bool.false_ne_true]
    cases w <;> simp only [Width.bits] <;> bv_omega
  | true =>
    rw [if_pos rfl, if_pos rfl]
    cases w <;> simp only [Width.bits] <;> bv_omega

section
variable {params : Params} {w : Width} {p : W64} {c c' : Coder} {m m' : Model} {sym : Nat}

theorem resDecode_of_hold (hsym : rcDecSym c m = none) : resDecode params w p c m = none := by
  rw [resDecode, hsym]

/-- The symbol `Bias` alone: the prediction was exact. -/
theorem resDecode_exact (hsym : rcDecSym c m = some (w.bits, c', m')) :
    resDecode params w p c m = some (p, c', m') := by
  rw [resDecode, hsym]
  exact if_pos rfl

/-- Any other symbol, where the raw step runs. -/
theorem resDecode_with_raw (hsym : rcDecSym c m = some (sym, c', m')) (hne : sym ≠ w.bits)
    (hruns : 0 < residualClass w sym ∨ params.emitZeroWidthRaw = true) :
    resDecode params w p c m = (rcDecRaw (residualClass w sym) c').map fun r =>
      (residualValue w (decide (w.bits < sym)) (residualClass w sym) r.1 p, r.2, m') := by
  rw [resDecode, hsym]
  dsimp only
  rw [if_neg hne, if_pos (rawStepRuns_iff.mpr hruns)]
  cases rcDecRaw (residualClass w sym) c' with
  | none => rfl
  | some r => simp only [Option.map_some, residualValue, decide_eq_true_eq]

/-- Any other symbol, where the raw step does not run: the raw bits are 0. -/
theorem resDecode_without_raw (hsym : rcDecSym c m = some (sym, c', m')) (hne : sym ≠ w.bits)
    (hruns : ¬ (0 < residualClass w sym ∨ params.emitZeroWidthRaw = true)) :
    resDecode params w p c m =
      some (residualValue w (decide (w.bits < sym)) (residualClass w sym) 0 p, c', m') := by
  rw [resDecode, hsym]
  dsimp only
  rw [if_neg hne, if_neg (mt rawStepRuns_iff.mp hruns)]
  simp only [residualValue, decide_eq_true_eq]

end

/-- The class of a symbol at a distance `1 + k` from `Bias = W`. -/
theorem residualClass_of_distance {w : Width} {sym k : Nat} (h : w.bits + 1 + k = sym ∨ sym + 1 + k = w.bits) :
    sym ≠ w.bits ∧ residualClass w sym = k := by
  unfold residualClass
  split <;> omega

/-! ### RES_DEC (R704) -/

section
variable {s : State} (hf : s.faults.flag = false) (hm : s.coder.mode = .dec) (hv : s.model.valid = true)
  (hs : s.model.s.toNat = 2 * s.cfg.w.bits + 1) (hp : s.din1.toNat < 2 ^ s.cfg.w.bits)
include hf hm hv hs hp

theorem exec_resDec_completes {a : W64} {c : Coder} {m : Model}
    (hc : resDecode s.params s.cfg.w s.din1 s.coder s.model = some (a, c, m)) :
    exec .resDec s = .next { s with coder := c, model := m, dout0 := a } := by
  rw [exec_resDec hf hm hv hs hp, hc]
  rfl

theorem exec_resDec_holds (hc : resDecode s.params s.cfg.w s.din1 s.coder s.model = none) :
    exec .resDec s = .next { s with holding := true } := by
  rw [exec_resDec hf hm hv hs hp, hc]
  rfl

/-- Behind a symbol `sym` of class `k` other than `Bias`, which has left the state `t`: the raw command, where it runs,
and the residual it gives. -/
theorem exec_resDec_magnitude {sym k : Nat} {c : Coder} {m : Model} {t : State} (hmodel : ModelInv s.model)
    (hsym : rcDecSym s.coder s.model = some (sym, c, m))
    (hk : s.cfg.w.bits + 1 + k = sym ∨ sym + 1 + k = s.cfg.w.bits)
    (ht : t = { s with holding := false, coder := c, model := m, dout0 := BitVec.ofNat 64 sym }) :
    ∃ (u : State) (v : Nat),
      (if 0 < k ∨ s.params.emitZeroWidthRaw = true then exec (.rcDecRaw k) t = .next u ∧ v = u.dout0.toNat
        else u = t ∧ v = 0) ∧
      (InputReady s.coder 25 → u.holding = false) ∧
      (u.holding = true → exec .resDec s = .next { s with holding := true }) ∧
      (u.holding = false → ∃ a : W64, exec .resDec s = .next { u with holding := s.holding, dout0 := a } ∧
        (a.toNat : Int) = (if s.cfg.w.bits < sym then (s.din1.toNat : Int) + (2 ^ k + v)
          else (s.din1.toNat : Int) - (2 ^ k + v)) % 2 ^ s.cfg.w.bits) := by
  have hmt : t.coder.mode = .dec := by rw [ht]; exact (rcDecSym_kept hsym).1.mode.trans hm
  have hft : t.faults.flag = false := by rw [ht]; exact hf
  have hlt : sym < s.model.s.toNat := rcDecSym_sym_lt hmodel hsym
  subst ht
  have hw := width_bits_le s.cfg.w
  have hk64 : k < 64 := by omega
  have hvalue := fun v => residualValue_toNat s.cfg.w (decide (s.cfg.w.bits < sym)) v s.din1 hk64
  simp only [decide_eq_true_eq] at hvalue
  obtain ⟨hne, rfl⟩ := residualClass_of_distance hk
  by_cases hruns : 0 < residualClass s.cfg.w sym ∨ s.params.emitZeroWidthRaw = true
  · have hwhole := resDecode_with_raw (p := s.din1) hsym hne hruns
    simp only [if_pos hruns]
    cases hraw : rcDecRaw (residualClass s.cfg.w sym) c with
    | none =>
      rw [hraw, Option.map_none] at hwhole
      have hnot : ¬ InputReady s.coder 25 := fun hr => by
        obtain ⟨r, hsome⟩ := (resDecode_runs_25 hmodel hs s.params s.din1 s.coder).completes_of_map (.inr hr)
        cases hwhole.symm.trans hsome
      exact ⟨_, _, ⟨exec_rcDecRaw_holds hft hmt hk64.le hraw, rfl⟩, fun hr => absurd hr hnot,
        fun _ => exec_resDec_holds hf hm hv hs hp hwhole, nofun⟩
    | some r =>
      rw [hraw, Option.map_some] at hwhole
      exact ⟨_, _, ⟨exec_rcDecRaw_completes hft hmt hk64.le hraw, rfl⟩, fun _ => rfl, nofun,
        fun _ => ⟨_, exec_resDec_completes hf hm hv hs hp hwhole, hvalue r.1⟩⟩
  · have hwhole := resDecode_without_raw (p := s.din1) hsym hne hruns
    simp only [if_neg hruns]
    exact ⟨_, _, ⟨rfl, rfl⟩, fun _ => rfl, nofun,
      fun _ => ⟨_, exec_resDec_completes hf hm hv hs hp hwhole, hvalue 0⟩⟩

end

/-- Settles O47: the symbol's decode holds, or gives `Bias`, or gives the class of a residual. -/
theorem resDecAppliesTheResidual : Obligations.ResDecAppliesTheResidual := by
  intro s hf hm hv _ hmodel hs hp
  cases hsym : rcDecSym s.coder s.model with
  | none =>
    refine ⟨_, exec_rcDecSym_holds (s := { s with holding := false }) hf hm hv hsym, fun hr => ?_,
      fun _ => exec_resDec_holds hf hm hv hs hp (resDecode_of_hold hsym), nofun, nofun⟩
    obtain ⟨r, hsome⟩ := (rcDecSym_runs s.coder s.model).completes_of_map (.inr (InputReady_mono (by omega) hr))
    cases hsym.symm.trans hsome
  | some r =>
    obtain ⟨sym, c, m⟩ := r
    have hdout := symbolWord_toNat (rcDecSym_sym_lt hmodel hsym)
    refine ⟨_, exec_rcDecSym_completes (s := { s with holding := false }) hf hm hv hsym, fun _ => rfl, nofun,
      fun _ hexact => ?exact, fun _ k hk => ?magnitude⟩
    case exact =>
      obtain rfl : sym = s.cfg.w.bits := hdout.symm.trans hexact
      exact exec_resDec_completes hf hm hv hs hp (resDecode_exact hsym)
    case magnitude =>
      dsimp only at hk ⊢
      rw [hdout] at hk ⊢
      exact exec_resDec_magnitude hf hm hv hs hp hmodel hsym hk rfl

end Sys2Proof.Proofs
end

section
/-! PROOFS. The front in plain arithmetic: the size of the ring, the slot at an offset, and what a run of pushes leaves in
the slots (44_front.md R800 to R802, R807), on which every statement about the front rests. -/

namespace Sys2Proof.Proofs

open Sys2Proof.Machine Sys2Proof.Safety Sys2Proof.Laws

/-! ### The ring's size (R800) -/

/-- `ceilLog2 n` is the smallest exponent whose power of two reaches `n`. -/
theorem ceilLog2_le_iff {n k : Nat} : ceilLog2 n ≤ k ↔ n ≤ 2 ^ k := by
  unfold ceilLog2
  split
  · have := Nat.two_pow_pos k
    omega
  · rw [Nat.add_one_le_iff, Nat.log2_lt (by omega)]
    omega

theorem ceilLog2_pow_lt {n : Nat} (hn : 1 ≤ n) : 2 ^ ceilLog2 n < 2 * n := by
  cases hk : ceilLog2 n with
  | zero => omega
  | succ k =>
    have : ¬ n ≤ 2 ^ k := fun h => by have := ceilLog2_le_iff.mpr h; omega
    omega

section
variable (k : Csrs)

theorem ringSize_eq : ringSize k.nx.toNat k.ny.toNat = 2 ^ ceilLog2 (slotsNeeded k) := rfl

theorem slotsNeeded_le_ringSize : slotsNeeded k ≤ ringSize k.nx.toNat k.ny.toNat :=
  ceilLog2_le_iff.mp (Nat.le_refl _)

theorem ringSize_lt_two_mul : ringSize k.nx.toNat k.ny.toNat < 2 * slotsNeeded k :=
  ceilLog2_pow_lt (n := slotsNeeded k) (by unfold slotsNeeded; omega)

/-- A limit that is a power of two admits the ring as soon as it admits the slots. -/
theorem ringSize_le_frontMaxSlots_iff (p : Params) :
    ringSize k.nx.toNat k.ny.toNat ≤ p.frontMaxSlots ↔ slotsNeeded k ≤ p.frontMaxSlots := by
  rw [ringSize_eq, Params.frontMaxSlots, Nat.pow_le_pow_iff_right (by decide), ceilLog2_le_iff]

end

theorem frontMaxSlots_le (p : Params) : p.frontMaxSlots ≤ 2 ^ 32 :=
  Nat.pow_le_pow_right (by decide) (by omega)

/-! ### The front just built (R800) -/

theorem mapForwardW_zero_toNat (w : Width) : (mapForwardW w 0).toNat = 2 ^ (w.bits - 1) := by
  cases w <;> decide

section
variable {k : Csrs} (h : ringSize k.nx.toNat k.ny.toNat ≤ 2 ^ 32)
include h

theorem freshFront_mask_toNat : (freshFront k).mask.toNat + 1 = ringSize k.nx.toNat k.ny.toNat := by
  have hpos : 0 < ringSize k.nx.toNat k.ny.toNat := Nat.two_pow_pos _
  rw [freshFront_mask, BitVec.toNat_ofNat, Nat.mod_eq_of_lt (by omega), Nat.sub_add_cancel hpos]

theorem freshFront_dy_toNat : (freshFront k).dy.toNat = k.nx.toNat + 1 := by
  have := slotsNeeded_le_ringSize k
  exact Nat.mod_eq_of_lt (by unfold slotsNeeded at this; unfold strideY; omega)

theorem freshFront_dz_toNat : (freshFront k).dz.toNat = (k.nx.toNat + 1) * (k.ny.toNat + 1) := by
  have := slotsNeeded_le_ringSize k
  exact Nat.mod_eq_of_lt (by unfold slotsNeeded at this; unfold strideZ; omega)

theorem freshFront_reach : 1 + (freshFront k).dy.toNat + (freshFront k).dz.toNat ≤ (freshFront k).mask.toNat + 1 := by
  rw [freshFront_mask_toNat h, freshFront_dy_toNat h, freshFront_dz_toNat h]
  exact slotsNeeded_le_ringSize k

theorem freshFront_frontInv : FrontInv (freshFront k) where
  stride_x := rfl
  size := ⟨ceilLog2 (slotsNeeded k), (Nat.pow_le_pow_iff_right (by decide)).mp h, freshFront_mask_toNat h⟩
  reach := freshFront_reach h
  zero := mapForwardW_zero_toNat k.w
  canonical := freshFront_wf k
  slots := rfl

end

theorem frontSlotValue_freshFront (k : Csrs) (j : Nat) : frontSlotValue (freshFront k) j = (freshFront k).zero := rfl

theorem front_zero_eq {f : Front} (h : FrontInv f) : f.zero = BitVec.ofNat 64 (2 ^ (f.w.bits - 1)) := by
  rw [← h.zero, BitVec.ofNat_toNat, BitVec.setWidth_eq]

theorem front_zero_fits {f : Front} (h : FrontInv f) : fitsWidth f.w f.zero = true :=
  decide_eq_true (h.zero ▸ Nat.pow_lt_pow_right (by decide) (Nat.sub_one_lt (width_bits_pos f.w).ne'))

/-! ### The slot at an offset (R801) -/

theorem neighbourOffset_eq {f : Front} (h : FrontInv f) (x y z : Bool) :
    neighbourOffset f x y z = x.toNat + f.dy.toNat * y.toNat + f.dz.toNat * z.toNat := by
  rw [neighbourOffset, h.stride_x, show (1 : W32).toNat = 1 from rfl, Nat.one_mul]

/-- No neighbour lies further back than the ring reaches. -/
theorem neighbourOffset_le {f : Front} (h : FrontInv f) (x y z : Bool) :
    neighbourOffset f x y z ≤ f.mask.toNat + 1 := by
  have hy := Nat.mul_le_mul_left f.dy.toNat y.toNat_le
  have hz := Nat.mul_le_mul_left f.dz.toNat z.toNat_le
  have hx := x.toNat_le
  have := h.reach
  rw [neighbourOffset_eq h]
  omega

/-- A ring of a power of two slots: the index wraps at a multiple of the ring's size, so the mask of the wrapped
difference is the difference of unbounded integers reduced mod `M + 1`. -/
theorem frontSlot_eq_slotAt {f : Front} (h : FrontInv f) (off : Nat) : frontSlot f off = slotAt f off := by
  obtain ⟨k, hk, hmask⟩ := h.size
  have hand : frontSlot f off = (f.idx - BitVec.ofNat 32 off).toNat % 2 ^ k := by
    rw [frontSlot, BitVec.toNat_and, show f.mask.toNat = 2 ^ k - 1 by omega, Nat.and_two_pow_sub_one_eq_mod]
  have hwrap : ((f.idx - BitVec.ofNat 32 off).toNat : Int) = ((f.idx.toNat : Int) - off) % 2 ^ 32 := by
    rw [BitVec.toNat_sub, BitVec.toNat_ofNat]
    omega
  have hmaskInt : (f.mask.toNat : Int) + 1 = 2 ^ k := by exact_mod_cast hmask
  have hdvd : (2 : Int) ^ k ∣ 2 ^ 32 := pow_dvd_pow 2 hk
  rw [hand, slotAt, hmaskInt, ← Int.emod_emod_of_dvd _ hdvd, ← hwrap]
  norm_cast

theorem idx_and_mask_eq_slotAt {f : Front} (h : FrontInv f) : (f.idx &&& f.mask).toNat = slotAt f 0 := by
  rw [← frontSlot_eq_slotAt h, frontSlot, BitVec.sub_zero]

theorem neighbour_eq {f : Front} (h : FrontInv f) (x y z : Bool) :
    neighbour f x y z =
      frontSlotValue f (slotAt f (x.toNat + f.dy.toNat * y.toNat + f.dz.toNat * z.toNat)) := by
  rw [neighbour, frontSlot_eq_slotAt h, neighbourOffset_eq h]

/-- Offsets less than a ring apart are different slots. -/
theorem slotAt_ne_slotAt_zero {f : Front} {o : Nat} (ho : 1 ≤ o) (hle : o ≤ f.mask.toNat) :
    slotAt f o ≠ slotAt f 0 := by
  intro heq
  have hpos : (0 : Int) < f.mask.toNat + 1 := by omega
  have hmod : (f.idx.toNat - o : Int) % (f.mask.toNat + 1) = (f.idx.toNat - (0 : Nat)) % (f.mask.toNat + 1) := by
    have hnonneg := Int.emod_nonneg (f.idx.toNat - o : Int) hpos.ne'
    have hnonneg' := Int.emod_nonneg (f.idx.toNat - (0 : Nat) : Int) hpos.ne'
    unfold slotAt at heq
    omega
  have hdvd : ((f.mask.toNat + 1 : Nat) : Int) ∣ o := by simpa using Int.ModEq.dvd hmod
  have := Nat.le_of_dvd ho (Int.natCast_dvd_natCast.mp hdvd)
  omega

/-! ### A run of pushes (R802) -/

/-- The front after the values of a list are pushed, the first one first. -/
def pushAll (vs : List W64) (f : Front) : Front := vs.foldl (fun f v => frontPushValue v f) f

@[simp] theorem pushAll_nil (f : Front) : pushAll [] f = f := rfl

@[simp] theorem pushAll_cons (v : W64) (vs : List W64) (f : Front) :
    pushAll (v :: vs) f = pushAll vs (frontPushValue v f) := rfl

theorem pushAll_append (vs ws : List W64) (f : Front) : pushAll (vs ++ ws) f = pushAll ws (pushAll vs f) :=
  List.foldl_append

theorem pushAll_concat (vs : List W64) (v : W64) (f : Front) :
    pushAll (vs ++ [v]) f = frontPushValue v (pushAll vs f) := pushAll_append vs [v] f

theorem frontPushZeros_eq_pushAll (n : Nat) (f : Front) :
    frontPushZeros n f = pushAll (List.replicate n f.zero) f := by
  induction n generalizing f with
  | zero => rfl
  | succ n ih => rw [frontPushZeros, ih, frontPushValue_zero, List.replicate_succ, pushAll_cons]

/-- Pushes write FRONT_IDX and the ring only. -/
theorem pushAll_frame (vs : List W64) (f : Front) :
    pushAll vs f = { f with idx := f.idx + BitVec.ofNat 32 vs.length, ring := (pushAll vs f).ring } := by
  induction vs generalizing f with
  | nil => simp
  | cons v vs ih =>
    have hidx : f.idx + 1 + BitVec.ofNat 32 vs.length = f.idx + BitVec.ofNat 32 (vs.length + 1) := by
      rw [BitVec.ofNat_add, BitVec.add_assoc, BitVec.add_comm 1]
      rfl
    rw [pushAll_cons, ih, List.length_cons, ← hidx]
    rfl

section
variable (vs : List W64) (f : Front)

@[simp] theorem pushAll_valid : (pushAll vs f).valid = f.valid := by rw [pushAll_frame]
@[simp] theorem pushAll_w : (pushAll vs f).w = f.w := by rw [pushAll_frame]
@[simp] theorem pushAll_dy : (pushAll vs f).dy = f.dy := by rw [pushAll_frame]
@[simp] theorem pushAll_dz : (pushAll vs f).dz = f.dz := by rw [pushAll_frame]
@[simp] theorem pushAll_mask : (pushAll vs f).mask = f.mask := by rw [pushAll_frame]
@[simp] theorem pushAll_zero : (pushAll vs f).zero = f.zero := by rw [pushAll_frame]

end

/-- A push of a value that fits keeps the front's invariants: the slot written is inside the mask. -/
theorem frontInv_push {f : Front} (h : FrontInv f) {v : W64} (hv : fitsWidth f.w v = true) :
    FrontInv (frontPushValue v f) where
  stride_x := h.stride_x
  size := h.size
  reach := h.reach
  zero := h.zero
  canonical := frontPushValue_wf v h.canonical
  slots := Ring_write_within (by rw [BitVec.toNat_and]; exact Nat.and_le_right) hv h.slots

theorem frontInv_pushAll {f : Front} {vs : List W64} (h : FrontInv f) (hv : ∀ v ∈ vs, fitsWidth f.w v = true) :
    FrontInv (pushAll vs f) := by
  induction vs generalizing f with
  | nil => exact h
  | cons v vs ih =>
    obtain ⟨hfirst, hrest⟩ := List.forall_mem_cons.mp hv
    exact ih (frontInv_push h hfirst) hrest

/-! ### What a run of pushes leaves in the slots (R807) -/

section
variable {f : Front} {v : W64} (h : FrontInv f) (hv : fitsWidth f.w v = true)
include h hv

/-- A push moves every slot one offset further back. -/
theorem slotAt_push (o : Nat) : slotAt (frontPushValue v f) (o + 1) = slotAt f o := by
  have hidx : f.idx + 1 - BitVec.ofNat 32 (o + 1) = f.idx - BitVec.ofNat 32 o := by
    rw [BitVec.ofNat_add]
    bv_omega
  rw [← frontSlot_eq_slotAt (frontInv_push h hv), ← frontSlot_eq_slotAt h, frontSlot, frontSlot, frontPushValue_idx,
    frontPushValue_mask, hidx]

theorem frontSlotValue_push_last :
    frontSlotValue (frontPushValue v f) (slotAt (frontPushValue v f) 1) = v := by
  rw [slotAt_push h hv, ← idx_and_mask_eq_slotAt h]
  exact frontSlotValue_push_same v h.canonical

theorem frontSlotValue_push_earlier {o : Nat} (ho : 1 ≤ o) (hle : o ≤ f.mask.toNat) :
    frontSlotValue (frontPushValue v f) (slotAt (frontPushValue v f) (o + 1)) = frontSlotValue f (slotAt f o) := by
  rw [slotAt_push h hv]
  exact frontSlotValue_push_other v f (idx_and_mask_eq_slotAt h ▸ slotAt_ne_slotAt_zero ho hle)

end

section
variable {f : Front} {vs : List W64} (h : FrontInv f)
include h

/-- Ring sufficiency: within the ring's size an offset reads the push that long ago, and beyond the pushes what the slot
held before them. -/
theorem frontSlotValue_pushAll (hv : ∀ v ∈ vs, fitsWidth f.w v = true) {o : Nat} (ho : 1 ≤ o)
    (hle : o ≤ f.mask.toNat + 1) :
    frontSlotValue (pushAll vs f) (slotAt (pushAll vs f) o) =
      if o ≤ vs.length then vs.getD (vs.length - o) 0 else frontSlotValue f (slotAt f (o - vs.length)) := by
  induction vs using List.reverseRecOn generalizing o with
  | nil => exact (if_neg (Nat.not_le.mpr ho)).symm
  | append_singleton vs v ih =>
    obtain ⟨hearlier, hlast⟩ := List.forall_mem_append.mp hv
    have hinv := frontInv_pushAll h hearlier
    have hlast : fitsWidth (pushAll vs f).w v = true := by simpa using hlast
    rw [pushAll_concat, List.length_append, List.length_singleton]
    obtain ⟨o, rfl⟩ : ∃ p, o = p + 1 := ⟨o - 1, by omega⟩
    cases o with
    | zero => simp [frontSlotValue_push_last hinv hlast]
    | succ o =>
      rw [frontSlotValue_push_earlier hinv hlast (by omega) (by simpa using hle), ih hearlier (by omega) (by omega),
        Nat.add_sub_add_right, Nat.add_sub_add_right]
      simp only [Nat.add_le_add_iff_right]
      split
      · rw [List.getD_append _ _ _ _ (by omega)]
      · rfl

/-- Pushes leave every slot they do not reach. -/
theorem frontSlotValue_pushAll_other (hv : ∀ v ∈ vs, fitsWidth f.w v = true) {k : Nat}
    (hk : ∀ o, 1 ≤ o → o ≤ vs.length → k ≠ slotAt (pushAll vs f) o) :
    frontSlotValue (pushAll vs f) k = frontSlotValue f k := by
  induction vs using List.reverseRecOn with
  | nil => rfl
  | append_singleton vs v ih =>
    obtain ⟨hearlier, hlast⟩ := List.forall_mem_append.mp hv
    have hinv := frontInv_pushAll h hearlier
    have hlast : fitsWidth (pushAll vs f).w v = true := by simpa using hlast
    rw [pushAll_concat, List.length_append, List.length_singleton] at hk
    have hslot : ∀ o, o ≤ vs.length → k ≠ slotAt (pushAll vs f) o := fun o ho =>
      slotAt_push hinv hlast o ▸ hk (o + 1) (by omega) (by omega)
    rw [pushAll_concat, frontSlotValue_push_other v _ (idx_and_mask_eq_slotAt hinv ▸ hslot 0 (by omega))]
    exact ih hearlier fun o _ ho => hslot o ho

end

end Sys2Proof.Proofs
end

section
/-! PROOFS. What every command does to the front, and the front's invariants under every step: O55. -/

namespace Sys2Proof.Proofs

open Sys2Proof.Machine Sys2Proof.Safety Sys2Proof.Laws

/-! ### The value a decode pushes (43_residual.md R702) -/

theorem resDecode_lt {params : Params} {w : Width} {p : W64} {c : Coder} {m : Model} {r : W64 × Coder × Model}
    (hp : p.toNat < 2 ^ w.bits) (h : resDecode params w p c m = some r) : r.1.toNat < 2 ^ w.bits := by
  unfold resDecode at h
  split at h
  · cases h
  · split at h
    · cases h
      exact hp
    · dsimp only at h
      split at h
      · cases h
      · cases h
        rw [truncW_toNat]
        exact Nat.mod_lt _ (Nat.two_pow_pos _)

/-- The map of bit patterns undoes its inverse on a value that fits (40_bitmap.md R405). -/
theorem mapForwardW_mapInverseW {w : Width} {a : W64} (ha : a.toNat < 2 ^ w.bits) :
    mapForwardW w (mapInverseW w a) = a := by
  have hlow : lowBits w (zext (mapInverse (lowBits w a))) = mapInverse (lowBits w a) :=
    (BitVec.setWidth_setWidth_of_le _ (width_bits_le w)).trans (BitVec.setWidth_eq _)
  apply BitVec.eq_of_toNat_eq
  rw [mapInverseW, mapForwardW, hlow, mapForward_mapInverse (width_bits_pos w), zext_toNat, lowBits_toNat ha]

/-! ### FRONT_INIT (44_front.md R800) -/

/-- FRONT_INIT leaves the front, or builds the one of the configuration within the limit. -/
theorem exec_frontInit_cases {s t : State} (h : exec .frontInit s = .next t) :
    (t.front = s.front ∧ (s.faults.flag = true ∨ t.faults.flag = true)) ∨
      (ringSize s.cfg.nx.toNat s.cfg.ny.toNat ≤ s.params.frontMaxSlots ∧ t = { s with front := freshFront s.cfg }) := by
  unfold exec execFrontInit at h
  obtain ⟨hf, rfl⟩ | ⟨-, _, -, rfl⟩ | ⟨-, -, hu, -⟩ | ⟨-, hc, hu⟩ := command_cases h
  · exact .inl ⟨rfl, .inl hf⟩
  · exact .inl ⟨rfl, .inr rfl⟩
  · cases hu
  · cases hu
    exact .inr ⟨by simpa using firstFault_eq_none.mp hc, rfl⟩

/-! ### The commands that push (R804, R805; 45_pipeline.md R901, R902) -/

/-- The command pushes the values it says it pushes, each of the front's width, and does nothing else to the front. -/
def PushesOnly (i : Instr) (s t : State) : Prop :=
  t.front = pushAll (pushed i s t) s.front ∧ ∀ v ∈ pushed i s t, fitsWidth s.front.w v = true

theorem pushesOnly_of_nothing_pushed {i : Instr} {s t : State} (hfront : t.front = s.front) (h : pushed i s t = []) :
    PushesOnly i s t := by
  simp [PushesOnly, h, hfront]

theorem pushesOnly_one {i : Instr} {s t : State} {v : W64} (hfront : t.front = frontPushValue v s.front)
    (h : pushed i s t = [v]) (hv : v.toNat < 2 ^ s.front.w.bits) : PushesOnly i s t := by
  simp [PushesOnly, h, hfront, fitsWidth, hv]

/-- A command only pushes what it says if its effect does, once its checks are passed. -/
theorem command_pushesOnly {i : Instr} {s t : State} {checks : List Check} {effect : State → Option State}
    (h : command i s checks effect = .next t)
    (he : s.faults.flag = false → (∀ c ∈ checks, c.1 = false) → ∀ u, effect s = some u → PushesOnly i s u) :
    PushesOnly i s t := by
  obtain ⟨hf, rfl⟩ | ⟨-, _, -, rfl⟩ | ⟨-, -, -, rfl⟩ | ⟨hf, hc, hu⟩ := command_cases h
  · exact pushesOnly_of_nothing_pushed rfl (pushed_of_halted hf)
  · exact pushesOnly_of_nothing_pushed rfl (pushed_of_halted rfl)
  · exact pushesOnly_of_nothing_pushed rfl (pushed_of_holding rfl)
  · exact he hf (firstFault_eq_none.mp hc) t hu

/-- A command that is neither RESET nor FRONT_INIT nor one that pushes leaves the front. -/
theorem exec_front_other {i : Instr} {s t : State} (h : exec i s = .next t) (hr : i ≠ .reset)
    (hi : i ∉ [.frontInit, .frontPush, .stepEnc, .stepDec]) (ha : ∀ x y z, i ≠ .frontAdvance x y z) :
    t.front = s.front := by
  obtain ⟨_, _, rfl⟩ | hc := exec_frame h
  · rfl
  · obtain hreset | (hwrites | ⟨x, y, z, hadvance⟩) | hkeeps := hc.front_cases
    · exact absurd hreset hr
    · exact absurd hwrites hi
    · exact absurd hadvance (ha x y z)
    · exact hkeeps

/-- What a command but RESET and FRONT_INIT does to the front: it pushes. -/
theorem exec_pushesOnly {i : Instr} {s t : State} (h : exec i s = .next t) (hold : s.holding = false)
    (hfront : FrontOk s.front) (hr : i ≠ .reset) (hi : i ≠ .frontInit) : PushesOnly i s t := by
  have other := exec_front_other h hr
  unfold exec at h
  cases i with
  | reset => exact absurd rfl hr
  | frontInit => exact absurd rfl hi
  | frontPush =>
    refine command_pushesOnly h fun hf hchecks u hu => ?_
    have hv : s.din0.toNat < 2 ^ s.front.w.bits := needOperand_lt hchecks (by simp [fitsWidth])
    cases hu
    exact pushesOnly_one rfl (by simp [pushed, hf, hold]) hv
  | frontAdvance x y z =>
    refine command_pushesOnly h fun hf hchecks u hu => ?_
    have hinv : FrontInv s.front := hfront (needFront_passes.mp (hchecks _ (by simp)))
    cases hu
    have hpushed : pushed (.frontAdvance x y z) s
        { s with front := frontPushZeros (neighbourOffset s.front x y z) s.front } =
          List.replicate (neighbourOffset s.front x y z) s.front.zero := by
      simp [pushed, hf, hold]
    rw [PushesOnly, hpushed]
    exact ⟨frontPushZeros_eq_pushAll _ _, fun v hmem => List.eq_of_mem_replicate hmem ▸ front_zero_fits hinv⟩
  | stepEnc =>
    refine command_pushesOnly h fun hf hchecks u hu => ?_
    have hwidth : s.front.w = s.cfg.w := needFrontWidth_passes.mp (hchecks (needFrontWidth s) (by simp [stepChecks]))
    dsimp only at hu
    split at hu
    · cases hu
    · cases hu
      exact pushesOnly_one rfl (by simp [pushed, hf, hold]) (hwidth ▸ mapForwardW_lt _ _)
  | stepDec =>
    refine command_pushesOnly h fun hf hchecks u hu => ?_
    have hwidth : s.front.w = s.cfg.w := needFrontWidth_passes.mp (hchecks (needFrontWidth s) (by simp [stepChecks]))
    dsimp only at hu
    split at hu
    · cases hu
    · next a c m hc =>
      have ha : a.toNat < 2 ^ s.cfg.w.bits := resDecode_lt (hwidth ▸ lorenzo_lt s.front) hc
      cases hu
      exact pushesOnly_one rfl (by simp [pushed, hf, hold, hwidth, mapForwardW_mapInverseW ha]) (hwidth ▸ ha)
  | _ => exact pushesOnly_of_nothing_pushed (other (by simp) (by simp)) (by simp [pushed])

/-! ### The invariants -/

theorem reset_frontOk : FrontOk Front.reset := nofun

theorem frontOk_pushAll {f : Front} {vs : List W64} (h : FrontOk f) (hv : ∀ v ∈ vs, fitsWidth f.w v = true) :
    FrontOk (pushAll vs f) := fun hvalid =>
  frontInv_pushAll (h (by simpa using hvalid)) hv

/-- Every command keeps what holds of the front. -/
theorem exec_keeps_frontOk {i : Instr} {s t : State} (h : exec i s = .next t) (hold : s.holding = false)
    (hs : FrontOk s.front) : FrontOk t.front := by
  by_cases hr : i = .reset
  · subst hr
    cases h
    exact reset_frontOk
  by_cases hi : i = .frontInit
  · subst hi
    obtain ⟨hkeeps, -⟩ | ⟨hfits, rfl⟩ := exec_frontInit_cases h
    · exact hkeeps ▸ hs
    · exact fun _ => freshFront_frontInv (hfits.trans (frontMaxSlots_le _))
  · obtain ⟨hpush, hv⟩ := exec_pushesOnly h hold hs hr hi
    exact hpush ▸ frontOk_pushAll hs hv

theorem hostStep_front {s t : State} (h : hostStep s = .next t) : t.front = s.front ∨ t.front = Front.reset := by
  obtain rfl | ⟨_, _, -, -, rfl⟩ | ⟨_, -, -, rfl⟩ | ⟨_, -, rfl⟩ | ⟨_, _, _, _, -, -, rfl⟩ := hostStep_cases h
  · exact .inl rfl
  · exact .inl rfl
  · exact .inl rfl
  · exact .inr rfl
  · exact .inl rfl

/-- Settles O55: by the three kinds of step; a command that runs finds no hold, and does to the front what it pushes. -/
theorem stepKeepsTheFrontInvariants : Obligations.StepKeepsTheFrontInvariants := by
  intro s t hs h
  obtain ⟨-, hh⟩ | ⟨w, c, -, -, rfl⟩ | ⟨w, i, u, hw, -, hu, rfl⟩ := step_cases h
  · obtain hkeeps | hreset := hostStep_front hh
    · exact hkeeps ▸ hs
    · exact hreset ▸ reset_frontOk
  · rw [settlePort_front, raiseFault_front]
    exact hs
  · rw [settlePort_front]
    exact exec_keeps_frontOk hu (fetch_eq_some.mp hw).1 hs

end Sys2Proof.Proofs
end

section
/-! PROOFS. The commands of the front (44_front.md R800 to R806): O24, O25, O26, O27, O28. -/

namespace Sys2Proof.Proofs

open Sys2Proof.Machine Sys2Proof.Safety Sys2Proof.Laws

/-! ### Each command once its checks are passed -/

section
variable {s : State} (hf : s.faults.flag = false)
include hf

theorem exec_frontInit_completes (h : ringSize s.cfg.nx.toNat s.cfg.ny.toNat ≤ s.params.frontMaxSlots) :
    exec .frontInit s = .next { s with front := freshFront s.cfg } := by
  unfold exec execFrontInit
  exact command_runs hf (by simpa using h)

theorem exec_frontInit_capacity (h : s.params.frontMaxSlots < ringSize s.cfg.nx.toNat s.cfg.ny.toNat) :
    exec .frontInit s = .next (faulted .frontInit 9 s) := by
  unfold exec execFrontInit
  exact command_faults hf (firstFault_of_fails (decide_eq_true h))

variable (hv : s.front.valid = true)
include hv

theorem exec_frontAt_completes (x y z : Bool) :
    exec (.frontAt x y z) s = .next { s with dout0 := neighbour s.front x y z } := by
  unfold exec execFrontAt
  exact command_runs hf (by simp [hv])

theorem exec_frontPush_completes (h : s.din0.toNat < 2 ^ s.front.w.bits) :
    exec .frontPush s = .next { s with front := frontPushValue s.din0 s.front } := by
  unfold exec execFrontPush
  exact command_runs hf (by simp [hv, needOperand, fitsWidth, h])

theorem exec_frontAdvance_completes (x y z : Bool) : exec (.frontAdvance x y z) s =
    .next { s with front := frontPushZeros (neighbourOffset s.front x y z) s.front } := by
  unfold exec execFrontAdvance
  exact command_runs hf (by simp [hv])

theorem exec_predict_completes : exec .predict s = .next { s with dout0 := lorenzo s.front } := by
  unfold exec execPredict
  exact command_runs hf (by simp [hv])

/-- FRONT_AT in plain arithmetic. -/
theorem exec_frontAt_slotAt (h : FrontInv s.front) (x y z : Bool) :
    exec (.frontAt x y z) s = .next { s with
      dout0 := frontSlotValue s.front
        (slotAt s.front (x.toNat + s.front.dy.toNat * y.toNat + s.front.dz.toNat * z.toNat)) } := by
  rw [exec_frontAt_completes hf hv, neighbour_eq h]

end

/-! ### The statements about one command -/

/-- Settles O24: the limit is a power of two, so the ring is within it exactly when the slots are. -/
theorem frontInitBuildsTheRing : Obligations.FrontInitBuildsTheRing := by
  intro s hf
  refine ⟨fun hfits => ?_, fun hbig => ?_⟩
  · have hring := (ringSize_le_frontMaxSlots_iff s.cfg s.params).mpr hfits
    have hword := hring.trans (frontMaxSlots_le _)
    have hmask := freshFront_mask_toNat hword
    exact ⟨freshFront s.cfg, exec_frontInit_completes hf hring, rfl, rfl, rfl, freshFront_dy_toNat hword,
      freshFront_dz_toNat hword, ⟨_, hmask⟩, hmask ▸ slotsNeeded_le_ringSize s.cfg, hmask ▸ ringSize_lt_two_mul s.cfg,
      mapForwardW_zero_toNat s.cfg.w, rfl, fun j _ => frontSlotValue_freshFront s.cfg j⟩
  · exact exec_frontInit_capacity hf (hbig.trans_le (slotsNeeded_le_ringSize s.cfg))

/-- Settles O25: the mask of the 32-bit difference is the remainder of the unbounded one. -/
theorem frontAtReadsTheNeighbourSlot : Obligations.FrontAtReadsTheNeighbourSlot :=
  fun _ x y z hf hv h => exec_frontAt_slotAt hf hv h x y z

/-- Settles O26: one write of the ring, at offset 0. -/
theorem frontPushWritesOneSlot : Obligations.FrontPushWritesOneSlot := by
  intro s hf hv h hfits
  refine ⟨frontPushValue s.din0 s.front, exec_frontPush_completes hf hv hfits, rfl, ?_, fun k hk => ?_⟩
  · rw [← idx_and_mask_eq_slotAt h]
    exact frontSlotValue_push_same s.din0 h.canonical
  · rw [← idx_and_mask_eq_slotAt h] at hk
    exact frontSlotValue_push_other s.din0 s.front hk

/-- Settles O27: the advance is a run of pushes of one value, no longer than the ring. -/
theorem frontAdvancePushesZeroMappings : Obligations.FrontAdvancePushesZeroMappings := by
  intro s x y z off hf hv h hoff
  rw [← neighbourOffset_eq h] at hoff
  have hle : off ≤ s.front.mask.toNat + 1 := hoff ▸ neighbourOffset_le h x y z
  have hzeros : ∀ v ∈ List.replicate off s.front.zero, fitsWidth s.front.w v = true := fun v hmem =>
    List.eq_of_mem_replicate hmem ▸ front_zero_fits h
  refine ⟨pushAll (List.replicate off s.front.zero) s.front, ?_, ?_, fun o ho hlast => ?_, fun k _ hk => ?_,
    fun h0 => ?_⟩
  · rw [exec_frontAdvance_completes hf hv, frontPushZeros_eq_pushAll, hoff]
  · simpa using pushAll_frame (List.replicate off s.front.zero) s.front
  · rw [frontSlotValue_pushAll h hzeros ho (by omega), List.length_replicate, if_pos hlast,
      List.getD_replicate _ (by omega)]
  · exact frontSlotValue_pushAll_other h hzeros (by simpa using hk)
  · rw [h0]
    rfl

/-! ### The prediction (R806) -/

theorem add_toNat_modEq (x y : W64) : ((x + y).toNat : Int) ≡ x.toNat + y.toNat [ZMOD 2 ^ 64] := by
  rw [BitVec.toNat_add, Int.natCast_mod, Int.natCast_add]
  exact Int.mod_modEq _ _

theorem sub_toNat_modEq (x y : W64) : ((x - y).toNat : Int) ≡ x.toNat - y.toNat [ZMOD 2 ^ 64] := by
  have hy := y.isLt
  rw [BitVec.toNat_sub]
  unfold Int.ModEq
  omega

/-- The seven neighbours are added and subtracted mod 2^64, which every width divides. -/
theorem lorenzo_toNat {f : Front} (h : FrontInv f) : ((lorenzo f).toNat : Int) = lorenzoSum f % 2 ^ f.w.bits := by
  have value : ∀ x y z, ((neighbour f x y z).toNat : Int) = neighbourInt f x y z := fun x y z => by
    rw [neighbour_eq h, neighbourInt]
  have hdvd : (2 : Int) ^ f.w.bits ∣ 2 ^ 64 := pow_dvd_pow 2 (width_bits_le f.w)
  rw [lorenzo, truncW_toNat, lorenzoSum, Int.natCast_mod, Nat.cast_pow, Nat.cast_ofNat]
  simp only [← value]
  exact Int.ModEq.of_dvd hdvd <|
    (add_toNat_modEq _ _).trans <| .add_right _ <|
    (sub_toNat_modEq _ _).trans <| .sub_right _ <|
    (add_toNat_modEq _ _).trans <| .add_right _ <|
    (sub_toNat_modEq _ _).trans <| .sub_right _ <|
    (add_toNat_modEq _ _).trans <| .add_right _ <| sub_toNat_modEq _ _

/-- Settles O28: PREDICT gives the model's prediction, which is the sum of R806. -/
theorem predictGivesTheLorenzoSum : Obligations.PredictGivesTheLorenzoSum :=
  fun s hf hv h => ⟨lorenzo s.front, exec_predict_completes hf hv, lorenzo_toNat h⟩

end Sys2Proof.Proofs
end

section
/-! PROOFS. Ring sufficiency (44_front.md R807): O29. -/

namespace Sys2Proof.Proofs

open Sys2Proof.Machine Sys2Proof.Safety Sys2Proof.Laws

/-- Of the state a command ran from only DIN0 and the front enter what it pushed. -/
theorem pushesOnly_of_other_inputs {i : Instr} {s t : State} {hold : Bool} {b : W64}
    (h : PushesOnly i { s with holding := hold, din1 := b } t) : PushesOnly i s t := h

/-- A run of commands but FRONT_INIT and RESET pushes the values it says, each of the front's width. -/
theorem runPushes_pushAll {cmds : List (Instr × W64 × W64)} {s u : State} {vs : List W64} (h : FrontInv s.front)
    (hc : ∀ c ∈ cmds, c.1 ≠ .frontInit ∧ c.1 ≠ .reset) (hrun : runPushes cmds s = some (vs, u)) :
    u.front = pushAll vs s.front ∧ ∀ v ∈ vs, fitsWidth s.front.w v = true := by
  induction cmds generalizing s vs with
  | nil => cases hrun; exact ⟨rfl, nofun⟩
  | cons c rest ih =>
    obtain ⟨i, a, b⟩ := c
    obtain ⟨⟨hinit, hreset⟩, hrest⟩ := List.forall_mem_cons.mp hc
    cases hi : exec i { s with holding := false, din0 := a, din1 := b } with
    | fault r => simp [runPushes, hi] at hrun
    | refused r => simp [runPushes, hi] at hrun
    | next t =>
      obtain ⟨hpush, hv⟩ : PushesOnly i { s with din0 := a } t :=
        pushesOnly_of_other_inputs (exec_pushesOnly hi rfl (fun _ => h) hreset hinit)
      rw [runPushes_cons hi] at hrun
      obtain ⟨⟨ws, _⟩, hafter, ⟨⟩⟩ := Option.map_eq_some_iff.mp hrun
      obtain ⟨hws, hvs⟩ := ih (hpush ▸ frontInv_pushAll h hv) hrest hafter
      rw [hpush, pushAll_w] at hvs
      rw [hpush, ← pushAll_append] at hws
      exact ⟨hws, List.forall_mem_append.mpr ⟨hv, hvs⟩⟩

/-- Settles O29: the run is a run of pushes into the front just built, every slot of which reads the zero mapping. -/
theorem neighbourIsThePushThatLongAgo : Obligations.NeighbourIsThePushThatLongAgo := by
  intro r s u cmds vs hr hinit hs hc hrun
  obtain ⟨-, hfault⟩ | ⟨hfits, rfl⟩ := exec_frontInit_cases hinit
  · simp [hr, hs] at hfault
  have hinv : FrontInv (freshFront r.cfg) := freshFront_frontInv (hfits.trans (frontMaxSlots_le _))
  obtain ⟨hu, hv⟩ := runPushes_pushAll hinv hc hrun
  have hinv' : FrontInv u.front := hu ▸ frontInv_pushAll hinv hv
  have hread : ∀ o, 1 ≤ o → o ≤ (freshFront r.cfg).mask.toNat + 1 → frontSlotValue u.front (slotAt u.front o) =
      if o ≤ vs.length then vs.getD (vs.length - o) 0 else BitVec.ofNat 64 (2 ^ (r.cfg.w.bits - 1)) := by
    intro o ho hle
    rw [hu, frontSlotValue_pushAll hinv hv ho hle, frontSlotValue_freshFront, front_zero_eq hinv, freshFront_w]
  refine ⟨hread, hinv.reach, fun hflag x y z off hoff hpos => ?_⟩
  have hvalid : u.front.valid = true := by rw [hu, pushAll_valid, freshFront_valid]
  have hle : off ≤ (freshFront r.cfg).mask.toNat + 1 :=
    hoff ▸ neighbourOffset_eq hinv x y z ▸ neighbourOffset_le hinv x y z
  rw [exec_frontAt_slotAt hflag hvalid hinv', ← hread off hpos hle, hoff]
  simp only [hu, pushAll_dy, pushAll_dz]

end Sys2Proof.Proofs
end

section
/-! PROOFS. The pipeline step (45_pipeline.md R901, R902): STEP_ENC and STEP_DEC as chains of the units' commands:
O48, O49. -/

namespace Sys2Proof.Proofs

open Sys2Proof.Machine Sys2Proof.Safety Sys2Proof.Laws

/-- `RES_Encode` comes to its end in the encoder's mode. -/
theorem resEncode_completes {c : Coder} (hm : c.mode = .enc) (params : Params) (w : Width) (a p : W64) (m : Model) :
    ∃ c' m', resEncode params w a p c m = some (c', m') := by
  obtain ⟨_, hruns⟩ := resEncode_runs params w a p c m
  obtain ⟨⟨c', m'⟩, hc⟩ := hruns.completes_of_map (.inl hm)
  exact ⟨c', m', hc⟩

/-- The checks of STEP_DEC are R900's items 1 to 3. -/
theorem stepDec_checks {s : State} (hm : s.coder.mode = .dec) (hv : s.model.valid = true)
    (hfront : s.front.valid = true) (hs : s.model.s.toNat = 2 * s.cfg.w.bits + 1) (hw : s.front.w = s.cfg.w) :
    firstFault (needMode .dec s :: stepChecks s) = none :=
  firstFault_eq_none.mpr (by simp [stepChecks, hm, hv, hfront, hs, hw])

section
variable {s : State} (hf : s.faults.flag = false) (hv : s.model.valid = true) (hfront : s.front.valid = true)
  (hs : s.model.s.toNat = 2 * s.cfg.w.bits + 1) (hw : s.front.w = s.cfg.w)
include hf hv hfront hs hw

theorem exec_stepEnc_completes (hm : s.coder.mode = .enc) (hx : s.din0.toNat < 2 ^ s.cfg.w.bits) {c : Coder} {m : Model}
    (hc : resEncode s.params s.cfg.w (mapForwardW s.cfg.w s.din0) (lorenzo s.front) s.coder s.model = some (c, m)) :
    exec .stepEnc s = .next { s with
      coder := c, model := m, front := frontPushValue (mapForwardW s.cfg.w s.din0) s.front,
      dout0 := mapForwardW s.cfg.w s.din0, dout1 := lorenzo s.front } := by
  unfold exec execStepEnc
  refine command_completes hf (firstFault_eq_none.mpr ?_) (by dsimp only; rw [hc])
  simp [stepChecks, hm, hv, hfront, hs, hw, needOperand, fitsWidth, hx]

variable (hm : s.coder.mode = .dec)
include hm

theorem exec_stepDec_completes {a : W64} {c : Coder} {m : Model}
    (hc : resDecode s.params s.cfg.w (lorenzo s.front) s.coder s.model = some (a, c, m)) :
    exec .stepDec s = .next { s with
      coder := c, model := m, front := frontPushValue a s.front, dout0 := mapInverseW s.cfg.w a,
      dout1 := lorenzo s.front } := by
  unfold exec execStepDec
  exact command_completes hf (stepDec_checks hm hv hfront hs hw) (by dsimp only; rw [hc])

theorem exec_stepDec_holds (hc : resDecode s.params s.cfg.w (lorenzo s.front) s.coder s.model = none) :
    exec .stepDec s = .next { s with holding := true } := by
  unfold exec execStepDec
  exact command_holds hf (stepDec_checks hm hv hfront hs hw) (by dsimp only; rw [hc])

end

/-- Settles O48: each unit's command completes, and the step's effect is theirs in a row. -/
theorem stepEncChainsTheUnits : Obligations.StepEncChainsTheUnits := by
  intro s hf hm hv hfront _ _ _ hs hw hx
  have ha : (mapForwardW s.cfg.w s.din0).toNat < 2 ^ s.cfg.w.bits := mapForwardW_lt _ _
  have hp : (lorenzo s.front).toNat < 2 ^ s.cfg.w.bits := hw ▸ lorenzo_lt s.front
  obtain ⟨c, m, hc⟩ := resEncode_completes hm s.params s.cfg.w (mapForwardW s.cfg.w s.din0) (lorenzo s.front) s.model
  have hresEnc := exec_resEnc_completes
    (s := { s with din0 := mapForwardW s.cfg.w s.din0, din1 := lorenzo s.front }) hf hm hv hs ha hp hc
  have hpush := exec_frontPush_completes
    (s := { s with din0 := mapForwardW s.cfg.w s.din0, din1 := lorenzo s.front, coder := c, model := m }) hf hfront
    (hw ▸ ha)
  exact ⟨_, _, _, _, exec_predict_completes hf hfront, exec_mapFwd_completes hf hx, hresEnc, hpush,
    exec_stepEnc_completes hf hv hfront hs hw hm hx hc⟩

/-- Settles O49: by the residual's decode, which holds or gives the value the step pushes and maps back. -/
theorem stepDecChainsTheUnits : Obligations.StepDecChainsTheUnits := by
  intro s hf hm hv hfront _ hmodel _ hs hw
  have hp : (lorenzo s.front).toNat < 2 ^ s.cfg.w.bits := hw ▸ lorenzo_lt s.front
  cases hc : resDecode s.params s.cfg.w (lorenzo s.front) s.coder s.model with
  | none =>
    have hresDec := exec_resDec_holds (s := { s with holding := false, din1 := lorenzo s.front }) hf hm hv hs hp hc
    refine ⟨_, _, exec_predict_completes hf hfront, hresDec, fun hr => ?_,
      fun _ => exec_stepDec_holds hf hv hfront hs hw hm hc, nofun⟩
    obtain ⟨r, hsome⟩ := (resDecode_runs_25 hmodel hs s.params (lorenzo s.front) s.coder).completes_of_map (.inr hr)
    cases hc.symm.trans hsome
  | some r =>
    obtain ⟨a, c, m⟩ := r
    have ha : a.toNat < 2 ^ s.cfg.w.bits := resDecode_lt hp hc
    have hresDec := exec_resDec_completes (s := { s with holding := false, din1 := lorenzo s.front }) hf hm hv hs hp hc
    have hpush := exec_frontPush_completes
      (s := { s with holding := false, din0 := a, din1 := lorenzo s.front, dout0 := a, coder := c, model := m }) hf
      hfront (hw ▸ ha)
    have hmap := exec_mapInv_completes (s := { s with
      holding := false, din0 := a, din1 := lorenzo s.front, dout0 := a, coder := c, model := m,
      front := frontPushValue a s.front }) hf ha
    exact ⟨_, _, exec_predict_completes hf hfront, hresDec, fun _ => rfl, nofun,
      fun _ => ⟨_, _, hpush, hmap, exec_stepDec_completes hf hv hfront hs hw hm hc⟩⟩

end Sys2Proof.Proofs
end

section
/-! PROOFS. Residuals on both sides of a mirrored run (43_residual.md R707): what RES_Encode codes
RES_Decode returns. -/

namespace Sys2Proof.Proofs

open Sys2Proof.Machine Sys2Proof.Safety Sys2Proof.Laws

/-! ### The value a residual's class and raw bits give back (43_residual.md R701, R702) -/

theorem truncW_eq_self {w : Width} {x : W64} (h : x.toNat < 2 ^ w.bits) : truncW w x = x :=
  BitVec.eq_of_toNat_eq (by rw [truncW_toNat, Nat.mod_eq_of_lt h])

/-- The highest bit and the bits below it are the magnitude. -/
theorem residualValue_rawBits (w : Width) (above : Bool) (d p : W64) :
    residualValue w above (bsr d) (d - (1#64 <<< bsr d)) p = truncW w (if above then p + d else p - d) := by
  rw [residualValue, BitVec.add_comm _ (d - _), BitVec.sub_add_cancel]

/-- Where the raw step does not run the magnitude is 1. -/
theorem rawBits_of_class_zero {d : W64} (hd : d ≠ 0) (hk : bsr d = 0) : d - (1#64 <<< bsr d) = 0 := by
  have hraw := rawBits_lt hd
  rw [hk] at hraw ⊢
  exact BitVec.eq_of_toNat_eq (Nat.lt_one_iff.mp hraw)

/-! ### Symbol and raw bits on both sides -/

/-- A residual decode's value is the value and the model after it. -/
def decodeResidual (params : Params) (w : Width) (p : W64) (m : Model) (d : Coder) : Option ((W64 × Model) × Coder) :=
  (resDecode params w p d m).map fun r => ((r.1, r.2.2), r.2.1)

theorem decodeResidual_eq_some {params : Params} {w : Width} {p a : W64} {m m' : Model} {d c : Coder} :
    decodeResidual params w p m d = some ((a, m'), c) ↔ resDecode params w p d m = some (a, c, m') := by
  unfold decodeResidual
  cases resDecode params w p d m with
  | none => simp
  | some r => simp only [Option.map_some, Option.some.injEq, Prod.ext_iff]; tauto

/-- A decode that ends like another one wherever that one gives its value. -/
theorem Carries.imp {α β : Type} {f : Coder → Option (α × Coder)} {g : Coder → Option (β × Coder)} {v : α} {w : β}
    {c c' : Coder} (hf : Carries f v c c') (h : ∀ x y, f x = some (v, y) → g x = some (w, y)) : Carries g w c c' := by
  obtain ⟨out, hout, hback⟩ := hf
  refine ⟨out, hout, fun rest hrest => ?_⟩
  obtain ⟨hstart, hmirror⟩ := hback rest hrest
  refine ⟨hstart, fun x hx => ?_⟩
  obtain ⟨y, hy, hmy⟩ := hmirror x hx
  exact ⟨y, h x y hy, hmy⟩

/-- A decode that runs two others, one after the other, wherever they give their values. -/
theorem Carries.seq {α β γ : Type} {f : Coder → Option (α × Coder)} {g : Coder → Option (β × Coder)}
    {k : Coder → Option (γ × Coder)} {v : α} {w : β} {u : γ} {c d e : Coder} (hf : Carries f v c d)
    (hg : Carries g w d e) (h : ∀ x y z, f x = some (v, y) → g y = some (w, z) → k x = some (u, z)) :
    Carries k u c e := by
  refine (hf.bind Prod.mk hg).imp fun x _ hxz => ?_
  obtain ⟨⟨v', y⟩, hx, hrest⟩ := Option.bind_eq_some_iff.mp hxz
  obtain ⟨⟨w', z'⟩, hy, hpair⟩ := Option.map_eq_some_iff.mp hrest
  cases hpair
  exact h x _ _ hx hy

/-- A residual of magnitude `d` above or below its prediction, from its symbol. -/
theorem resEncodeMagnitude_carries {params : Params} {w : Width} {above : Bool} {sym : Nat} {d p : W64} {c : Coder}
    {m : Model} (h : CoderInv c) (hm : c.mode = .enc) (hmodel : ModelInv m) (hs : sym < m.s.toNat) (hd : d ≠ 0)
    (hside : if above then w.bits + 1 + bsr d = sym else sym + 1 + bsr d = w.bits) :
    ∃ c', resEncodeMagnitude params sym d c m = some (c', qsmTick sym m) ∧ c'.mode = .enc ∧ CoderInv c' ∧
      Carries (decodeResidual params w p m) (truncW w (if above then p + d else p - d), qsmTick sym m) c c' := by
  obtain ⟨hne, hclass⟩ := residualClass_of_distance (w := w) (sym := sym) (k := bsr d)
    (by cases above <;> simp at hside <;> omega)
  have habove : decide (w.bits < sym) = above := by cases above <;> simp at hside ⊢ <;> omega
  obtain ⟨e, he, hme, hinve, hsym⟩ := rcEncSym_carries h hm hmodel hs
  by_cases hruns : 0 < bsr d ∨ params.emitZeroWidthRaw = true
  · obtain ⟨c', hc, hmc, hinv, hraw⟩ := rcEncRaw_carries hinve hme (rawBits_lt hd)
    refine ⟨c', resEncodeMagnitude_with_raw he hruns hc, hmc, hinv, hsym.seq hraw fun x y z hx hy => ?_⟩
    rw [decodeResidual_eq_some, resDecode_with_raw (decodeSym_eq_some.mp hx) hne (hclass ▸ hruns), hclass, hy,
      Option.map_some, habove, residualValue_rawBits]
  · refine ⟨e, resEncodeMagnitude_without_raw he hruns, hme, hinve, hsym.imp fun x y hxy => ?_⟩
    have hzero := rawBits_of_class_zero hd (by omega)
    rw [decodeResidual_eq_some, resDecode_without_raw (decodeSym_eq_some.mp hxy) hne (hclass ▸ hruns), hclass,
      habove, ← hzero, residualValue_rawBits]

/-- `RES_Encode` of two values of `W` bits, and its mirror: the prediction was exact, too low, or too high. -/
theorem resEncode_carries (params : Params) {w : Width} {a p : W64} {c : Coder} {m : Model} (h : CoderInv c)
    (hm : c.mode = .enc) (hmodel : ModelInv m) (hs : m.s.toNat = 2 * w.bits + 1) (ha : a.toNat < 2 ^ w.bits)
    (hp : p.toNat < 2 ^ w.bits) :
    ∃ c' sym, sym < m.s.toNat ∧ resEncode params w a p c m = some (c', qsmTick sym m) ∧ c'.mode = .enc ∧ CoderInv c' ∧
      Carries (decodeResidual params w p m) (a, qsmTick sym m) c c' := by
  have hw := truncW_eq_self ha
  obtain hlt | heq | hgt := Nat.lt_trichotomy p.toNat a.toNat
  · obtain ⟨d, rfl⟩ : ∃ d, a = p + d := ⟨a - p, by rw [BitVec.add_comm, BitVec.sub_add_cancel]⟩
    have hsum : p.toNat + d.toNat = (p + d).toNat := by bv_omega
    have hd : d ≠ 0 := by bv_omega
    have hclass : bsr d < w.bits := bsr_lt (by omega)
    obtain ⟨c', hc, hmc, hinv, hcarries⟩ := resEncodeMagnitude_carries (params := params) (w := w) (above := true)
      (sym := w.bits + 1 + bsr d) (p := p) h hm hmodel (by omega) hd rfl
    rw [if_pos rfl, hw] at hcarries
    exact ⟨c', _, by omega, by rw [resEncode_above _ _ _ _ hd hsum, hc], hmc, hinv, hcarries⟩
  · obtain rfl := BitVec.eq_of_toNat_eq heq
    obtain ⟨c', hc, hmc, hinv, hcarries⟩ := rcEncSym_carries h hm hmodel (sym := w.bits) (by omega)
    exact ⟨c', _, by omega, by rw [resEncode_exact, hc], hmc, hinv, hcarries.imp fun x y hx =>
      decodeResidual_eq_some.mpr (resDecode_exact (decodeSym_eq_some.mp hx))⟩
  · obtain ⟨d, rfl⟩ : ∃ d, p = a + d := ⟨p - a, by rw [BitVec.add_comm, BitVec.sub_add_cancel]⟩
    have hsum : a.toNat + d.toNat = (a + d).toNat := by bv_omega
    have hd : d ≠ 0 := by bv_omega
    have hclass : bsr d < w.bits := bsr_lt (by omega)
    obtain ⟨c', hc, hmc, hinv, hcarries⟩ := resEncodeMagnitude_carries (params := params) (w := w) (above := false)
      (sym := w.bits - 1 - bsr d) (p := a + d) h hm hmodel (by omega) hd (by simp; omega)
    rw [if_neg Bool.false_ne_true, BitVec.add_sub_cancel, hw] at hcarries
    exact ⟨c', _, by omega, by rw [resEncode_below _ _ _ _ hd hsum, hc], hmc, hinv, hcarries⟩

end Sys2Proof.Proofs
end

section
/-! PROOFS. Commands both sides of a mirrored run issue alike (70_reset_and_hazards.md R1210): what such a command does
to the units depends on the units and its operands only, not on the coder or the streams. -/

namespace Sys2Proof.Proofs

open Sys2Proof.Machine Sys2Proof.Safety Sys2Proof.Laws

/-- The two blocks have the same units but for the coder: parameters, model, front and configuration. -/
structure SameUnits (s d : State) : Prop where
  params : d.params = s.params
  model : d.model = s.model
  front : d.front = s.front
  cfg : d.cfg = s.cfg

/-- A command that has not halted its block has ended as its effect says, and does so on any block that passes the same
checks. -/
theorem command_alike {i : Instr} {s d t u v : State} {checks : List Check} {effect : State → Option State}
    (h : command i s checks effect = .next t) (ht : t.faults.flag = false) (hd : d.faults.flag = false)
    (hs : effect s = some u) (hv : effect d = some v) : t = u ∧ command i d checks effect = .next v := by
  obtain ⟨hf, rfl⟩ | ⟨-, _, -, rfl⟩ | ⟨-, -, hu, -⟩ | ⟨-, hc, hu⟩ := command_cases h
  · simp [ht] at hf
  · cases ht
  · simp [hs] at hu
  · exact ⟨Option.some_inj.mp (hu.symm.trans hs), command_completes hd hc hv⟩

/-- Whether a CSR can be read depends on the units only. -/
theorem csrValue_alike {s d : State} (hu : SameUnits s d) (c : Nat) :
    (csrValue c d).toOption.isSome = (csrValue c s).toOption.isSome := by
  obtain ⟨_, _, _, _, _, _, _, _, _, model, front, cfg, _⟩ := d
  obtain ⟨rfl, rfl, rfl, rfl⟩ := hu
  unfold csrValue
  split <;> rfl

/-- The blocks `s` and `d`, alike but for their coders, have run a command to `t` and `d'`: they are still alike, and
neither coder has changed. -/
structure RanAlike (s d t d' : State) : Prop where
  running : d'.faults.flag = false
  units : SameUnits t d'
  coder : t.coder = s.coder
  mirror : d'.coder = d.coder

/-- A command but RESET that ends on a running block has begun on one (60_exceptions.md R1104). -/
theorem exec_running_before {i : Instr} {s t : State} (hi : i ≠ .reset) (h : exec i s = .next t)
    (ht : t.faults.flag = false) : s.faults.flag = false := by
  refine Bool.eq_false_iff.mpr fun hf => ?_
  obtain hkeeps | ⟨hreset, -⟩ := exec_faults_of_halted hf h
  · simp [hkeeps, hf] at ht
  · exact hi hreset

theorem faultedOnce_halts (i : Instr) (code : BitVec 8) (s : State) : (faultedOnce i code s).faults.flag = true := by
  unfold faultedOnce
  split
  · assumption
  · rfl

theorem csrRead_alike {c : Nat} {s d t : State} (hu : SameUnits s d) (h : exec (.csrRead c) s = .next t)
    (ht : t.faults.flag = false) (hd : d.faults.flag = false) :
    ∃ d', exec (.csrRead c) d = .next d' ∧ RanAlike s d t d' := by
  have halike := csrValue_alike hu c
  cases hs : csrValue c s with
  | error cause =>
    rw [exec_csrRead_error hs] at h
    cases h
    simp [faultedOnce_halts] at ht
  | ok v =>
    rw [exec_csrRead_ok hs] at h
    cases h
    cases hv : csrValue c d with
    | error cause => simp [hs, hv, Except.toOption] at halike
    | ok v' => exact ⟨_, exec_csrRead_ok hv, hd, ⟨hu.params, hu.model, hu.front, hu.cfg⟩, rfl, rfl⟩

theorem csrWrite_alike {c : Nat} {s d t : State} (hu : SameUnits s d) (hdin : d.din0 = s.din0)
    (h : exec (.csrWrite c) s = .next t) (ht : t.faults.flag = false) (hd : d.faults.flag = false) :
    ∃ d', exec (.csrWrite c) d = .next d' ∧ RanAlike s d t d' := by
  have hf := exec_running_before (by simp) h ht
  cases hs : csrWritten c s.din0 s.cfg with
  | error cause =>
    rw [exec_csrWrite_error hs] at h
    cases h
    simp [faultedOnce_halts] at ht
  | ok k =>
    rw [exec_csrWrite_ok hf hs] at h
    cases h
    rw [← hdin, ← hu.cfg] at hs
    exact ⟨_, exec_csrWrite_ok hd hs, hd, ⟨hu.params, hu.model, hu.front, rfl⟩, rfl, rfl⟩

/-- A command both sides may issue, run without a fault on one of two blocks that are alike, runs alike on the other. -/
theorem exec_alike {i : Instr} {s d t : State} {a b : W64} (hi : BlockOp.Mirrored (.both i a b)) (hu : SameUnits s d)
    (hdin : d.din0 = s.din0) (h : exec i s = .next t) (ht : t.faults.flag = false) (hd : d.faults.flag = false) :
    ∃ d', exec i d = .next d' ∧ RanAlike s d t d' := by
  obtain ⟨henc, hdec, hencInit, hdecInit, hreset⟩ := hi
  obtain ⟨_, _, _, _, din0, _, _, _, coder, model, front, cfg, faults⟩ := d
  obtain ⟨rfl, rfl, rfl, rfl⟩ := hu
  obtain rfl : din0 = s.din0 := hdin
  unfold exec at h
  cases i with
  | nop => cases h; exact ⟨_, rfl, hd, ⟨rfl, rfl, rfl, rfl⟩, rfl, rfl⟩
  | csrRead c => exact csrRead_alike ⟨rfl, rfl, rfl, rfl⟩ h ht hd
  | csrWrite c => exact csrWrite_alike ⟨rfl, rfl, rfl, rfl⟩ rfl h ht hd
  | qsmInit | qsmReset | qsmEnc | qsmDec | mapFwd | mapInv | frontInit | frontAt | frontPush | frontAdvance | predict =>
    obtain ⟨rfl, hrun⟩ := command_alike h ht hd rfl rfl
    exact ⟨_, hrun, hd, ⟨rfl, rfl, rfl, rfl⟩, rfl, rfl⟩
  | reset => exact absurd rfl hreset
  | rcEncInit => exact absurd rfl hencInit
  | rcDecInit => exact absurd rfl hdecInit
  | rcEncBit | rcEncRaw | rcEncSym | rcFinish | resEnc | stepEnc => cases henc
  | rcDecBit | rcDecRaw | rcDecSym | resDec | stepDec => cases hdec

end Sys2Proof.Proofs
end

section
/-! PROOFS. The round trip of the block (45_pipeline.md R908) over any mirrored run: O50. -/

namespace Sys2Proof.Proofs

open Sys2Proof.Machine Sys2Proof.Safety Sys2Proof.Laws

/-! ### Both sides of a run -/

/-- A block that encodes: not halted, in mode ENC, with the coder's invariants and what holds of every model. -/
structure BlockEncoding (s : State) : Prop where
  running : s.faults.flag = false
  mode : s.coder.mode = .enc
  coder : CoderInv s.coder
  model : ModelOk s.model

/-- The decoding block `d` mirrors the encoding block `s`, which still emits `rest`, in every unit. -/
structure BlockMirror (rest : List Byte) (s d : State) : Prop where
  running : d.faults.flag = false
  units : SameUnits s d
  coder : Mirrors rest s.coder d.coder

/-- From the block `s` to `t` an encoder has coded `values`: whatever it emits afterwards, `decode` on the mirror of `s`
returns them and ends in the mirror of `t`. -/
def BlockReturns (decode : State → Option (List W64 × State)) (values : List W64) (s t : State) : Prop :=
  ∃ out, t.coder.outstream = s.coder.outstream ++ out ∧ ∀ rest, Within t.coder rest →
    Within s.coder (out ++ rest) ∧ ∀ d, BlockMirror (out ++ rest) s d →
      ∃ d', decode d = some (values, d') ∧ BlockMirror rest t d'

/-- The decoder side of one command of a run, with what it leaves in DOUT0 for a coded item. -/
def decodeOne (op : BlockOp) (d : State) : Option (List W64 × State) :=
  match op.decodeStep d with
  | .next t => some (if op.returned = [] then [] else [t.dout0], t)
  | .fault _ => none
  | .refused _ => none

theorem decodeOne_eq {op : BlockOp} {d t : State} (h : op.decodeStep d = .next t) :
    decodeOne op d = some (if op.returned = [] then [] else [t.dout0], t) := by
  simp only [decodeOne, h]

theorem decodeBlock_cons {op : BlockOp} {ops : List BlockOp} {d d₁ d₂ : State} {vs ws : List W64}
    (h : decodeOne op d = some (vs, d₁)) (h' : decodeBlock ops d₁ = some (ws, d₂)) :
    decodeBlock (op :: ops) d = some (vs ++ ws, d₂) := by
  unfold decodeOne at h
  split at h
  · next t ht =>
    cases h
    simp only [decodeBlock, ht, h']
  · cases h
  · cases h

theorem BlockReturns.nil (s : State) : BlockReturns (decodeBlock []) [] s s :=
  ⟨[], (List.append_nil _).symm, fun _ hrest => ⟨hrest, fun d hd => ⟨d, rfl, hd⟩⟩⟩

theorem BlockReturns.cons {op : BlockOp} {ops : List BlockOp} {vs ws : List W64} {s t u : State}
    (h : BlockReturns (decodeOne op) vs s t) (h' : BlockReturns (decodeBlock ops) ws t u) :
    BlockReturns (decodeBlock (op :: ops)) (vs ++ ws) s u := by
  obtain ⟨out, hout, hback⟩ := h
  obtain ⟨out', hout', hback'⟩ := h'
  refine ⟨out ++ out', by rw [hout', hout, List.append_assoc], fun rest hrest => ?_⟩
  obtain ⟨hmid, hmirror'⟩ := hback' rest hrest
  obtain ⟨hstart, hmirror⟩ := hback (out' ++ rest) hmid
  rw [List.append_assoc]
  refine ⟨hstart, fun d hd => ?_⟩
  obtain ⟨d₁, hd₁, hm₁⟩ := hmirror d hd
  obtain ⟨d₂, hd₂, hm₂⟩ := hmirror' d₁ hm₁
  exact ⟨d₂, decodeBlock_cons hd₁ hd₂, hm₂⟩

/-! ### Commands that code -/

/-- A command that ends on a running block has passed its checks. -/
theorem command_passes {i : Instr} {s t : State} {checks : List Check} {effect : State → Option State}
    (h : command i s checks effect = .next t) (ht : t.faults.flag = false) : ∀ c ∈ checks, c.1 = false := by
  obtain ⟨hf, rfl⟩ | ⟨-, _, -, rfl⟩ | ⟨-, hc, -⟩ | ⟨-, hc, -⟩ := command_cases h
  · simp [ht] at hf
  · cases ht
  · exact firstFault_eq_none.mp hc
  · exact firstFault_eq_none.mp hc

/-- The inverse undoes the map of bit patterns on a pattern that fits (40_bitmap.md R405). -/
theorem mapInverseW_mapForwardW {w : Width} {x : W64} (hx : x.toNat < 2 ^ w.bits) :
    mapInverseW w (mapForwardW w x) = x := by
  have hlow : lowBits w (zext (mapForward (lowBits w x))) = mapForward (lowBits w x) :=
    (BitVec.setWidth_setWidth_of_le _ (width_bits_le w)).trans (BitVec.setWidth_eq _)
  apply BitVec.eq_of_toNat_eq
  rw [mapForwardW, mapInverseW, hlow, mapInverse_mapForward (width_bits_pos w), zext_toNat, lowBits_toNat hx]

/-- What an encode command that has not faulted says of its operands and its block. -/
theorem exec_rcEncRaw_passed {n : Nat} {s t : State} (h : exec (.rcEncRaw n) s = .next t) (ht : t.faults.flag = false) :
    n ≤ 64 ∧ s.din0.toNat < 2 ^ n := by
  have hrun : execRcEncRaw n s = .next t := h
  have hchecks := command_passes hrun ht
  exact ⟨by simpa [needOperand] using hchecks (needOperand (decide (n ≤ 64))) (by simp),
    needOperand_lt hchecks (by simp [fitsRaw])⟩

theorem exec_rcEncSym_passed {s t : State} (h : exec .rcEncSym s = .next t) (ht : t.faults.flag = false) :
    s.model.valid = true ∧ s.din0.toNat < s.model.s.toNat := by
  have hrun : execRcEncSym s = .next t := h
  have hchecks := command_passes hrun ht
  exact ⟨needModel_passes.mp (hchecks _ (by simp)), needOperand_lt hchecks (by simp)⟩

theorem exec_resEnc_passed {s t : State} (h : exec .resEnc s = .next t) (ht : t.faults.flag = false) :
    s.model.valid = true ∧ s.model.s.toNat = 2 * s.cfg.w.bits + 1 ∧ s.din0.toNat < 2 ^ s.cfg.w.bits ∧
      s.din1.toNat < 2 ^ s.cfg.w.bits := by
  have hrun : execResEnc s = .next t := h
  have hchecks := command_passes hrun ht
  exact ⟨needModel_passes.mp (hchecks _ (by simp)), needAlphabet_passes.mp (hchecks _ (by simp)),
    needOperand_lt hchecks (by simp [fitsWidth]), needOperand_lt hchecks (by simp [fitsWidth])⟩

theorem exec_stepEnc_passed {s t : State} (h : exec .stepEnc s = .next t) (ht : t.faults.flag = false) :
    s.model.valid = true ∧ s.front.valid = true ∧ s.model.s.toNat = 2 * s.cfg.w.bits + 1 ∧ s.front.w = s.cfg.w ∧
      s.din0.toNat < 2 ^ s.cfg.w.bits := by
  have hrun : execStepEnc s = .next t := h
  have hchecks := command_passes hrun ht
  exact ⟨needModel_passes.mp (hchecks _ (by simp [stepChecks])), needFront_passes.mp (hchecks _ (by simp [stepChecks])),
    needAlphabet_passes.mp (hchecks _ (by simp [stepChecks])),
    needFrontWidth_passes.mp (hchecks _ (by simp [stepChecks])), needOperand_lt hchecks (by simp [fitsWidth])⟩

/-- A procedure that carries a value makes the command that runs it return what it leaves in DOUT0. -/
theorem blockReturns_of_carries {α : Type} {decode : Coder → Option (α × Coder)} {v : α} {value : W64} {op : BlockOp}
    {s t : State} (hop : op.returned = [value]) (hc : Carries decode v s.coder t.coder)
    (hexec : ∀ d c, d.faults.flag = false → d.coder.mode = .dec → SameUnits s d → decode d.coder = some (v, c) →
      ∃ d', op.decodeStep d = .next d' ∧ d'.dout0 = value ∧ d'.faults.flag = false ∧ d'.coder = c ∧ SameUnits t d') :
    BlockReturns (decodeOne op) op.returned s t := by
  obtain ⟨out, hout, hback⟩ := hc
  refine ⟨out, hout, fun rest hrest => ?_⟩
  obtain ⟨hstart, hmirror⟩ := hback rest hrest
  refine ⟨hstart, fun d hd => ?_⟩
  obtain ⟨c, hc, hmirrors⟩ := hmirror d.coder hd.coder
  obtain ⟨d', hd', rfl, hf', rfl, hu⟩ := hexec d c hd.running hd.coder.mode hd.units hc
  exact ⟨d', by rw [decodeOne_eq hd', hop]; rfl, hf', hu, hmirrors⟩

section
variable {s t : State} (he : BlockEncoding s) (ht : t.faults.flag = false)
include he ht

theorem bit_returns {b : Bool} (h : (BlockOp.item (.bit b)).encodeStep s = .next t) :
    BlockEncoding t ∧ BlockReturns (decodeOne (.item (.bit b))) (BlockOp.item (.bit b)).returned s t := by
  obtain ⟨hf, hm, hcoder, hmodel⟩ := he
  have hv : (BitVec.ofNat 32 b.toNat).toNat < 2 ^ 1 := by cases b <;> decide
  have hzext : zext (BitVec.ofNat 32 b.toNat) = BitVec.ofNat 64 b.toNat := by cases b <;> decide
  obtain ⟨c, hc, hmc, hinv, hcarries⟩ := rcEncShift_carries hcoder hm (n := 1) (by decide) hv
  cases h.symm.trans (exec_rcEncBit_completes (s := { s with din0 := BitVec.ofNat 64 b.toNat }) hf hm hc)
  exact ⟨⟨hf, hmc, hinv, hmodel⟩, blockReturns_of_carries rfl hcarries fun d c' hfd hmd hu hd =>
    ⟨_, exec_rcDecBit_completes hfd hmd hd, hzext, hfd, rfl, ⟨hu.params, hu.model, hu.front, hu.cfg⟩⟩⟩

theorem raw_returns {n : Nat} {v : W64} (h : (BlockOp.item (.raw n v)).encodeStep s = .next t) :
    BlockEncoding t ∧ BlockReturns (decodeOne (.item (.raw n v))) (BlockOp.item (.raw n v)).returned s t := by
  obtain ⟨hf, hm, hcoder, hmodel⟩ := he
  obtain ⟨hn, hv⟩ := exec_rcEncRaw_passed h ht
  obtain ⟨c, hc, hmc, hinv, hcarries⟩ := rcEncRaw_carries hcoder hm hv
  cases h.symm.trans (exec_rcEncRaw_completes (s := { s with din0 := v }) hf hm hn hv hc)
  exact ⟨⟨hf, hmc, hinv, hmodel⟩, blockReturns_of_carries rfl hcarries fun d c' hfd hmd hu hd =>
    ⟨_, exec_rcDecRaw_completes hfd hmd hn hd, rfl, hfd, rfl, ⟨hu.params, hu.model, hu.front, hu.cfg⟩⟩⟩

theorem sym_returns {x : W64} (h : (BlockOp.item (.sym x)).encodeStep s = .next t) :
    BlockEncoding t ∧ BlockReturns (decodeOne (.item (.sym x))) (BlockOp.item (.sym x)).returned s t := by
  obtain ⟨hf, hm, hcoder, hmodel⟩ := he
  obtain ⟨hvalid, hx⟩ := exec_rcEncSym_passed h ht
  have hinvm := hmodel.constructed hvalid
  obtain ⟨c, hc, hmc, hinv, hcarries⟩ := rcEncSym_carries hcoder hm hinvm hx
  cases h.symm.trans (exec_rcEncSym_completes (s := { s with din0 := x }) hf hm hvalid hx hc)
  refine ⟨⟨hf, hmc, hinv, modelOk_of_modelInv (qsmTick_modelInv hinvm hx)⟩,
    blockReturns_of_carries rfl hcarries fun d c' hfd hmd hu hd => ?_⟩
  have hdec := exec_rcDecSym_completes hfd hmd (hu.model ▸ hvalid) (by rw [hu.model]; exact decodeSym_eq_some.mp hd)
  exact ⟨_, hdec, by simp [CoderOp.value], hfd, rfl, ⟨hu.params, rfl, hu.front, hu.cfg⟩⟩

theorem residual_returns {a p : W64} (h : (BlockOp.residual a p).encodeStep s = .next t) :
    BlockEncoding t ∧ BlockReturns (decodeOne (.residual a p)) (BlockOp.residual a p).returned s t := by
  obtain ⟨hf, hm, hcoder, hmodel⟩ := he
  obtain ⟨hvalid, hs, ha, hp⟩ := exec_resEnc_passed h ht
  have hinvm := hmodel.constructed hvalid
  obtain ⟨c, sym, hsym, hc, hmc, hinv, hcarries⟩ := resEncode_carries s.params hcoder hm hinvm hs ha hp
  cases h.symm.trans (exec_resEnc_completes (s := { s with din0 := a, din1 := p }) hf hm hvalid hs ha hp hc)
  refine ⟨⟨hf, hmc, hinv, modelOk_of_modelInv (qsmTick_modelInv hinvm hsym)⟩,
    blockReturns_of_carries rfl hcarries fun d c' hfd hmd ⟨hparams, hdm, hfront, hcfg⟩ hd => ?_⟩
  have hdec := exec_resDec_completes (s := { d with din1 := p }) hfd hmd (hdm ▸ hvalid) (hdm ▸ hcfg ▸ hs) (hcfg ▸ hp)
    (by rw [hdm, hparams, hcfg]; exact decodeResidual_eq_some.mp hd)
  exact ⟨_, hdec, rfl, hfd, rfl, ⟨hparams, rfl, hfront, hcfg⟩⟩

theorem sample_returns {f : W64} (h : (BlockOp.sample f).encodeStep s = .next t) :
    BlockEncoding t ∧ BlockReturns (decodeOne (.sample f)) (BlockOp.sample f).returned s t := by
  obtain ⟨hf, hm, hcoder, hmodel⟩ := he
  obtain ⟨hvalid, hfv, hs, hw, hx⟩ := exec_stepEnc_passed h ht
  have hinvm := hmodel.constructed hvalid
  obtain ⟨c, sym, hsym, hc, hmc, hinv, hcarries⟩ := resEncode_carries s.params hcoder hm hinvm hs
    (mapForwardW_lt s.cfg.w f) (hw ▸ lorenzo_lt s.front)
  cases h.symm.trans (exec_stepEnc_completes (s := { s with din0 := f }) hf hvalid hfv hs hw hm hx hc)
  refine ⟨⟨hf, hmc, hinv, modelOk_of_modelInv (qsmTick_modelInv hinvm hsym)⟩,
    blockReturns_of_carries rfl hcarries fun d c' hfd hmd ⟨hparams, hdm, hfront, hcfg⟩ hd => ?_⟩
  have hdec := exec_stepDec_completes (s := d) hfd (hdm ▸ hvalid) (hfront ▸ hfv) (hdm ▸ hcfg ▸ hs)
    (hfront ▸ hcfg ▸ hw) hmd (by rw [hdm, hparams, hfront, hcfg]; exact decodeResidual_eq_some.mp hd)
  have hdout : mapInverseW d.cfg.w (mapForwardW s.cfg.w f) = f := by rw [hcfg]; exact mapInverseW_mapForwardW hx
  exact ⟨_, hdec, hdout, hfd, rfl, ⟨hparams, rfl, congrArg (frontPushValue _) hfront, hcfg⟩⟩

end

/-! ### Commands both sides issue alike -/

/-- The model commands other than QSM_INIT take nothing from the CSRs: whatever these are, the model ends as it does
from their reset values. -/
theorem modelCommand_keeps_modelOk {i : Instr} {s t : State} (hi : i = .qsmReset ∨ i = .qsmEnc ∨ i = .qsmDec)
    (h : exec i s = .next t) (hf : s.faults.flag = false) (ht : t.faults.flag = false) (hm : ModelOk s.model) :
    ModelOk t.model := by
  obtain ⟨u, hu, hmodel⟩ : ∃ u, exec i { s with cfg := Csrs.reset } = .next u ∧ u.model = t.model := by
    unfold exec at h ⊢
    obtain rfl | rfl | rfl := hi
    all_goals
      obtain ⟨rfl, hrun⟩ := command_alike (d := { s with cfg := Csrs.reset }) h ht hf rfl rfl
      exact ⟨_, hrun, rfl⟩
  exact hmodel ▸ exec_keeps_modelOk hu CsrsLegal_reset hm

/-- The model's invariants under a command both sides may issue. -/
theorem both_keeps_modelOk {i : Instr} {a b : W64} {s t : State} (hi : BlockOp.Mirrored (.both i a b))
    (hk : CsrsLegal s.cfg ∨ i ≠ .qsmInit) (h : exec i s = .next t) (hf : s.faults.flag = false)
    (ht : t.faults.flag = false) (hm : ModelOk s.model) : ModelOk t.model := by
  obtain hk | hinit := hk
  · exact exec_keeps_modelOk h hk hm
  cases hneeds : needsModel i with
  | true =>
    refine modelCommand_keeps_modelOk ?_ h hf ht hm
    obtain ⟨henc, hdec, -⟩ := hi
    cases i with
    | qsmReset => exact .inl rfl
    | qsmEnc => exact .inr (.inl rfl)
    | qsmDec => exact .inr (.inr rfl)
    | rcEncSym | resEnc | stepEnc => cases henc
    | rcDecSym | resDec | stepDec => cases hdec
    | _ => cases hneeds
  | false =>
    obtain hkeeps | hreset := exec_model_other h hneeds hinit
    · exact hkeeps ▸ hm
    · exact hreset ▸ reset_modelOk

theorem both_returns {i : Instr} {a b : W64} {s t : State} (he : BlockEncoding s) (ht : t.faults.flag = false)
    (hi : BlockOp.Mirrored (.both i a b)) (hk : CsrsLegal s.cfg ∨ i ≠ .qsmInit)
    (h : (BlockOp.both i a b).encodeStep s = .next t) :
    BlockEncoding t ∧ BlockReturns (decodeOne (.both i a b)) (BlockOp.both i a b).returned s t := by
  obtain ⟨hf, hm, hcoder, hmodel⟩ := he
  have hdecode : ∀ d, d.faults.flag = false → SameUnits s d →
      ∃ d', (BlockOp.both i a b).decodeStep d = .next d' ∧ RanAlike { s with din0 := a, din1 := b }
        { d with din0 := a, din1 := b } t d' := fun d hd hu =>
    exec_alike hi ⟨hu.params, hu.model, hu.front, hu.cfg⟩ rfl h ht hd
  obtain ⟨-, -, -, -, hc, -⟩ := hdecode s hf ⟨rfl, rfl, rfl, rfl⟩
  have hc : t.coder = s.coder := hc
  have hmodel' := both_keeps_modelOk (s := { s with din0 := a, din1 := b }) hi hk h hf ht hmodel
  refine ⟨⟨ht, hc ▸ hm, hc ▸ hcoder, hmodel'⟩, [], by rw [hc, List.append_nil],
    fun rest hrest => ⟨hc ▸ hrest, fun d hd => ?_⟩⟩
  obtain ⟨d', hd', hran⟩ := hdecode d hd.running hd.units
  have hmirror : d'.coder = d.coder := hran.mirror
  exact ⟨d', decodeOne_eq hd', hran.running, hran.units, by rw [hc, hmirror]; exact hd.coder⟩

/-! ### Runs -/

/-- One command of a run, and its mirror. -/
theorem encodeStep_returns {op : BlockOp} {s t : State} (he : BlockEncoding s) (hop : op.Mirrored)
    (hk : CsrsLegal s.cfg ∨ ∀ a b, op ≠ .both .qsmInit a b) (h : op.encodeStep s = .next t)
    (ht : t.faults.flag = false) : BlockEncoding t ∧ BlockReturns (decodeOne op) op.returned s t := by
  cases op with
  | both i a b => exact both_returns he ht hop (hk.imp_right fun hne hi => hne a b (hi ▸ rfl)) h
  | item op =>
    cases op with
    | bit b => exact bit_returns he ht h
    | raw n v => exact raw_returns he ht h
    | sym x => exact sym_returns he ht h
  | residual a p => exact residual_returns he ht h
  | sample f => exact sample_returns he ht h

/-- The encoder side of a mirrored run issues commands other than RESET. -/
theorem encodeStep_eq_exec {op : BlockOp} (hop : op.Mirrored) (s : State) :
    ∃ i a b, i ≠ .reset ∧ op.encodeStep s = exec i { s with din0 := a, din1 := b } := by
  cases op with
  | both i a b => exact ⟨i, a, b, hop.2.2.2.2, rfl⟩
  | item op => exact ⟨op.encoder, op.value, s.din1, by cases op <;> simp [CoderOp.encoder], rfl⟩
  | residual a p => exact ⟨.resEnc, a, p, by simp, rfl⟩
  | sample f => exact ⟨.stepEnc, f, s.din1, by simp, rfl⟩

/-- A run that ends on a running block has begun on one. -/
theorem encodeBlock_running_before {ops : List BlockOp} {s u : State} (hops : ∀ op ∈ ops, op.Mirrored)
    (h : encodeBlock ops s = some u) (hu : u.faults.flag = false) : s.faults.flag = false := by
  induction ops generalizing s with
  | nil => cases h; exact hu
  | cons op ops ih =>
    obtain ⟨hop, hrest⟩ := List.forall_mem_cons.mp hops
    obtain ⟨i, a, b, hi, heq⟩ := encodeStep_eq_exec hop s
    rw [encodeBlock, heq] at h
    split at h
    · next t ht => exact exec_running_before (s := { s with din0 := a, din1 := b }) hi ht (ih hrest h)
    · cases h
    · cases h

/-- What the encoder side of a run codes its mirror returns, in order. -/
theorem encodeBlock_returns {ops : List BlockOp} {s u : State} (he : BlockEncoding s)
    (hops : ∀ op ∈ ops, op.Mirrored) (hk : CsrsLegal s.cfg ∨ ∀ a b, .both .qsmInit a b ∉ ops)
    (h : encodeBlock ops s = some u) (hu : u.faults.flag = false) :
    BlockEncoding u ∧ BlockReturns (decodeBlock ops) (ops.flatMap BlockOp.returned) s u := by
  induction ops generalizing s with
  | nil => cases h; exact ⟨he, .nil u⟩
  | cons op ops ih =>
    obtain ⟨hop, hrest⟩ := List.forall_mem_cons.mp hops
    rw [encodeBlock] at h
    split at h
    · next t ht =>
      have hft := encodeBlock_running_before hrest h hu
      have hkop : CsrsLegal s.cfg ∨ ∀ a b, op ≠ .both .qsmInit a b :=
        hk.imp_right fun hnone a b heq => hnone a b (heq ▸ List.mem_cons_self)
      have hkt : CsrsLegal t.cfg ∨ ∀ a b, .both .qsmInit a b ∉ ops := by
        refine hk.imp (fun hlegal => ?_) fun hnone a b hmem => hnone a b (List.mem_cons_of_mem _ hmem)
        obtain ⟨i, a, b, -, heq⟩ := encodeStep_eq_exec hop s
        exact exec_keeps_csrsLegal (s := { s with din0 := a, din1 := b }) (heq ▸ ht) hlegal
      obtain ⟨het, hfirst⟩ := encodeStep_returns he hop hkop ht hft
      obtain ⟨heu, hreturns⟩ := ih het hrest hkt h
      exact ⟨heu, hfirst.cons hreturns⟩
    · cases h
    · cases h

/-! ### The start and the end -/

/-- RC_DEC_INIT leaves every unit but the coder. -/
theorem rcDecInit_sameUnits {d t : State} (h : exec .rcDecInit d = .next t) : SameUnits d t := by
  obtain ⟨_, _, rfl⟩ | hc := exec_frame h
  · exact ⟨rfl, rfl, rfl, rfl⟩
  · cases hc
    exact ⟨rfl, rfl, rfl, rfl⟩

/-- Settles O50: the flush is the code the encoder ends with, and every code in the interval at the end, with the bytes
emitted before it, makes the mirror of the run return what the run coded. -/
theorem mirrorBlockRunReturnsTheSamples : Obligations.MirrorBlockRunReturnsTheSamples := by
  intro ops e d e₁ e₂ e₃ hfe hfd hmodel hdm hdf hdc hdp hops hk _ hinit hrun hf₂ hfinish hbytes
  have hcoder := freshCoder_coderInv .enc e.coder
  cases hinit.symm.trans (exec_rcEncInit hfe)
  have hstart : BlockEncoding { e with coder := { freshCoder .enc e.coder with bytesOut := 0 } } :=
    ⟨hfe, rfl, ⟨hcoder.range_ge, hcoder.no_wrap⟩, hmodel⟩
  obtain ⟨henc, out, hout, hback⟩ := encodeBlock_returns hstart hops hk hrun hf₂
  obtain ⟨hwithin, hmirror⟩ := hback _ (within_flush henc.coder)
  cases hfinish.symm.trans (exec_rcFinish henc.running henc.mode)
  have hinput : d.coder.instream = out ++ outBytes e₂.coder.low.toNat 4 := by
    have hemitted : e₂.coder.outstream ++ outBytes e₂.coder.low.toNat 4 = e.coder.outstream ++ d.coder.instream :=
      hbytes
    rw [hout, List.append_assoc] at hemitted
    exact (List.append_cancel_left hemitted).symm
  obtain ⟨d₁, hd₁, hm₁⟩ := decInit_mirrors (e := e) hfd hdm (hinput ▸ hwithin.length)
  obtain ⟨hparams, -, hfront, hcfg⟩ := rcDecInit_sameUnits hd₁
  rw [hinput] at hm₁
  obtain ⟨d₂, hd₂, hm₂⟩ := hmirror d₁
    ⟨hm₁.running, ⟨hparams.trans hdp, hm₁.model, hfront.trans hdf, hcfg.trans hdc⟩, hm₁.coder⟩
  refine ⟨d₁, d₂, hd₁, hd₂, hm₂.running, hm₂.coder.eofErr, hm₂.coder.corrupt, ?_⟩
  rw [hm₂.coder.instream, List.drop_of_length_le (outBytes_length _ _).le]

end Sys2Proof.Proofs
end

section
/-! PROOFS. A field as its schedule pushes it (45_pipeline.md R903): each row, slice and field behind one border of zero
mappings, so that every row of the pushes has `nx + 1` values and every slice `ny + 1` rows. -/

namespace Sys2Proof.Proofs

open Sys2Proof.Machine Sys2Proof.Safety Sys2Proof.Laws

/-! ### Lists of lists of one length -/

section
variable {α : Type} {L : List (List α)} {n : Nat} (h : ∀ l ∈ L, l.length = n)
include h

theorem length_flatten_uniform : L.flatten.length = L.length * n := by
  rw [List.length_flatten, List.map_congr_left h, List.map_const', List.sum_replicate, smul_eq_mul]

theorem getD_flatten_uniform {q r : Nat} (hr : r < n) (d : α) :
    L.flatten.getD (q * n + r) d = (L.getD q []).getD r d := by
  induction L generalizing q with
  | nil => simp
  | cons l L ih =>
    obtain ⟨hl, hrest⟩ := List.forall_mem_cons.mp h
    cases q with
    | zero =>
      rw [List.flatten_cons, Nat.zero_mul, Nat.zero_add, List.getD_append _ _ _ _ (hl ▸ hr), List.getD_cons_zero]
    | succ q =>
      rw [Nat.succ_mul, List.flatten_cons, List.getD_append_right _ _ _ _ (by omega), List.getD_cons_succ, hl,
        show q * n + n + r - n = q * n + r by omega, ih hrest]

theorem take_flatten_uniform {q r : Nat} (hr : r ≤ n) :
    L.flatten.take (q * n + r) = (L.take q).flatten ++ (L.getD q []).take r := by
  induction L generalizing q with
  | nil => simp
  | cons l L ih =>
    obtain ⟨hl, hrest⟩ := List.forall_mem_cons.mp h
    cases q with
    | zero => simp [List.take_append_of_le_length (hl ▸ hr)]
    | succ q =>
      rw [Nat.succ_mul, List.flatten_cons, show q * n + n + r = l.length + (q * n + r) by omega,
        List.take_length_add_append, ih hrest, List.take_succ_cons, List.flatten_cons, List.getD_cons_succ,
        List.append_assoc]

end

theorem getD_map_of_lt {α β : Type} {l : List α} {i : Nat} (g : α → β) (hi : i < l.length) (d : α) (d' : β) :
    (l.map g).getD i d' = g (l.getD i d) := by
  rw [List.getD_eq_getElem _ _ (by simpa using hi), List.getElem_map, List.getD_eq_getElem _ _ hi]

theorem getD_take_of_lt {α : Type} {l : List α} {n i : Nat} (hi : i < n) (d : α) :
    (l.take n).getD i d = l.getD i d := by
  rw [List.getD_eq_getElem?_getD, List.getElem?_take_of_lt hi, List.getD_eq_getElem?_getD]

/-! ### The field with its border -/

section
variable (f : Front) (nx ny : Nat)

/-- A row behind one zero mapping. -/
def paddedRow (row : List W64) : List W64 := f.zero :: row.map (mapForwardW f.w)

/-- The rows of a slice behind one row of zero mappings. -/
def paddedRows (rows : List (List W64)) : List (List W64) := List.replicate (nx + 1) f.zero :: rows.map (paddedRow f)

/-- The slices of a field, each as one list, behind one slice of zero mappings. -/
def paddedSlices (slices : List (List (List W64))) : List (List W64) :=
  List.replicate ((ny + 1) * (nx + 1)) f.zero :: slices.map fun rows => (paddedRows f nx rows).flatten

/-- Every slice has `ny` rows, and every row `nx` samples. -/
def FieldShape (slices : List (List (List W64))) : Prop :=
  ∀ rows ∈ slices, rows.length = ny ∧ ∀ row ∈ rows, row.length = nx

variable {f nx ny}

theorem FieldShape.getD {slices : List (List (List W64))} (h : FieldShape nx ny slices) {z : Nat}
    (hz : z < slices.length) : (slices.getD z []).length = ny ∧ ∀ row ∈ slices.getD z [], row.length = nx := by
  rw [List.getD_eq_getElem _ _ hz]
  exact h _ (List.getElem_mem hz)

theorem paddedRow_getD {row : List W64} {X : Nat} (hX : X ≤ row.length) :
    (paddedRow f row).getD X 0 = if X = 0 then f.zero else mapForwardW f.w (row.getD (X - 1) 0) := by
  cases X with
  | zero => rfl
  | succ X =>
    rw [paddedRow, List.getD_cons_succ, if_neg X.succ_ne_zero, Nat.add_sub_cancel, getD_map_of_lt _ hX 0]

theorem paddedRows_length {rows : List (List W64)} (h : ∀ row ∈ rows, row.length = nx) :
    ∀ l ∈ paddedRows f nx rows, l.length = nx + 1 := by
  refine List.forall_mem_cons.mpr ⟨List.length_replicate, List.forall_mem_map.mpr fun row hrow => ?_⟩
  rw [paddedRow, List.length_cons, List.length_map, h row hrow]

theorem paddedRows_getD {rows : List (List W64)} (h : ∀ row ∈ rows, row.length = nx) {X Y : Nat} (hX : X ≤ nx)
    (hY : Y ≤ rows.length) :
    (paddedRows f nx rows).flatten.getD (Y * (nx + 1) + X) 0 =
      if X = 0 ∨ Y = 0 then f.zero else mapForwardW f.w ((rows.getD (Y - 1) []).getD (X - 1) 0) := by
  rw [getD_flatten_uniform (paddedRows_length h) (Nat.lt_succ_of_le hX)]
  cases Y with
  | zero =>
    rw [paddedRows, List.getD_cons_zero, List.getD_replicate _ (Nat.lt_succ_of_le hX), if_pos (.inr rfl)]
  | succ Y =>
    have hrow : (rows.getD Y []).length = nx := by
      rw [List.getD_eq_getElem _ _ hY]
      exact h _ (List.getElem_mem hY)
    rw [paddedRows, List.getD_cons_succ, getD_map_of_lt _ hY [], paddedRow_getD (hrow ▸ hX), Nat.add_sub_cancel]
    simp

theorem paddedSlices_length {slices : List (List (List W64))} (h : FieldShape nx ny slices) :
    ∀ l ∈ paddedSlices f nx ny slices, l.length = (ny + 1) * (nx + 1) := by
  refine List.forall_mem_cons.mpr ⟨List.length_replicate, List.forall_mem_map.mpr fun rows hrows => ?_⟩
  obtain ⟨hy, hx⟩ := h rows hrows
  rw [length_flatten_uniform (paddedRows_length hx), paddedRows, List.length_cons, List.length_map, hy]

/-- The field with its border at the position `(X, Y, Z)`, counted from the border. -/
theorem paddedSlices_getD {slices : List (List (List W64))} (h : FieldShape nx ny slices) {X Y Z : Nat} (hX : X ≤ nx)
    (hY : Y ≤ ny) (hZ : Z ≤ slices.length) :
    (paddedSlices f nx ny slices).flatten.getD (Z * ((ny + 1) * (nx + 1)) + (Y * (nx + 1) + X)) 0 =
      if X = 0 ∨ Y = 0 ∨ Z = 0 then f.zero else mapForwardW f.w (sampleAt slices (X - 1) (Y - 1) (Z - 1)) := by
  have hin : Y * (nx + 1) + X < (ny + 1) * (nx + 1) := by
    have := Nat.mul_le_mul_right (nx + 1) hY
    rw [Nat.succ_mul]
    omega
  rw [getD_flatten_uniform (paddedSlices_length h) hin]
  cases Z with
  | zero =>
    rw [paddedSlices, List.getD_cons_zero, List.getD_replicate _ hin, if_pos (.inr (.inr rfl))]
  | succ Z =>
    obtain ⟨hy, hx⟩ := h.getD hZ
    rw [paddedSlices, List.getD_cons_succ, getD_map_of_lt _ hZ [], paddedRows_getD hx hX (hy ▸ hY), sampleAt,
      Nat.add_sub_cancel]
    simp

/-- The field with its border up to, but not including, the position of sample `(x, y, z)`. -/
theorem paddedSlices_take {slices : List (List (List W64))} (h : FieldShape nx ny slices) {x y z : Nat} (hx : x < nx)
    (hy : y < ny) (hz : z < slices.length) :
    (paddedSlices f nx ny slices).flatten.take ((z + 1) * ((ny + 1) * (nx + 1)) + ((y + 1) * (nx + 1) + (x + 1))) =
      (paddedSlices f nx ny (slices.take z)).flatten ++ ((paddedRows f nx ((slices.getD z []).take y)).flatten ++
        paddedRow f (((slices.getD z []).getD y []).take x)) := by
  have hin : (y + 1) * (nx + 1) + (x + 1) ≤ (ny + 1) * (nx + 1) := by
    have := Nat.mul_le_mul_right (nx + 1) (show y + 1 ≤ ny from hy)
    rw [Nat.succ_mul ny]
    omega
  obtain ⟨hylen, hxlen⟩ := h.getD hz
  rw [take_flatten_uniform (paddedSlices_length h) hin, paddedSlices, List.take_succ_cons, ← List.map_take,
    List.getD_cons_succ, getD_map_of_lt _ hz [], take_flatten_uniform (paddedRows_length hxlen) (by omega), paddedRows,
    List.take_succ_cons, ← List.map_take, List.getD_cons_succ, getD_map_of_lt _ (hylen ▸ hy) [], paddedRow,
    List.take_succ_cons, ← List.map_take]
  rfl

end

end Sys2Proof.Proofs
end

section
/-! PROOFS. The field schedule (45_pipeline.md R903, R904): it runs without a fault and pushes the field with its
border, so that a neighbour's offset leads to the neighbour's position: O51. -/

namespace Sys2Proof.Proofs

open Sys2Proof.Machine Sys2Proof.Safety Sys2Proof.Laws

/-! ### The commands of a schedule behind FRONT_INIT -/

/-- A block on which a sample's step completes: it encodes, and model, front and configuration fit together. -/
structure Stepping (s : State) : Prop extends Encoding s where
  alphabet : s.model.s.toNat = 2 * s.cfg.w.bits + 1
  configured : s.front.valid = true
  front : FrontInv s.front
  width : s.front.w = s.cfg.w

/-- A command of a schedule behind FRONT_INIT, for samples of the width `w`. -/
inductive Scheduled (w : Width) : BlockOp → Prop
  | advance (x y z : Bool) : Scheduled w (advance x y z)
  | sample {v : W64} (h : v.toNat < 2 ^ w.bits) : Scheduled w (.sample v)

/-- The values a command of a schedule pushes into a front with the geometry of `f`. -/
def schedulePushes (f : Front) : BlockOp → List W64
  | .both (.frontAdvance x y z) _ _ => List.replicate (neighbourOffset f x y z) f.zero
  | .sample v => [mapForwardW f.w v]
  | _ => []

/-- The block `s` has run a part of a schedule to `t`: it can still step, and has pushed `vs`. -/
structure SchedulePushed (vs : List W64) (s t : State) : Prop where
  stepping : Stepping t
  cfg : t.cfg = s.cfg
  front : t.front = pushAll vs s.front

theorem schedulePushes_pushAll (vs : List W64) (f : Front) : schedulePushes (pushAll vs f) = schedulePushes f := by
  funext op
  rw [pushAll_frame]
  unfold schedulePushes
  split <;> rfl

theorem advance_runs {s : State} (h : Stepping s) (x y z : Bool) :
    ∃ t, (advance x y z).encodeStep s = .next t ∧ SchedulePushed (schedulePushes s.front (advance x y z)) s t := by
  have hfront : FrontInv (pushAll (List.replicate (neighbourOffset s.front x y z) s.front.zero) s.front) :=
    frontInv_pushAll h.front fun v hv => List.eq_of_mem_replicate hv ▸ front_zero_fits h.front
  have hrun := exec_frontAdvance_completes (s := { s with din0 := 0, din1 := 0 }) h.running h.configured x y z
  rw [frontPushZeros_eq_pushAll] at hrun
  exact ⟨_, hrun, ⟨⟨h.running, h.mode, h.coder, h.valid, h.model⟩, h.alphabet, (pushAll_valid ..).trans h.configured,
    hfront, (pushAll_w ..).trans h.width⟩, rfl, rfl⟩

theorem sample_runs {s : State} (h : Stepping s) {v : W64} (hv : v.toNat < 2 ^ s.cfg.w.bits) :
    ∃ t, (BlockOp.sample v).encodeStep s = .next t ∧
      SchedulePushed (schedulePushes s.front (.sample v)) s t := by
  have ha := mapForwardW_lt s.cfg.w v
  obtain ⟨c, sym, hsym, hc, hmc, hinv, -⟩ := resEncode_carries s.params h.coder h.mode h.model h.alphabet ha
    (h.width ▸ lorenzo_lt s.front)
  have hrun := exec_stepEnc_completes (s := { s with din0 := v }) h.running h.valid h.configured h.alphabet h.width
    h.mode hv hc
  have hfront : FrontInv (frontPushValue (mapForwardW s.cfg.w v) s.front) :=
    frontInv_push h.front (decide_eq_true (h.width ▸ ha))
  refine ⟨_, hrun, ⟨⟨h.running, hmc, hinv, (qsmTick_valid ..).trans h.valid, qsmTick_modelInv h.model hsym⟩,
    (congrArg _ (qsmTick_s ..)).trans h.alphabet, h.configured, hfront, h.width⟩, rfl, ?_⟩
  rw [schedulePushes, h.width]
  rfl

theorem encodeBlock_cons {op : BlockOp} {ops : List BlockOp} {s t : State} (h : op.encodeStep s = .next t) :
    encodeBlock (op :: ops) s = encodeBlock ops t := by
  simp only [encodeBlock, h]

/-- A schedule behind FRONT_INIT runs to its end and pushes its commands' values in order. -/
theorem schedule_runs {ops : List BlockOp} {s : State} (h : Stepping s) (hops : ∀ op ∈ ops, Scheduled s.cfg.w op) :
    ∃ t, encodeBlock ops s = some t ∧ SchedulePushed (ops.flatMap (schedulePushes s.front)) s t := by
  induction ops generalizing s with
  | nil => exact ⟨s, rfl, h, rfl, rfl⟩
  | cons op ops ih =>
    obtain ⟨hop, hrest⟩ := List.forall_mem_cons.mp hops
    obtain ⟨t, ht, hstep, hcfg, hfront⟩ :
        ∃ t, op.encodeStep s = .next t ∧ SchedulePushed (schedulePushes s.front op) s t := by
      cases hop with
      | advance x y z => exact advance_runs h x y z
      | sample hv => exact sample_runs h hv
    obtain ⟨u, hu, hstep', hcfg', hfront'⟩ := ih hstep (hcfg ▸ hrest)
    refine ⟨u, (encodeBlock_cons ht).trans hu, hstep', hcfg'.trans hcfg, ?_⟩
    rw [hfront', hfront, schedulePushes_pushAll, List.flatMap_cons, pushAll_append]

theorem schedulePushes_fit {f : Front} (h : FrontInv f) (op : BlockOp) :
    ∀ v ∈ schedulePushes f op, fitsWidth f.w v = true := by
  unfold schedulePushes
  split
  · exact fun v hv => List.eq_of_mem_replicate hv ▸ front_zero_fits h
  · exact List.forall_mem_singleton.mpr (decide_eq_true (mapForwardW_lt _ _))
  · exact nofun

/-! ### The schedule of a field pushes the field with its border -/

/-- `scheduleUpTo` behind its FRONT_INIT: the slices before `z`, of slice `z` the rows before `y`, of row `y` the
samples before `x`. -/
def scheduleBehindInit (slices : List (List (List W64))) (x y z : Nat) : List BlockOp :=
  advance false false true :: (slices.take z).flatMap sliceSchedule ++ sliceSchedule ((slices.getD z []).take y)
    ++ rowSchedule (((slices.getD z []).getD y []).take x)

theorem scheduleUpTo_eq (slices : List (List (List W64))) (x y z : Nat) :
    scheduleUpTo slices x y z = .both .frontInit 0 0 :: scheduleBehindInit slices x y z := by
  simp [scheduleUpTo, scheduleBehindInit, sliceSchedule, rowSchedule]

/-- Every command of it is one of a schedule, if the samples have the width. -/
theorem scheduleBehindInit_scheduled {w : Width} {slices : List (List (List W64))}
    (h : ∀ rows ∈ slices, ∀ row ∈ rows, ∀ v ∈ row, v.toNat < 2 ^ w.bits) {x y z : Nat} (hz : z < slices.length)
    (hy : y < (slices.getD z []).length) : ∀ op ∈ scheduleBehindInit slices x y z, Scheduled w op := by
  have row : ∀ row : List W64, (∀ v ∈ row, v.toNat < 2 ^ w.bits) → ∀ op ∈ rowSchedule row, Scheduled w op :=
    fun row hrow => List.forall_mem_cons.mpr ⟨.advance .., List.forall_mem_map.mpr fun v hv => .sample (hrow v hv)⟩
  have slice : ∀ rows : List (List W64), (∀ row ∈ rows, ∀ v ∈ row, v.toNat < 2 ^ w.bits) →
      ∀ op ∈ sliceSchedule rows, Scheduled w op := fun rows hrows =>
    List.forall_mem_cons.mpr ⟨.advance .., List.forall_mem_flatMap.mpr fun r hr => row r (hrows r hr)⟩
  have hzmem : slices.getD z [] ∈ slices := List.getD_eq_getElem slices _ hz ▸ List.getElem_mem hz
  have hymem : (slices.getD z []).getD y [] ∈ slices.getD z [] := List.getD_eq_getElem _ _ hy ▸ List.getElem_mem hy
  refine List.forall_mem_append.mpr ⟨List.forall_mem_append.mpr ⟨List.forall_mem_cons.mpr ⟨.advance .., ?_⟩, ?_⟩, ?_⟩
  · exact List.forall_mem_flatMap.mpr fun rows hrows => slice rows (h rows (List.mem_of_mem_take hrows))
  · exact slice _ fun r hr => h _ hzmem r (List.mem_of_mem_take hr)
  · exact row _ fun v hv => h _ hzmem _ hymem v (List.mem_of_mem_take hv)

section
variable {f : Front} {nx ny : Nat} (hx : f.dx = 1) (hy : f.dy.toNat = nx + 1)
  (hz : f.dz.toNat = (nx + 1) * (ny + 1))
include hx

theorem pushes_row (row : List W64) : (rowSchedule row).flatMap (schedulePushes f) = paddedRow f row := by
  have hsamples : (row.map BlockOp.sample).flatMap (schedulePushes f) = row.map (mapForwardW f.w) := by
    rw [List.flatMap_map]
    exact List.map_eq_flatMap.symm
  rw [rowSchedule, List.flatMap_cons, hsamples]
  simp [advance, schedulePushes, neighbourOffset, hx, paddedRow]

include hy

theorem pushes_slice (rows : List (List W64)) :
    (sliceSchedule rows).flatMap (schedulePushes f) = (paddedRows f nx rows).flatten := by
  rw [sliceSchedule, List.flatMap_cons, List.flatMap_assoc, funext (pushes_row hx), paddedRows, List.flatten_cons,
    List.flatMap_def]
  simp [advance, schedulePushes, neighbourOffset, hy]

include hz

theorem pushes_schedule (slices : List (List (List W64))) (x y z : Nat) :
    (scheduleBehindInit slices x y z).flatMap (schedulePushes f) =
      (paddedSlices f nx ny (slices.take z)).flatten ++ ((paddedRows f nx ((slices.getD z []).take y)).flatten ++
        paddedRow f (((slices.getD z []).getD y []).take x)) := by
  rw [scheduleBehindInit, List.flatMap_append, List.flatMap_append, List.flatMap_cons, List.flatMap_assoc,
    funext (pushes_slice hx hy), pushes_slice hx hy, pushes_row hx, paddedSlices, List.flatten_cons, List.flatMap_def,
    List.append_assoc]
  simp [advance, schedulePushes, neighbourOffset, hz, Nat.mul_comm]

end

/-! ### The neighbours -/

/-- The block right behind the FRONT_INIT of a field whose ring fits. -/
theorem stepping_freshFront {s : State} (h : Encoding s) (hs : s.model.s.toNat = 2 * s.cfg.w.bits + 1)
    (hfits : ringSize s.cfg.nx.toNat s.cfg.ny.toNat ≤ 2 ^ 32) (a b : W64) :
    Stepping { s with din0 := a, din1 := b, front := freshFront s.cfg } :=
  ⟨⟨h.running, h.mode, h.coder, h.valid, h.model⟩, hs, rfl, freshFront_frontInv hfits, rfl⟩

/-- In the field with its border an offset of the predictor leads from the neighbour's position to one's own. -/
theorem offset_add_position {nx ny x y z i j k : Nat} (hi : i ≤ x) (hj : j ≤ y) (hk : k ≤ z) :
    i + (nx + 1) * j + (nx + 1) * (ny + 1) * k +
        ((z - k) * ((ny + 1) * (nx + 1)) + ((y - j) * (nx + 1) + (x - i))) =
      z * ((ny + 1) * (nx + 1)) + (y * (nx + 1) + x) := by
  obtain ⟨x, rfl⟩ := Nat.exists_eq_add_of_le' hi
  obtain ⟨y, rfl⟩ := Nat.exists_eq_add_of_le' hj
  obtain ⟨z, rfl⟩ := Nat.exists_eq_add_of_le' hk
  rw [Nat.add_sub_cancel, Nat.add_sub_cancel, Nat.add_sub_cancel]
  ring

theorem one_le_of_or : ∀ i j k : Bool, (i || j || k) = true → 1 ≤ i.toNat + j.toNat + k.toNat := by decide

/-- Every causal offset is at least 1: the strides are. -/
theorem one_le_neighbourOffset {f : Front} (hf : FrontInv f) (hdy : 1 ≤ f.dy.toNat) (hdz : 1 ≤ f.dz.toNat)
    {i j k : Bool} (hne : (i || j || k) = true) : 1 ≤ neighbourOffset f i j k := by
  have hone := one_le_of_or i j k hne
  have hj := Nat.le_mul_of_pos_left j.toNat hdy
  have hk := Nat.le_mul_of_pos_left k.toNat hdz
  rw [neighbourOffset_eq hf]
  omega

theorem paddedSlices_take_length {f : Front} {nx ny x y z : Nat} {slices : List (List (List W64))}
    (hshape : FieldShape nx ny slices) (hx : x < nx) (hy : y < ny) (hz : z < slices.length) :
    ((paddedSlices f nx ny slices).flatten.take
      ((z + 1) * ((ny + 1) * (nx + 1)) + ((y + 1) * (nx + 1) + (x + 1)))).length =
      (z + 1) * ((ny + 1) * (nx + 1)) + ((y + 1) * (nx + 1) + (x + 1)) := by
  have hslice := Nat.mul_le_mul_right ((ny + 1) * (nx + 1)) (show z + 1 ≤ slices.length from hz)
  have hrow := Nat.mul_le_mul_right (nx + 1) (show y + 1 ≤ ny from hy)
  have hrows : (ny + 1) * (nx + 1) = ny * (nx + 1) + (nx + 1) := Nat.succ_mul ..
  rw [List.length_take, length_flatten_uniform (paddedSlices_length hshape), paddedSlices, List.length_cons,
    List.length_map, Nat.succ_mul slices.length]
  omega

/-- A front into which the field with its border has been pushed up to the position of sample `(x, y, z)` reads at each
causal offset the neighbour's mapped value, or the zero mapping where the neighbour is on the border. -/
theorem frontSlotValue_field {f g : Front} {nx ny x y z : Nat} {slices : List (List (List W64))} {vs : List W64}
    (hf : FrontInv f) (hdy : f.dy.toNat = nx + 1) (hdz : f.dz.toNat = (nx + 1) * (ny + 1))
    (hshape : FieldShape nx ny slices) (hx : x < nx) (hy : y < ny) (hz : z < slices.length)
    (hvs : vs = (paddedSlices f nx ny slices).flatten.take
      ((z + 1) * ((ny + 1) * (nx + 1)) + ((y + 1) * (nx + 1) + (x + 1))))
    (hfit : ∀ v ∈ vs, fitsWidth f.w v = true) (hg : g = pushAll vs f) {i j k : Bool} (hne : (i || j || k) = true) :
    frontSlotValue g (slotAt g (i.toNat + f.dy.toNat * j.toNat + f.dz.toNat * k.toNat)) =
      if i.toNat ≤ x ∧ j.toNat ≤ y ∧ k.toNat ≤ z
        then mapForwardW f.w (sampleAt slices (x - i.toNat) (y - j.toNat) (z - k.toNat)) else f.zero := by
  have hi := i.toNat_le
  have hj := j.toNat_le
  have hk := k.toNat_le
  have hoff := neighbourOffset_eq hf i j k
  have hpos := one_le_neighbourOffset hf (by omega) (hdz ▸ Nat.mul_pos nx.succ_pos ny.succ_pos) hne
  have hle := neighbourOffset_le hf i j k
  have hposition := offset_add_position (nx := nx) (ny := ny) (show i.toNat ≤ x + 1 by omega)
    (show j.toNat ≤ y + 1 by omega) (show k.toNat ≤ z + 1 by omega)
  have hlen := paddedSlices_take_length (f := f) hshape hx hy hz
  rw [← hvs] at hlen
  rw [← hoff, hg, frontSlotValue_pushAll hf hfit hpos hle]
  rw [hdy, hdz] at hoff
  rw [← hoff, ← hlen] at hposition
  rw [if_pos (by omega), ← hposition, Nat.add_sub_cancel_left, hvs, getD_take_of_lt (by omega),
    paddedSlices_getD hshape (by omega) (by omega) (by omega)]
  by_cases hin : i.toNat ≤ x ∧ j.toNat ≤ y ∧ k.toNat ≤ z
  · rw [if_pos hin, if_neg (by omega), Nat.sub_right_comm x.succ, Nat.sub_right_comm y.succ, Nat.sub_right_comm z.succ]
    rfl
  · rw [if_neg hin, if_pos (by omega)]

/-- Settles O51: the schedule has pushed the field with its border up to the sample's position, and the push a
neighbour's offset ago is the neighbour's position. -/
theorem scheduleMakesTheNeighboursCausal : Obligations.ScheduleMakesTheNeighboursCausal := by
  intro s slices x y z hf hm hv hcoder hmodel hs hslots hfield hx hy hz
  have hring := (ringSize_le_frontMaxSlots_iff s.cfg s.params).mpr hslots
  have hword := hring.trans (frontMaxSlots_le _)
  have hshape : FieldShape s.cfg.nx.toNat s.cfg.ny.toNat slices := fun rows hrows =>
    ⟨(hfield rows hrows).1, fun row hrow => ((hfield rows hrows).2 row hrow).1⟩
  have hfit : ∀ rows ∈ slices, ∀ row ∈ rows, ∀ v ∈ row, v.toNat < 2 ^ s.cfg.w.bits := fun rows hrows row hrow =>
    ((hfield rows hrows).2 row hrow).2
  have hinv := freshFront_frontInv hword
  have hdy := freshFront_dy_toNat hword
  have hdz := freshFront_dz_toNat hword
  have hinit : (BlockOp.both .frontInit 0 0).encodeStep s =
      .next { s with din0 := 0, din1 := 0, front := freshFront s.cfg } := exec_frontInit_completes hf hring
  have hstart := stepping_freshFront ⟨hf, hm, hcoder, hv, hmodel⟩ hs hword 0 0
  obtain ⟨t, ht, hstep, -, hfront⟩ := schedule_runs hstart
    (scheduleBehindInit_scheduled (x := x) (y := y) hfit hz ((hshape.getD hz).1 ▸ hy))
  have hpushed := (pushes_schedule (f := freshFront s.cfg) rfl hdy hdz slices x y z).trans
    (paddedSlices_take hshape hx hy hz).symm
  refine ⟨t, ?_, hstep.running, fun i j k hne => ?_⟩
  · rw [scheduleUpTo_eq]
    exact (encodeBlock_cons hinit).trans ht
  · have hvalue := frontSlotValue_field hinv hdy hdz hshape hx hy hz hpushed
      (List.forall_mem_flatMap.mpr fun op _ => schedulePushes_fit hinv op) hfront hne
    rw [front_zero_eq hinv, freshFront_w] at hvalue
    rw [exec_frontAt_slotAt hstep.running hstep.configured hstep.front, ← hvalue, hfront, pushAll_dy, pushAll_dz]

end Sys2Proof.Proofs
end

section
/-! PROOFS. Words that are no command, and the two control commands that run in every state (46_control.md R1000,
R1001, R1004): O7, O18. -/

namespace Sys2Proof.Proofs

open Sys2Proof.Machine Sys2Proof.Safety Sys2Proof.Laws

/-! ### The fault action and the port, case by case -/

/-- A later fault writes nothing (60_exceptions.md R1104). -/
theorem raiseFault_halted (w : W32) (c : Cause) {s : State} (h : s.faults.flag = true) : raiseFault w c s = s := by
  simp only [raiseFault, h, if_true]

/-- The first fault since reset writes the three fault registers (60_exceptions.md R1101). -/
theorem raiseFault_running (w : W32) (c : Cause) {s : State} (h : s.faults.flag = false) :
    raiseFault w c s = { s with faults := { flag := true, cause := causeCode c, cmd := w } } := by
  simp only [raiseFault, h, Bool.false_eq_true, if_false]

/-- A command that does not hold leaves the port (20_memory.md R210). -/
theorem settlePort_not_holding {s : State} (h : s.holding = false) : settlePort s = { s with port := none } := by
  simp only [settlePort, h, Bool.false_eq_true, if_false]

/-! ### Words that are no command -/

/-- The word `w` is no command, and `c` is its fault (46_control.md R1004). -/
inductive Rejected (w : W32) : Cause → Prop
  | illegalOpcode (h : decode w = .illegalOpcode) : Rejected w .illegalOpcode
  | reservedField (h : decode w = .reservedField) : Rejected w .reservedField

/-- Every word is a command or has a fault of its own. -/
theorem exists_rejected {w : W32} (h : ∀ i, decode w ≠ .instr i) : ∃ c, Rejected w c := by
  cases hd : decode w with
  | instr i => exact absurd hd (h i)
  | illegalOpcode => exact ⟨_, .illegalOpcode hd⟩
  | reservedField => exact ⟨_, .reservedField hd⟩

section
variable {s : State} {w : W32} {c : Cause}

/-- A rejected word takes the fault action and leaves the port. -/
theorem step_rejected (hport : s.port = some w) (hholding : s.holding = false) (hw : Rejected w c) :
    step s = .next { raiseFault w c s with port := none } := by
  have hfetch : fetch s = some w := fetch_eq_some.mpr ⟨hholding, hport⟩
  have hsettle := settlePort_not_holding ((raiseFault_holding w c s).trans hholding)
  cases hw with
  | illegalOpcode hd => simp only [step, hfetch, hd, rejectWord, hsettle]
  | reservedField hd => simp only [step, hfetch, hd, rejectWord, hsettle]

theorem step_rejected_halted (hport : s.port = some w) (hholding : s.holding = false) (hw : Rejected w c)
    (hf : s.faults.flag = true) : step s = .next { s with port := none } := by
  rw [step_rejected hport hholding hw, raiseFault_halted w c hf]

theorem step_rejected_running (hport : s.port = some w) (hholding : s.holding = false) (hw : Rejected w c)
    (hf : s.faults.flag = false) :
    step s = .next { s with port := none, faults := { flag := true, cause := causeCode c, cmd := w } } := by
  rw [step_rejected hport hholding hw, raiseFault_running w c hf]

end

/-- Settles O7: a word that is no command is rejected, and the fault action depends on the halted state alone. -/
theorem badWordsFaultFromTheWordAlone : Obligations.BadWordsFaultFromTheWordAlone := by
  intro s w hport hholding
  refine ⟨fun hf hw => ?_, fun hf hd => ?_, fun hf hd => ?_⟩
  · obtain ⟨c, hc⟩ := exists_rejected hw
    exact step_rejected_halted hport hholding hc hf
  · exact step_rejected_running hport hholding (.illegalOpcode hd) hf
  · exact step_rejected_running hport hholding (.reservedField hd) hf

/-! ### NOP and RESET -/

theorem exec_nop (s : State) : exec .nop s = .next s := rfl

theorem exec_reset (s : State) : exec .reset s = .next (resetBlock s) := rfl

/-- Settles O18: RESET ends in `resetBlock`, unit by unit the values of R1200. -/
theorem nopAndResetRunInEveryState : Obligations.NopAndResetRunInEveryState := by
  intro s
  exact ⟨exec_nop s, resetBlock s, exec_reset s, resetBlock_coder s, congrArg Model.valid (resetBlock_model s),
    congrArg Front.valid (resetBlock_front s), resetBlock_faults s, resetBlock_cfg s, resetBlock_din0 s,
    resetBlock_din1 s, resetBlock_params s, resetBlock_host s⟩

end Sys2Proof.Proofs
end

section
/-! PROOFS. Every command answers: the commands that run under checks and the three that run in every state, the causes
each can report (60_exceptions.md R1101 to R1104), and what a halted block does: O10, O11. -/

namespace Sys2Proof.Proofs

open Sys2Proof.Machine Sys2Proof.Safety Sys2Proof.Laws

/-! ### The causes of the CSR map (10_state.md R122, R123) -/

theorem unitCsr_causes {valid : Bool} {v : W64} {cause : Cause} (h : unitCsr valid v = .error cause) :
    cause = .notConfigured := by
  unfold unitCsr at h
  split at h <;> cases h
  rfl

theorem indirectCsr_causes {valid inTable : Bool} {v : W64} {cause : Cause}
    (h : indirectCsr valid inTable v = .error cause) : cause = .notConfigured ∨ cause = .operandRange := by
  unfold indirectCsr at h
  split at h
  · split at h <;> cases h
    exact .inr rfl
  · cases h; exact .inl rfl

/-- The faults of reading a CSR (46_control.md R1002). -/
theorem csrValue_causes {c : Nat} {s : State} {cause : Cause} (h : csrValue c s = .error cause) :
    cause = .csrAccess ∨ cause = .notConfigured ∨ cause = .operandRange := by
  unfold csrValue at h
  split at h
  -- The CSRs of the model and of the front, the indirect ones, an unmapped index; the others are always readable.
  case h_16 | h_17 | h_18 | h_19 | h_20 | h_21 | h_22 | h_23 | h_24 | h_25 | h_26 | h_27 | h_28 =>
    exact .inr (.inl (unitCsr_causes h))
  case h_30 | h_32 | h_33 => exact .inr (indirectCsr_causes h)
  case h_34 => cases h; exact .inl rfl
  all_goals cases h

theorem writeWidth_causes {v : W64} {k : Csrs} {cause : Cause} (h : writeWidth v k = .error cause) :
    cause = .csrValue := by
  unfold writeWidth at h
  split at h
  · cases h
  · split at h <;> cases h
    rfl

theorem boundedCsr_causes {lo hi : Nat} {v : W64} {k : Csrs} {cause : Cause}
    (h : boundedCsr lo hi v k = .error cause) : cause = .csrValue := by
  unfold boundedCsr at h
  split at h <;> cases h
  rfl

/-- The faults of writing a CSR (46_control.md R1003). -/
theorem csrWritten_causes {c : Nat} {v : W64} {k : Csrs} {cause : Cause} (h : csrWritten c v k = .error cause) :
    cause = .csrAccess ∨ cause = .csrValue := by
  unfold csrWritten at h
  split at h
  case h_1 => exact .inr (writeWidth_causes h)
  case h_9 => cases h; exact .inl rfl
  all_goals exact .inr (boundedCsr_causes h)

/-! ### Commands that run under checks (R1103, R1104) -/

/-- A cause a decoded command can report: all but the two of a word that is no command. -/
def commandCause (c : Cause) : Bool := decide (3 ≤ (causeCode c).toNat)

theorem commandCause_of_csrValue {c : Nat} {s : State} {cause : Cause} (h : csrValue c s = .error cause) :
    commandCause cause = true := by
  obtain rfl | rfl | rfl := csrValue_causes h <;> rfl

theorem commandCause_of_csrWritten {c : Nat} {v : W64} {k : Csrs} {cause : Cause}
    (h : csrWritten c v k = .error cause) : commandCause cause = true := by
  obtain rfl | rfl := csrWritten_causes h <;> rfl

/-- The answer `o` of command `i` in state `s` is that of `command` with these checks and this effect: the checks
report a decoded command's causes, and the effect leaves the fault registers to them. -/
structure RunsChecked (i : Instr) (s : State) (o : Host.Outcome State Fault Refusal) (checks : List Check)
    (effect : State → Option State) : Prop where
  runs : o = command i s checks effect
  causes : checks.all (fun check => commandCause check.2) = true
  faults : ∀ t, effect s = some t → t.faults = s.faults

theorem withCoder_faults {s t : State} {o : Option Coder} (h : withCoder s o = some t) : t.faults = s.faults := by
  obtain ⟨_, -, rfl⟩ := withCoder_eq_some.mp h
  rfl

theorem withCoderModel_faults {s t : State} {o : Option (Coder × Model)} (h : withCoderModel s o = some t) :
    t.faults = s.faults := by
  obtain ⟨_, _, -, rfl⟩ := withCoderModel_eq_some.mp h
  rfl

/-- CSR_WRITE is a checked command: its one check is the answer of the CSR map (46_control.md R1003). -/
theorem csrWrite_runsChecked (c : Nat) (s : State) :
    ∃ checks effect, RunsChecked (.csrWrite c) s (execCsrWrite c s) checks effect := by
  cases hk : csrWritten c s.din0 s.cfg with
  | ok k =>
    exact ⟨[], fun s => some { s with cfg := k }, by simp [execCsrWrite, command, hk], rfl,
      fun t h => by cases h; rfl⟩
  | error cause =>
    exact ⟨[(true, cause)], some, by simp [execCsrWrite, command, hk],
      by simpa using commandCause_of_csrWritten hk, fun t h => by cases h; rfl⟩

/-- Every command but NOP, RESET and CSR_READ runs under checks, which are nothing to a halted block (R1104). -/
theorem exec_runsChecked {i : Instr} (hi : runsHalted i = false) (s : State) :
    ∃ checks effect, RunsChecked i s (exec i s) checks effect := by
  unfold exec
  cases i with
  | nop | reset | csrRead => cases hi
  | csrWrite c => exact csrWrite_runsChecked c s
  | rcEncBit | rcEncRaw | rcDecInit => exact ⟨_, _, rfl, rfl, fun _ => withCoder_faults⟩
  | rcEncSym | resEnc => exact ⟨_, _, rfl, rfl, fun _ => withCoderModel_faults⟩
  | rcFinish | rcDecBit | rcDecRaw | rcDecSym | resDec =>
    refine ⟨_, _, rfl, rfl, fun t h => ?_⟩
    split at h <;> cases h
    rfl
  | stepEnc | stepDec =>
    refine ⟨_, _, rfl, rfl, fun t h => ?_⟩
    dsimp only at h
    split at h <;> cases h
    rfl
  | _ => exact ⟨_, _, rfl, rfl, fun t h => by cases h; rfl⟩

/-- Settles O10: the commands R1104 does not except run under checks, and a halted block ignores those. -/
theorem haltedBlockIgnoresCommands : Obligations.HaltedBlockIgnoresCommands := by
  intro i s hf hi
  obtain ⟨_, _, hrun⟩ := exec_runsChecked hi s
  rw [hrun.runs, command_halted hf]

/-! ### Precise faults (R1101, R1102, R1108) -/

/-- If command `i` has halted the block on its way from `s` to `t`, then by a fault of its own that changed nothing but
the fault registers. -/
def FaultsPrecisely (i : Instr) (s t : State) : Prop :=
  s.faults.flag = false → t.faults.flag = true →
    3 ≤ t.faults.cause.toNat ∧ t.faults.cause.toNat ≤ 9 ∧ t = faulted i t.faults.cause s

section
variable {i : Instr} {s t : State}

theorem faultsPrecisely_of_kept (h : t.faults = s.faults) : FaultsPrecisely i s t := fun hs ht => by
  simp [h, hs] at ht

theorem faultsPrecisely_of_running (h : t.faults.flag = false) : FaultsPrecisely i s t := fun _ ht => by
  simp [h] at ht

theorem faultsPrecisely_faulted {c : Cause} (h : commandCause c = true) :
    FaultsPrecisely i s (faulted i (causeCode c) s) := fun _ _ =>
  ⟨of_decide_eq_true h, (causeCode_range c).2, rfl⟩

theorem faultsPrecisely_faultedOnce {c : Cause} (h : commandCause c = true) :
    FaultsPrecisely i s (faultedOnce i (causeCode c) s) := fun hs => by
  rw [faultedOnce_running hs]
  exact faultsPrecisely_faulted h hs

/-- The fault a list of checks reports is the cause of one of them. -/
theorem commandCause_of_firstFault {checks : List Check} {c : Cause}
    (hall : checks.all (fun check => commandCause check.2) = true) (h : firstFault checks = some c) :
    commandCause c = true := by
  obtain ⟨before, after, rfl, -⟩ := firstFault_eq_some.mp h
  exact List.all_eq_true.mp hall (true, c) (by simp)

theorem RunsChecked.faultsPrecisely {checks : List Check} {effect : State → Option State}
    (hrun : RunsChecked i s (exec i s) checks effect) (h : exec i s = .next t) : FaultsPrecisely i s t := by
  rw [hrun.runs] at h
  obtain ⟨-, rfl⟩ | ⟨-, c, hc, rfl⟩ | ⟨-, -, -, rfl⟩ | ⟨-, -, he⟩ := command_cases h
  · exact faultsPrecisely_of_kept rfl
  · exact faultsPrecisely_faulted (commandCause_of_firstFault hrun.causes hc)
  · exact faultsPrecisely_of_kept rfl
  · exact faultsPrecisely_of_kept (hrun.faults t he)

end

/-- The faults of CSR_READ are precise too, though it does not run under checks (46_control.md R1002). -/
theorem csrRead_faultsPrecisely (c : Nat) (s : State) :
    ∃ t, exec (.csrRead c) s = .next t ∧ FaultsPrecisely (.csrRead c) s t := by
  cases hv : csrValue c s with
  | ok v => exact ⟨_, exec_csrRead_ok hv, faultsPrecisely_of_kept rfl⟩
  | error cause => exact ⟨_, exec_csrRead_error hv, faultsPrecisely_faultedOnce (commandCause_of_csrValue hv)⟩

theorem checked_faultsPrecisely {i : Instr} (hi : runsHalted i = false) (s : State) :
    ∃ t, exec i s = .next t ∧ FaultsPrecisely i s t := by
  obtain ⟨checks, effect, hrun⟩ := exec_runsChecked hi s
  obtain ⟨t, ht⟩ := command_next i s checks effect
  have hexec : exec i s = .next t := hrun.runs.trans ht
  exact ⟨t, hexec, hrun.faultsPrecisely hexec⟩

/-- Settles O11: NOP and RESET do not fault, CSR_READ faults as the CSR map says, every other command by its checks. -/
theorem everyCommandAnswersAndFaultsArePrecise : Obligations.EveryCommandAnswersAndFaultsArePrecise := by
  intro i s
  cases i with
  | nop => exact ⟨s, exec_nop s, faultsPrecisely_of_kept rfl⟩
  | reset => exact ⟨resetBlock s, exec_reset s, faultsPrecisely_of_running rfl⟩
  | csrRead c => exact csrRead_faultsPrecisely c s
  | _ => exact checked_faultsPrecisely rfl s

end Sys2Proof.Proofs
end

section
/-! PROOFS. The state after reset (70_reset_and_hazards.md R1200), where the invariants that every step keeps
(O52 to O55) begin: O56. -/

namespace Sys2Proof.Proofs

open Sys2Proof.Machine Sys2Proof.Safety Sys2Proof.Laws

/-- Settles O56: each unit's part of the reset state has its own invariant. The model and the front are not constructed
yet, so only the search table's length is asked of them. -/
theorem resetHasTheInvariants : Obligations.ResetHasTheInvariants :=
  ⟨CsrsLegal_reset, reset_modelOk, reset_coderInv, reset_frontOk, FaultRegsOk_reset⟩

end Sys2Proof.Proofs
end
